-- ==== Sys2Proof/Word.lean ====
section
/-! DEFINITION. The words the core moves: bytes, 32-bit bus words and 256-bit values (00_scope.md R10, R12). Every one
is unsigned: the core gives no operand a two's-complement reading (R12). -/

namespace Sys2Proof

/-- A byte of a message or of a text. -/
abbrev Byte := BitVec 8

/-- A 32-bit word: a bus word, a command word, or a word of SHA-256. -/
abbrev Word32 := BitVec 32

/-- A 256-bit operand: a scalar, a coordinate, a digest (R10, the parameter `W`). -/
abbrev Val := BitVec 256

end Sys2Proof
end

