-- ==== Sys2Proof/Config.lean ====
section
/-! DEFINITION. What the build fixes: the curve constants, the identification constants, the buffer sizes and the
layout of the MMIO window. No constant here is a free value: the spec gives every one of them. -/

namespace Sys2Proof.Config

/-- The field prime p (00_scope.md R4). -/
def p : Nat := 0xFFFFFFFFFFFFFFFFFFFFFFFFFFFFFFFFFFFFFFFFFFFFFFFFFFFFFFFEFFFFFC2F

/-- The group order n (R4). -/
def n : Nat := 0xFFFFFFFFFFFFFFFFFFFFFFFFFFFFFFFEBAAEDCE6AF48A03BBFD25E8CD0364141

/-- The x-coordinate of the generator G (R4). -/
def gx : Nat := 0x79BE667EF9DCBBAC55A06295CE870B07029BFCDB2DCE28D959F2815B16F81798

/-- The y-coordinate of the generator G (R4). -/
def gy : Nat := 0x483ADA7726A3C4655DA4FBFC0E1108A8FD17B448A68554199C47D08FFB10D4B8

/-- The curve coefficient b; the coefficient a is 0 (R4). -/
def b : Nat := 7

/-- ID, "ECDS" (10_state.md R33). -/
def idValue : Word32 := 0x45434453#32

/-- VERSION, interface 1.0 (R34). -/
def versionValue : Word32 := 0x00010000#32

/-- TXT_MAX, the text buffer's size in bytes (R40). -/
abbrev txtMax : Nat := 256

/-- MSG_MAX of the default build (00_scope.md R10, 10_state.md R40). -/
def msgMaxDefault : Word32 := 4096#32

/-- The size of the MMIO window in bytes (R49). -/
abbrev windowSize : Nat := 0x2000

/-- The window offset of TXT[0] (R49). -/
abbrev txtBase : Nat := 0x0800

/-- The window offset of MSG[0] (R49). -/
abbrev msgBase : Nat := 0x1000

end Sys2Proof.Config
end

