-- ==== Sys2Proof/Syntax.lean ====
section
/-! DEFINITION. The command set (30_encoding.md R116): one constructor of `Instr` per row of spec/opcode_table.json, the
operand classes of R112 as types, and the pseudo-commands of R121. -/

namespace Sys2Proof

/-- Class `X`: a scalar register X0 to X15 (R112). -/
abbrev XReg := Fin 16

/-- Class `P`: a point register P0 to P7 (R112). -/
abbrev PReg := Fin 8

/-- The modulus a field command takes from M: p when M = 0, n when M = 1 (R113). -/
inductive Modulus where
  | p
  | n
deriving DecidableEq, Repr

/-- The buffer HASH takes from M: MSG when M = 0, TXT when M = 1 (R113). -/
inductive HashSource where
  | msg
  | txt
deriving DecidableEq, Repr

/-- Class `K`: the seven entries of the constant ROM, in index order (10_state.md R45). -/
inductive RomIndex where
  | zero
  | one
  | p
  | n
  | gx
  | gy
  | coeffB
deriving DecidableEq, Repr

/-- A command. Operands stand in the order A, B, C, M of the command word, unused fields left out. -/
inductive Instr where
  /-- NOP (R170). -/
  | nop
  /-- MADD Xd, Xs, Xs (R141). -/
  | madd (a b c : XReg) (m : Modulus)
  /-- MSUB Xd, Xs (minuend), Xs (subtrahend) (R142). -/
  | msub (a b c : XReg) (m : Modulus)
  /-- MMUL Xd, Xs, Xs (R143). -/
  | mmul (a b c : XReg) (m : Modulus)
  /-- MRED Xd, Xs (R144). -/
  | mred (a b : XReg) (m : Modulus)
  /-- MINV Xd, Xs (R145). -/
  | minv (a b : XReg) (m : Modulus)
  /-- MOV Xd, Xs (R171). -/
  | mov (a b : XReg)
  /-- LDC Xd, K (R172). -/
  | ldc (a : XReg) (k : RomIndex)
  /-- PMOV Pd, Ps (R173). -/
  | pmov (a b : PReg)
  /-- PSET Pd, Xs (x), Xs (y) (R174). -/
  | pset (a : PReg) (b c : XReg)
  /-- PINF Pd (R175). -/
  | pinf (a : PReg)
  /-- PGEN Pd (R176). -/
  | pgen (a : PReg)
  /-- PGETX Xd, Ps (R177). -/
  | pgetx (a : XReg) (b : PReg)
  /-- PGETY Xd, Ps (R178). -/
  | pgety (a : XReg) (b : PReg)
  /-- PADD Pd, Ps, Ps (R200). -/
  | padd (a b c : PReg)
  /-- PDBL Pd, Ps (R205). -/
  | pdbl (a b : PReg)
  /-- PCHK Ps (R206). -/
  | pchk (b : PReg)
  /-- PMUL Pd, Xs (k), Ps (Q) (R230). -/
  | pmul (a : PReg) (b : XReg) (c : PReg)
  /-- HASH Xd (R250). -/
  | hash (a : XReg) (m : HashSource)
  /-- RAND Xd (R291). -/
  | rand (a : XReg)
  /-- ENCD Xs (R320). -/
  | encd (b : XReg)
  /-- ENCQ Ps (R321). -/
  | encq (b : PReg)
  /-- ENCKP Xs (d), Ps (Q) (R322). -/
  | enckp (b : XReg) (c : PReg)
  /-- ENCSIG Xs (r), Xs (s) (R323). -/
  | encsig (b c : XReg)
  /-- DECD Xd (R324). -/
  | decd (a : XReg)
  /-- DECQ Pd (R325). -/
  | decq (a : PReg)
  /-- DECKP Xd (d), Pd (Q) (R326). -/
  | deckp (a : XReg) (b : PReg)
  /-- DECSIG Xd (r), Xd (s) (R327). -/
  | decsig (a b : XReg)
  /-- KEYGEN Xd (d), Pd (Q) (R350). -/
  | keygen (a : XReg) (b : PReg)
  /-- SIGN Xd (r), Xd (s), Xs (d) (R351). -/
  | sign (a b c : XReg)
  /-- VERIFY Xs (r), Xs (s), Ps (Q) (R360). -/
  | verify (a b : XReg) (c : PReg)
deriving DecidableEq, Repr

/-- The pseudo-commands of R121: host sequences of commands, not commands. -/
inductive Pseudo where
  | msqr (d s : XReg) (m : Modulus)
  | mdbl (d s : XReg) (m : Modulus)
  | clr (d : XReg)
  | pneg (d s : PReg)
  | fprintd (d s : XReg)
  | fprintq (d : XReg) (s : PReg)
  | fprintkp (d s : XReg) (q : PReg)
deriving DecidableEq, Repr

end Sys2Proof
end

