-- ==== Sys2Proof/Machine/State.lean ====
section
/-! DEFINITION. The architectural state (10_state.md R30), the outside world's inputs and outputs as plain data, the
stops, and the state after reset (70_reset_and_hazards.md R420). -/

namespace Sys2Proof.Machine

/-- A point register: the stored tag and coordinates (R41). The coordinates are kept when the tag is set. -/
structure PointReg where
  /-- The tag: true for the point at infinity. -/
  inf : Bool
  x   : Val
  y   : Val
deriving DecidableEq, Repr

/-- A point value (R16, R41, R42): the source's tagged variant. Equality is structural. -/
inductive Point where
  /-- The point at infinity O. -/
  | inf
  /-- An affine pair, on the curve or not. -/
  | aff (x y : Val)
deriving DecidableEq, Repr

/-- The bytes of TXT and MSG, keyed by window offset; an unlisted byte reads 0, its value at reset (R43, R44, R420).
Canonical form: addresses strictly rising, no entry 0. -/
abbrev Memory := List Host.Cell

/-- The engine's phase (60_exceptions.md R380). The word of BUSY(w) is the one CMD holds: no other is accepted while
the engine is busy (R37). DEDUCED, log 5. -/
inductive Phase where
  | idle
  | busy
deriving DecidableEq, Repr

/-- One answer of the entropy oracle to `Draw()` (45_rng.md R290). -/
inductive Draw where
  | word (b : Val)
  /-- The oracle cannot deliver a word. -/
  | fail
deriving DecidableEq, Repr

/-- What a host access does. -/
inductive AccessKind where
  | read
  | write (data : Word32)
deriving DecidableEq, Repr

/-- One host bus access, `MemRead(offset, bytes)` or `MemWrite(offset, bytes, data)` (20_memory.md R80, R84). -/
structure Access where
  kind   : AccessKind
  /-- The offset from BASE. -/
  offset : Nat
  /-- The access width in bytes; every width but 4 is a bus error (R84). -/
  bytes  : Nat
deriving DecidableEq, Repr

/-- What an agent does next (00_scope.md R18). DESIGN CHOICE, log 3: whose turn it is, is data. -/
inductive Event where
  /-- The host performs an access. -/
  | access (a : Access)
  /-- The platform pulses the reset input (R420). -/
  | hardReset
  /-- The engine takes its turn. -/
  | engine
  /-- The oracle makes one more answer available. -/
  | oracle (d : Draw)
deriving DecidableEq, Repr

/-- The bus's answer to an access: the data of a read, and whether it is an error response (R87). -/
inductive BusAnswer where
  | read (data : Word32) (error : Bool)
  | write (error : Bool)
deriving DecidableEq, Repr

/-- The state of the core, and the inputs and the output beside it. -/
structure State where
  /-- X0 to X15 (R31). -/
  x        : Vector Val 16
  /-- P0 to P7 (R41). -/
  p        : Vector PointReg 8
  /-- TXT and MSG (R43, R44). -/
  mem      : Memory
  /-- CTRL.IE (R35). -/
  ie       : Bool
  /-- IDLE or BUSY: STATUS.BUSY (R36, R380). -/
  phase    : Phase
  /-- STATUS.DONE (R36). -/
  done     : Bool
  /-- STATUS.FLAG (R48). -/
  flag     : Bool
  /-- STATUS.BUSERR (R36, R87). -/
  busErr   : Bool
  /-- CMD, the last word accepted (R37). -/
  cmd      : Word32
  /-- ERRCODE[7:0] (R38). -/
  errcode  : BitVec 8
  /-- MSG_LEN (R39). -/
  msgLen   : Word32
  /-- TXT_LEN (R40). -/
  txtLen   : Word32
  /-- MSG_MAX, the build's constant, from 1 to 4096 (R10, R40). DESIGN CHOICE, log 4: held here so that a statement about
  every state is about every build. -/
  msgMax   : Word32
  /-- The model's own: what the agents do next, in order (log 3). -/
  pending  : List Event
  /-- The model's own: the oracle's answers not consumed yet, the sequence `draws` of R382 (log 2). -/
  draws    : List Draw
  /-- The model's own: the bus's answer to the last host access; none before the first one, and kept by the reset input
  (DESIGN CHOICE, log 9). -/
  response : Option BusAnswer
deriving DecidableEq, Repr

/-- Why the machine stops with a fault. The core has no trap mechanism and no error of a command stops it (R385, R393):
the one fault is about an access no rule of the core speaks of. -/
inductive Fault where
  /-- Raised by the host access operation for an offset of 0x2000 or more: outside the window of R49 and R80, so the
  platform does not route the access to the core. Safe: the model stops where the core would see nothing. Log 7. -/
  | outsideWindow
deriving DecidableEq, Repr

/-- Why a step has no meaning. -/
inductive Refusal where
  /-- Raised by an arm of `exec` for an instruction without a meaning; no arm raises it in this model. Safe. -/
  | notModelled (mnemonic : String)
deriving DecidableEq, Repr

/-- The core right after reset (R420): every field at the value the spec states; the model's own fields are empty
(logs 2, 3, 9) and the build is the default one (log 4). -/
def State.reset : State where
  x := Vector.replicate 16 0#256
  p := Vector.replicate 8 ⟨true, 0#256, 0#256⟩
  mem := []
  ie := false
  phase := .idle
  done := false
  flag := false
  busErr := false
  cmd := 0#32
  errcode := 0#8
  msgLen := 0#32
  txtLen := 0#32
  msgMax := Config.msgMaxDefault
  pending := []
  draws := []
  response := none

end Sys2Proof.Machine
end

