-- ==== Sys2Proof/Machine/Arith.lean ====
section
/-! DEFINITION. Modular arithmetic on mathematical integers (00_scope.md R13, 40_field.md R140, R146): the positive
residue, the inverse, and the reference reduction algorithms of R148. -/

namespace Sys2Proof.Machine

/-- `a mod m`, the positive residue of any integer, negative ones included (R13). -/
def residue (a : Int) (m : Nat) : Nat := (a % (m : Int)).toNat

/-- `f x`, with x computed to a numeral first, so that a long computation stays small when it is evaluated. -/
def force {α : Type} (x : Nat) (f : Nat → α) : α :=
  match x with
  | 0 => f 0
  | k + 1 => f (k + 1)

/-- The extended Euclidean loop: r0 and r1 are the last two remainders, t0 and t1 the numbers with
t·a ≡ r (mod m) for each; the answer is the one for the last nonzero remainder. -/
def euclidLoop (m : Nat) : Nat → Nat → Nat → Nat → Nat → Nat
  | 0, _, _, t0, _ => t0
  | fuel + 1, r0, r1, t0, t1 =>
    if r1 = 0 then t0
    else force (r0 % r1) fun r2 => force ((t0 + (m - r0 / r1 * t1 % m)) % m) fun t2 => euclidLoop m fuel r1 r2 t1 t2

/-- `inv_m(a)`, the x in [1, m - 1] with (a·x) mod m = 1, for a prime m and a mod m != 0 (R13, R145). INV_ALG is open
(R150); this is the extended Euclidean one. The remainder halves every two rounds, so 514 rounds serve 256 bits. -/
def invMod (m a : Nat) : Nat := euclidLoop m 514 m (a % m) 0 1

/-! ### The reference reductions (R148, R149); no command needs them -/

/-- R = 2^256, the Montgomery radix (R148). -/
def montR : Nat := 2 ^ 256

/-- m' = -m^-1 mod 2^256 (R149). -/
def montNegInv : Modulus → Nat
  | .p => 0xC9BD1905155383999C46C2C295F2B761BCB223FEDC24A059D838091DD2253531
  | .n => 0xD9E8890D6494EF93897F30C127CFAB5E50A51AC834B9EC244B0DFF665588B13F

/-- R^2 mod m (R149). -/
def montRSquared : Modulus → Nat
  | .p => 0x1000007A2000E90A1
  | .n => 0x9D671CD581C69BC5E697F5E45BCD07C6741496C20E7CF878896CF21467D7D140

/-- mu = floor(2^512 / m) (R149). -/
def barrettMu : Modulus → Nat
  | .p => 0x100000000000000000000000000000000000000000000000000000001000003D1
  | .n => 0x1000000000000000000000000000000014551231950B75FC4402DA1732FC9BEC0

/-- The modulus m of a field command (R113, R140). -/
def modulusValue : Modulus → Nat
  | .p => Config.p
  | .n => Config.n

/-- REDC(T), for T < m·R (R148). -/
def redc (m : Modulus) (t : Nat) : Nat :=
  let u := t % montR * montNegInv m % montR
  let q := (t + u * modulusValue m) / montR
  if q ≥ modulusValue m then q - modulusValue m else q

/-- MMUL by Montgomery reduction, in the rule's to_mont and from_mont form: both operands to Montgomery form, one REDC of
their product, one REDC back (R148). -/
def montgomeryMul (m : Modulus) (a b : Nat) : Nat :=
  let aR2 := a % modulusValue m * montRSquared m
  let bR2 := b % modulusValue m * montRSquared m
  redc m (redc m (redc m aR2 * redc m bR2))

/-- BARRETT(x), for x < 2^512 (R148); the rule's loop subtracts at most twice. -/
def barrett (m : Modulus) (x : Nat) : Nat :=
  let q := ((x >>> 255) * barrettMu m) >>> 257
  let r := residue ((x : Int) - q * modulusValue m) (2 ^ 258)
  let r' := if r ≥ modulusValue m then r - modulusValue m else r
  if r' ≥ modulusValue m then r' - modulusValue m else r'

end Sys2Proof.Machine
end

