-- ==== Sys2Proof/Machine/Operands.lean ====
section
/-! DEFINITION. The operand forms (30_encoding.md R112, R113): scalar registers, point registers by value and as stored,
the constant ROM, the modulus, and the error codes of 60_exceptions.md R390. -/

namespace Sys2Proof.Machine

/-- `X[i]` (00_scope.md R14). -/
def State.readX (s : State) (i : XReg) : Val := s.x[i]

/-- `X[i] <- v` (R14). No register is hardwired (R31). -/
def State.writeX (s : State) (i : XReg) (v : Val) : State := { s with x := s.x.set i v }

/-- Point register i as stored: the tag and both coordinates (R41). -/
def State.readPReg (s : State) (i : PReg) : PointReg := s.p[i]

/-- Point register i written as stored. -/
def State.writePReg (s : State) (i : PReg) (r : PointReg) : State := { s with p := s.p.set i r }

/-- The value a point register stands for: coordinates under a set tag are ignored (R41). -/
def PointReg.value (r : PointReg) : Point := if r.inf then .inf else .aff r.x r.y

/-- What a command stores for a value: INF as inf = 1, x = 0, y = 0; AFF as inf = 0 and the coordinates (R41). -/
def Point.stored : Point → PointReg
  | .inf => ⟨true, 0#256, 0#256⟩
  | .aff x y => ⟨false, x, y⟩

/-- `P[i]` (R14). -/
def State.readP (s : State) (i : PReg) : Point := (s.readPReg i).value

/-- `P[i] <- pt` (R14). -/
def State.writeP (s : State) (i : PReg) (pt : Point) : State := s.writePReg i pt.stored

/-- A register value of a mathematical result below 2^256. -/
def toVal (v : Nat) : Val := BitVec.ofNat 256 v

/-- The constant ROM (R45). -/
def romValue : RomIndex → Val
  | .zero => 0#256
  | .one => 1#256
  | .p => toVal Config.p
  | .n => toVal Config.n
  | .gx => toVal Config.gx
  | .gy => toVal Config.gy
  | .coeffB => toVal Config.b

/-- The generator G (R4, R176). -/
def generator : Point := .aff (toVal Config.gx) (toVal Config.gy)

/-- The error codes of R390, but OK. -/
inductive Err where
  | illegal
  | length
  | fieldCount
  | badToken
  | overflow
  | noInverse
  | scalarRange
  | badPoint
  | infinity
  | entropy
deriving DecidableEq, Repr

/-- The ERRCODE value of an error (R390). -/
def Err.code : Err → BitVec 8
  | .illegal => 0x01#8
  | .length => 0x02#8
  | .fieldCount => 0x10#8
  | .badToken => 0x11#8
  | .overflow => 0x12#8
  | .noInverse => 0x20#8
  | .scalarRange => 0x21#8
  | .badPoint => 0x22#8
  | .infinity => 0x23#8
  | .entropy => 0x30#8

/-- ERRCODE of a command that raised nothing (R390). -/
def okCode : BitVec 8 := 0x00#8

end Sys2Proof.Machine
end

