-- ==== Sys2Proof/Machine/Curve.lean ====
section
/-! DEFINITION. The point algebra (42_point.md R200 to R207) and the scalar multiple (43_scalar_mult.md R231, R232). -/

namespace Sys2Proof.Machine

/-- `onCurve(x, y)`: both coordinates below p and y^2 = x^3 + 7 modulo p (00_scope.md R16). -/
def onCurve (x y : Nat) : Bool :=
  decide (x < Config.p) && decide (y < Config.p) && residue ((y : Int) ^ 2 - (x : Int) ^ 3 - Config.b) Config.p == 0

/-- A point value is valid when it is O or an affine pair on the curve (R16). -/
def Point.valid : Point → Bool
  | .inf => true
  | .aff x y => onCurve x.toNat y.toNat

/-- An affine value with a coordinate of p or more: no pair of field elements (R202). -/
def Point.outOfField : Point → Bool
  | .inf => false
  | .aff x y => decide (x.toNat ≥ Config.p) || decide (y.toNat ≥ Config.p)

/-- The inverse of Q: `-AFF(x, y) = AFF(x, (p - y) mod p)`, the positive residue also where y exceeds p (R13, R16). -/
def Point.neg : Point → Point
  | .inf => .inf
  | .aff x y => .aff x (toVal (residue ((Config.p : Int) - y.toNat) Config.p))

/-- The third point of the line of slope lam through (x1, y1), with the other abscissa x2 (the last lines of R201). -/
def chordResult (lam x1 y1 x2 : Nat) : Point :=
  force (residue ((lam : Int) ^ 2 - x1 - x2) Config.p) fun x3 =>
    force (residue ((lam : Int) * ((x1 : Int) - x3) - y1) Config.p) fun y3 => .aff (toVal x3) (toVal y3)

/-- `add(U, V)`, in the order of R201: the range check, the cases of O, the additive inverse, the doubling, the chord. -/
def pointAdd (u v : Point) : Except Err Point :=
  if u.outOfField || v.outOfField then .error .badPoint
  else match u, v with
    | .inf, _ => .ok v
    | .aff .., .inf => .ok u
    | .aff x1 y1, .aff x2 y2 =>
      if u ≠ v ∧ x1 = x2 ∧ (y1.toNat + y2.toNat) % Config.p = 0 then .ok .inf
      else if u = v then
        if y1.toNat = 0 then .error .noInverse
        else
          let lam := residue (3 * (x1.toNat : Int) ^ 2 * invMod Config.p (2 * y1.toNat)) Config.p
          .ok (chordResult lam x1.toNat y1.toNat x1.toNat)
      else
        if x1 = x2 then .error .noInverse
        else
          let lam := residue (((y2.toNat : Int) - y1.toNat)
            * invMod Config.p (residue ((x2.toNat : Int) - x1.toNat) Config.p)) Config.p
          .ok (chordResult lam x1.toNat y1.toNat x2.toNat)

/-- The k-fold sum Q + Q + ... + Q (R231), as the rule defines it. -/
def kFoldSum (q : Point) : Nat → Except Err Point
  | 0 => .ok .inf
  | k + 1 => (kFoldSum q k).bind fun r => pointAdd r q

/-- Left-to-right double-and-add over the low `bits` bits of k (R232): `acc` is doubled at each bit, and Q added where
the bit is 1. -/
def doubleAndAdd (q : Point) (k : Nat) : Nat → Point → Except Err Point
  | 0, acc => .ok acc
  | bits + 1, acc =>
    match pointAdd acc acc with
    | .error e => .error e
    | .ok twice =>
      if k.testBit bits then
        match pointAdd twice q with
        | .error e => .error e
        | .ok sum => doubleAndAdd q k bits sum
      else doubleAndAdd q k bits twice

/-- `k·Q` for a valid Q, over all 256 bits of k (R231, R232; PMUL_ALG is open, log 10). For a valid Q no addition
raises (R204, R230); an error would be passed on (log 11). -/
def scalarMult (k : Nat) (q : Point) : Except Err Point := doubleAndAdd q k 256 .inf

end Sys2Proof.Machine
end

