-- ==== Sys2Proof/WellFormed.lean ====
section
/-! DEFINITION. Which terms of `Instr` are commands. The types of the operands already hold the ranges of R112, so the
one check left is that of 30_encoding.md R114 and R119: two destinations in one register file differ. -/

namespace Sys2Proof

/-- The check of R114 and R119: SIGN and DECSIG name two different destinations. -/
def Instr.wellFormed : Instr → Bool
  | .sign a b _ => a != b
  | .decsig a b => a != b
  | .nop | .madd .. | .msub .. | .mmul .. | .mred .. | .minv .. | .mov .. | .ldc .. | .pmov .. | .pset .. | .pinf ..
  | .pgen .. | .pgetx .. | .pgety .. | .padd .. | .pdbl .. | .pchk .. | .pmul .. | .hash .. | .rand .. | .encd ..
  | .encq .. | .enckp .. | .encsig .. | .decd .. | .decq .. | .deckp .. | .keygen .. | .verify .. => true

/-- A term of `Instr` that is a command of the core. -/
abbrev Instr.WellFormed (i : Instr) : Prop := i.wellFormed = true

end Sys2Proof
end

