-- ==== Sys2Proof/Decode.lean ====
section
/-! DEFINITION. The command word (30_encoding.md): its fields, the opcode table with its match and mask, the decoder,
the encoder, the assembler syntax and the pseudo-commands' expansions. -/

namespace Sys2Proof

/-- The fields of a command word (R111). -/
structure Fields where
  /-- Bits [7:0]. -/
  op  : BitVec 8
  /-- Bits [11:8]. -/
  a   : BitVec 4
  /-- Bits [15:12]. -/
  b   : BitVec 4
  /-- Bits [19:16]. -/
  c   : BitVec 4
  /-- Bit [20]. -/
  m   : BitVec 1
  /-- Bits [31:21], reserved. -/
  rsv : BitVec 11
deriving DecidableEq, Repr

/-- The fields of a word, by the bit positions of R111. -/
def fieldsOfWord (w : Word32) : Fields :=
  ⟨w.extractLsb' 0 8, w.extractLsb' 8 4, w.extractLsb' 12 4, w.extractLsb' 16 4, w.extractLsb' 20 1,
   w.extractLsb' 21 11⟩

/-- The word of given fields: RSV, M, C, B, A, OP from bit 31 down (R111). -/
def wordOfFields (f : Fields) : Word32 := f.rsv ++ f.m ++ f.c ++ f.b ++ f.a ++ f.op

/-! ### The opcode table -/

/-- The operand class of a field (R112). -/
inductive OperandClass where
  /-- A scalar register, 0 to 15. -/
  | x
  /-- A point register, 0 to 7. -/
  | p
  /-- A constant ROM index, 0 to 6. -/
  | k
  /-- Class `0`: unused, must be 0. -/
  | unused
deriving DecidableEq, Repr

/-- One row of the command set (R116). -/
structure OpRow where
  op       : BitVec 8
  mnemonic : String
  a        : OperandClass
  b        : OperandClass
  c        : OperandClass
  usesM    : Bool
deriving DecidableEq, Repr

/-- The complete command set (R116). -/
def opcodeTable : List OpRow :=
 [
  ⟨0x00#8, "NOP", .unused, .unused, .unused, false⟩,
  ⟨0x10#8, "MADD", .x, .x, .x, true⟩,
  ⟨0x11#8, "MSUB", .x, .x, .x, true⟩,
  ⟨0x12#8, "MMUL", .x, .x, .x, true⟩,
  ⟨0x13#8, "MRED", .x, .x, .unused, true⟩,
  ⟨0x14#8, "MINV", .x, .x, .unused, true⟩,
  ⟨0x20#8, "MOV", .x, .x, .unused, false⟩,
  ⟨0x21#8, "LDC", .x, .k, .unused, false⟩] ++
 [
  ⟨0x22#8, "PMOV", .p, .p, .unused, false⟩,
  ⟨0x23#8, "PSET", .p, .x, .x, false⟩,
  ⟨0x24#8, "PINF", .p, .unused, .unused, false⟩,
  ⟨0x25#8, "PGEN", .p, .unused, .unused, false⟩,
  ⟨0x26#8, "PGETX", .x, .p, .unused, false⟩,
  ⟨0x27#8, "PGETY", .x, .p, .unused, false⟩,
  ⟨0x30#8, "PADD", .p, .p, .p, false⟩,
  ⟨0x31#8, "PDBL", .p, .p, .unused, false⟩] ++
 [
  ⟨0x32#8, "PCHK", .unused, .p, .unused, false⟩,
  ⟨0x38#8, "PMUL", .p, .x, .p, false⟩,
  ⟨0x40#8, "HASH", .x, .unused, .unused, true⟩,
  ⟨0x50#8, "RAND", .x, .unused, .unused, false⟩,
  ⟨0x60#8, "ENCD", .unused, .x, .unused, false⟩,
  ⟨0x61#8, "ENCQ", .unused, .p, .unused, false⟩,
  ⟨0x62#8, "ENCKP", .unused, .x, .p, false⟩,
  ⟨0x63#8, "ENCSIG", .unused, .x, .x, false⟩] ++
 [
  ⟨0x68#8, "DECD", .x, .unused, .unused, false⟩,
  ⟨0x69#8, "DECQ", .p, .unused, .unused, false⟩,
  ⟨0x6A#8, "DECKP", .x, .p, .unused, false⟩,
  ⟨0x6B#8, "DECSIG", .x, .x, .unused, false⟩,
  ⟨0x70#8, "KEYGEN", .x, .p, .unused, false⟩,
  ⟨0x71#8, "SIGN", .x, .x, .x, false⟩,
  ⟨0x72#8, "VERIFY", .x, .x, .p, false⟩]

/-- The mask bits a field of a class contributes: all four for class `0`, bit 3 for class `P`, none otherwise (R117). -/
def classMask : OperandClass → BitVec 4
  | .x | .k => 0b0000#4
  | .p => 0b1000#4
  | .unused => 0b1111#4

/-- The mask of a row (R117). -/
def OpRow.mask (r : OpRow) : Word32 :=
  wordOfFields ⟨0xFF#8, classMask r.a, classMask r.b, classMask r.c, if r.usesM then 0#1 else 1#1, 0x7FF#11⟩

/-- The match value of a row: its OP (R117). -/
def OpRow.matchValue (r : OpRow) : Word32 := wordOfFields ⟨r.op, 0#4, 0#4, 0#4, 0#1, 0#11⟩

/-- The row of an OP, if it has one. -/
def opRow? (op : BitVec 8) : Option OpRow := opcodeTable.find? (·.op == op)

/-- The predicate `legal` of R119, as the rule writes it: by match and mask, then the checks a mask cannot express. -/
def legalByTable (w : Word32) : Bool :=
  match opRow? (w.extractLsb' 0 8) with
  | none => false
  | some r =>
    w.extractLsb' 21 11 == 0#11 && (w &&& r.mask) == r.matchValue
      && (r.op != 0x21#8 || (w.extractLsb' 12 4).ule 6#4)
      && ((r.op != 0x71#8 && r.op != 0x6B#8) || w.extractLsb' 8 4 != w.extractLsb' 12 4)

/-! ### The decoder -/

/-- Why a word is no command (R119). Every one of them is the error ILLEGAL. -/
inductive Illegal where
  /-- OP is reserved (R118). -/
  | reservedOp
  /-- Bits [31:21] are not 0. -/
  | reservedBits
  /-- A field of class `0` is not 0. -/
  | unusedField
  /-- M is 1 for a command that does not use it. -/
  | unusedM
  /-- A class `P` field is 8 or more. -/
  | pointIndex
  /-- A class `K` field is 7 or more. -/
  | romIndex
  /-- SIGN or DECSIG with A = B. -/
  | sameDestination
deriving DecidableEq, Repr

/-- A class `X` field (R32, R112). -/
def fieldX (v : BitVec 4) : XReg := v.toFin

/-- A class `P` field (R112). -/
def fieldP (v : BitVec 4) : Except Illegal PReg :=
  if h : v.toNat < 8 then .ok ⟨v.toNat, h⟩ else .error .pointIndex

/-- A class `K` field (R45, R112). -/
def fieldK : BitVec 4 → Except Illegal RomIndex
  | 0#4 => .ok .zero
  | 1#4 => .ok .one
  | 2#4 => .ok .p
  | 3#4 => .ok .n
  | 4#4 => .ok .gx
  | 5#4 => .ok .gy
  | 6#4 => .ok .coeffB
  | _ => .error .romIndex

/-- A class `0` field must be 0 (R112). -/
def unusedField (v : BitVec 4) : Except Illegal Unit := if v = 0#4 then .ok () else .error .unusedField

/-- An unused M must be 0 (R113). -/
def unusedM (v : BitVec 1) : Except Illegal Unit := if v = 0#1 then .ok () else .error .unusedM

/-- The modulus M selects (R113). -/
def fieldModulus (v : BitVec 1) : Modulus := if v = 0#1 then .p else .n

/-- The buffer M selects for HASH (R113). -/
def fieldSource (v : BitVec 1) : HashSource := if v = 0#1 then .msg else .txt

/-- Two destinations of one register file must differ (R114). -/
def distinctDestinations (a b : BitVec 4) : Except Illegal Unit := if a = b then .error .sameDestination else .ok ()

/-- The command of a word whose reserved bits are 0, by OP (R116). -/
def decodeFields (f : Fields) : Except Illegal Instr :=
  match f.op with
  | 0x00#8 => do unusedField f.a; unusedField f.b; unusedField f.c; unusedM f.m; return .nop
  | 0x10#8 => do return .madd (fieldX f.a) (fieldX f.b) (fieldX f.c) (fieldModulus f.m)
  | 0x11#8 => do return .msub (fieldX f.a) (fieldX f.b) (fieldX f.c) (fieldModulus f.m)
  | 0x12#8 => do return .mmul (fieldX f.a) (fieldX f.b) (fieldX f.c) (fieldModulus f.m)
  | 0x13#8 => do unusedField f.c; return .mred (fieldX f.a) (fieldX f.b) (fieldModulus f.m)
  | 0x14#8 => do unusedField f.c; return .minv (fieldX f.a) (fieldX f.b) (fieldModulus f.m)
  | 0x20#8 => do unusedField f.c; unusedM f.m; return .mov (fieldX f.a) (fieldX f.b)
  | 0x21#8 => do let b ← fieldK f.b; unusedField f.c; unusedM f.m; return .ldc (fieldX f.a) b
  | 0x22#8 => do let a ← fieldP f.a; let b ← fieldP f.b; unusedField f.c; unusedM f.m; return .pmov a b
  | 0x23#8 => do let a ← fieldP f.a; unusedM f.m; return .pset a (fieldX f.b) (fieldX f.c)
  | 0x24#8 => do let a ← fieldP f.a; unusedField f.b; unusedField f.c; unusedM f.m; return .pinf a
  | 0x25#8 => do let a ← fieldP f.a; unusedField f.b; unusedField f.c; unusedM f.m; return .pgen a
  | 0x26#8 => do let b ← fieldP f.b; unusedField f.c; unusedM f.m; return .pgetx (fieldX f.a) b
  | 0x27#8 => do let b ← fieldP f.b; unusedField f.c; unusedM f.m; return .pgety (fieldX f.a) b
  | 0x30#8 => do let a ← fieldP f.a; let b ← fieldP f.b; let c ← fieldP f.c; unusedM f.m; return .padd a b c
  | 0x31#8 => do let a ← fieldP f.a; let b ← fieldP f.b; unusedField f.c; unusedM f.m; return .pdbl a b
  | 0x32#8 => do unusedField f.a; let b ← fieldP f.b; unusedField f.c; unusedM f.m; return .pchk b
  | 0x38#8 => do let a ← fieldP f.a; let c ← fieldP f.c; unusedM f.m; return .pmul a (fieldX f.b) c
  | 0x40#8 => do unusedField f.b; unusedField f.c; return .hash (fieldX f.a) (fieldSource f.m)
  | 0x50#8 => do unusedField f.b; unusedField f.c; unusedM f.m; return .rand (fieldX f.a)
  | 0x60#8 => do unusedField f.a; unusedField f.c; unusedM f.m; return .encd (fieldX f.b)
  | 0x61#8 => do unusedField f.a; let b ← fieldP f.b; unusedField f.c; unusedM f.m; return .encq b
  | 0x62#8 => do unusedField f.a; let c ← fieldP f.c; unusedM f.m; return .enckp (fieldX f.b) c
  | 0x63#8 => do unusedField f.a; unusedM f.m; return .encsig (fieldX f.b) (fieldX f.c)
  | 0x68#8 => do unusedField f.b; unusedField f.c; unusedM f.m; return .decd (fieldX f.a)
  | 0x69#8 => do let a ← fieldP f.a; unusedField f.b; unusedField f.c; unusedM f.m; return .decq a
  | 0x6A#8 => do let b ← fieldP f.b; unusedField f.c; unusedM f.m; return .deckp (fieldX f.a) b
  | 0x6B#8 => do unusedField f.c; unusedM f.m; distinctDestinations f.a f.b; return .decsig (fieldX f.a) (fieldX f.b)
  | 0x70#8 => do let b ← fieldP f.b; unusedField f.c; unusedM f.m; return .keygen (fieldX f.a) b
  | 0x71#8 => do unusedM f.m; distinctDestinations f.a f.b; return .sign (fieldX f.a) (fieldX f.b) (fieldX f.c)
  | 0x72#8 => do let c ← fieldP f.c; unusedM f.m; return .verify (fieldX f.a) (fieldX f.b) c
  | _ => .error .reservedOp

/-- Decoding: total on any word, rejecting by name (R117 to R119). -/
def decode (w : Word32) : Except Illegal Instr :=
  if w.extractLsb' 21 11 = 0#11 then decodeFields (fieldsOfWord w) else .error .reservedBits

/-- The instruction the decoder reads from a command word of `nbits` bits (every command word has 32, R110). -/
def decodeTableWord (nbits w : Nat) : Option Instr :=
  match decode (BitVec.ofNat 32 (w % 2 ^ nbits)) with
  | .ok i => some i
  | .error _ => none

/-! ### The encoder -/

/-- The field of a scalar register. -/
def xField (r : XReg) : BitVec 4 := BitVec.ofFin r

/-- The field of a point register. -/
def pField (r : PReg) : BitVec 4 := BitVec.ofNat 4 r.val

/-- The field of a constant (R45). -/
def kField : RomIndex → BitVec 4
  | .zero => 0#4
  | .one => 1#4
  | .p => 2#4
  | .n => 3#4
  | .gx => 4#4
  | .gy => 5#4
  | .coeffB => 6#4

/-- The M bit of a modulus (R113). -/
def modulusBit : Modulus → BitVec 1
  | .p => 0#1
  | .n => 1#1

/-- The M bit of a hash source (R113). -/
def sourceBit : HashSource → BitVec 1
  | .msg => 0#1
  | .txt => 1#1

/-- The fields of a command (R116). -/
def fieldsOfInstr : Instr → Fields
  | .nop => ⟨0x00#8, 0#4, 0#4, 0#4, 0#1, 0#11⟩
  | .madd a b c m => ⟨0x10#8, xField a, xField b, xField c, modulusBit m, 0#11⟩
  | .msub a b c m => ⟨0x11#8, xField a, xField b, xField c, modulusBit m, 0#11⟩
  | .mmul a b c m => ⟨0x12#8, xField a, xField b, xField c, modulusBit m, 0#11⟩
  | .mred a b m => ⟨0x13#8, xField a, xField b, 0#4, modulusBit m, 0#11⟩
  | .minv a b m => ⟨0x14#8, xField a, xField b, 0#4, modulusBit m, 0#11⟩
  | .mov a b => ⟨0x20#8, xField a, xField b, 0#4, 0#1, 0#11⟩
  | .ldc a b => ⟨0x21#8, xField a, kField b, 0#4, 0#1, 0#11⟩
  | .pmov a b => ⟨0x22#8, pField a, pField b, 0#4, 0#1, 0#11⟩
  | .pset a b c => ⟨0x23#8, pField a, xField b, xField c, 0#1, 0#11⟩
  | .pinf a => ⟨0x24#8, pField a, 0#4, 0#4, 0#1, 0#11⟩
  | .pgen a => ⟨0x25#8, pField a, 0#4, 0#4, 0#1, 0#11⟩
  | .pgetx a b => ⟨0x26#8, xField a, pField b, 0#4, 0#1, 0#11⟩
  | .pgety a b => ⟨0x27#8, xField a, pField b, 0#4, 0#1, 0#11⟩
  | .padd a b c => ⟨0x30#8, pField a, pField b, pField c, 0#1, 0#11⟩
  | .pdbl a b => ⟨0x31#8, pField a, pField b, 0#4, 0#1, 0#11⟩
  | .pchk b => ⟨0x32#8, 0#4, pField b, 0#4, 0#1, 0#11⟩
  | .pmul a b c => ⟨0x38#8, pField a, xField b, pField c, 0#1, 0#11⟩
  | .hash a m => ⟨0x40#8, xField a, 0#4, 0#4, sourceBit m, 0#11⟩
  | .rand a => ⟨0x50#8, xField a, 0#4, 0#4, 0#1, 0#11⟩
  | .encd b => ⟨0x60#8, 0#4, xField b, 0#4, 0#1, 0#11⟩
  | .encq b => ⟨0x61#8, 0#4, pField b, 0#4, 0#1, 0#11⟩
  | .enckp b c => ⟨0x62#8, 0#4, xField b, pField c, 0#1, 0#11⟩
  | .encsig b c => ⟨0x63#8, 0#4, xField b, xField c, 0#1, 0#11⟩
  | .decd a => ⟨0x68#8, xField a, 0#4, 0#4, 0#1, 0#11⟩
  | .decq a => ⟨0x69#8, pField a, 0#4, 0#4, 0#1, 0#11⟩
  | .deckp a b => ⟨0x6A#8, xField a, pField b, 0#4, 0#1, 0#11⟩
  | .decsig a b => ⟨0x6B#8, xField a, xField b, 0#4, 0#1, 0#11⟩
  | .keygen a b => ⟨0x70#8, xField a, pField b, 0#4, 0#1, 0#11⟩
  | .sign a b c => ⟨0x71#8, xField a, xField b, xField c, 0#1, 0#11⟩
  | .verify a b c => ⟨0x72#8, xField a, xField b, pField c, 0#1, 0#11⟩

/-- The command word of an instruction (R111, R116). -/
def encode (i : Instr) : Word32 := wordOfFields (fieldsOfInstr i)

/-! ### Assembler syntax (R120) and pseudo-commands (R121) -/

/-- The spelling of a scalar register. -/
def xName (r : XReg) : String := "X" ++ toString r.val

/-- The spelling of a point register. -/
def pName (r : PReg) : String := "P" ++ toString r.val

/-- The spelling of a constant index. -/
def kName : RomIndex → String
  | .zero => "#ZERO"
  | .one => "#ONE"
  | .p => "#P"
  | .n => "#N"
  | .gx => "#GX"
  | .gy => "#GY"
  | .coeffB => "#B"

/-- The suffix of a field command. -/
def modulusSuffix : Modulus → String
  | .p => ".P"
  | .n => ".N"

/-- The suffix of HASH. -/
def sourceSuffix : HashSource → String
  | .msg => ".MSG"
  | .txt => ".TXT"

/-- A mnemonic and its operands, comma-separated. -/
def asmLine (mnemonic : String) : List String → String
  | [] => mnemonic
  | o :: os => os.foldl (fun acc t => acc ++ ", " ++ t) (mnemonic ++ " " ++ o)

/-- The assembler text of a command (R120). -/
def assembly : Instr → String
  | .nop => asmLine ("NOP") []
  | .madd a b c m => asmLine ("MADD" ++ modulusSuffix m) [xName a, xName b, xName c]
  | .msub a b c m => asmLine ("MSUB" ++ modulusSuffix m) [xName a, xName b, xName c]
  | .mmul a b c m => asmLine ("MMUL" ++ modulusSuffix m) [xName a, xName b, xName c]
  | .mred a b m => asmLine ("MRED" ++ modulusSuffix m) [xName a, xName b]
  | .minv a b m => asmLine ("MINV" ++ modulusSuffix m) [xName a, xName b]
  | .mov a b => asmLine ("MOV") [xName a, xName b]
  | .ldc a b => asmLine ("LDC") [xName a, kName b]
  | .pmov a b => asmLine ("PMOV") [pName a, pName b]
  | .pset a b c => asmLine ("PSET") [pName a, xName b, xName c]
  | .pinf a => asmLine ("PINF") [pName a]
  | .pgen a => asmLine ("PGEN") [pName a]
  | .pgetx a b => asmLine ("PGETX") [xName a, pName b]
  | .pgety a b => asmLine ("PGETY") [xName a, pName b]
  | .padd a b c => asmLine ("PADD") [pName a, pName b, pName c]
  | .pdbl a b => asmLine ("PDBL") [pName a, pName b]
  | .pchk b => asmLine ("PCHK") [pName b]
  | .pmul a b c => asmLine ("PMUL") [pName a, xName b, pName c]
  | .hash a m => asmLine ("HASH" ++ sourceSuffix m) [xName a]
  | .rand a => asmLine ("RAND") [xName a]
  | .encd b => asmLine ("ENCD") [xName b]
  | .encq b => asmLine ("ENCQ") [pName b]
  | .enckp b c => asmLine ("ENCKP") [xName b, pName c]
  | .encsig b c => asmLine ("ENCSIG") [xName b, xName c]
  | .decd a => asmLine ("DECD") [xName a]
  | .decq a => asmLine ("DECQ") [pName a]
  | .deckp a b => asmLine ("DECKP") [xName a, pName b]
  | .decsig a b => asmLine ("DECSIG") [xName a, xName b]
  | .keygen a b => asmLine ("KEYGEN") [xName a, pName b]
  | .sign a b c => asmLine ("SIGN") [xName a, xName b, xName c]
  | .verify a b c => asmLine ("VERIFY") [xName a, xName b, pName c]

/-- The commands a pseudo-command stands for, in host order (R121). -/
def expand : Pseudo → List Instr
  | .msqr d s m => [.mmul d s s m]
  | .mdbl d s m => [.madd d s s m]
  | .clr d => [.ldc d .zero]
  | .pneg d s => [.pgetx 14 s, .pgety 15 s, .ldc 13 .zero, .msub 15 13 15 .p, .pset d 14 15]
  | .fprintd d s => [.encd s, .hash d .txt]
  | .fprintq d s => [.encq s, .hash d .txt]
  | .fprintkp d s q => [.enckp s q, .hash d .txt]

end Sys2Proof
end

