-- ==== Sys2Proof/Machine/Sha256.lean ====
section
/-! DEFINITION. The model parameter H (44_digest.md R254) and its conforming value SHA-256 (R256 to R260), and the reading
of a digest as a big-endian integer (R252). H = SHA-256 in `exec` is log 1. -/

namespace Sys2Proof.Machine

/-- A word, computed to a numeral first (as `force`, for 32-bit words). -/
def forceWord {α : Type} (w : Word32) (f : Word32 → α) : α := force w.toNat fun k => f (BitVec.ofNat 32 k)

/-- ROTR(x, n) (R256). -/
def rotr (x : Word32) (k : Nat) : Word32 := x.rotateRight k

/-- SHR(x, n) (R256). -/
def shr (x : Word32) (k : Nat) : Word32 := x >>> k

/-- The initial hash value H0..H7 (R258). -/
def shaInit : List Word32 :=
  [0x6a09e667#32, 0xbb67ae85#32, 0x3c6ef372#32, 0xa54ff53a#32, 0x510e527f#32, 0x9b05688c#32, 0x1f83d9ab#32, 0x5be0cd19#32]

/-- The round constants K[0..63] (R258). -/
def shaK : List Word32 :=
  [0x428a2f98#32, 0x71374491#32, 0xb5c0fbcf#32, 0xe9b5dba5#32, 0x3956c25b#32, 0x59f111f1#32, 0x923f82a4#32, 0xab1c5ed5#32] ++
  [0xd807aa98#32, 0x12835b01#32, 0x243185be#32, 0x550c7dc3#32, 0x72be5d74#32, 0x80deb1fe#32, 0x9bdc06a7#32, 0xc19bf174#32] ++
  [0xe49b69c1#32, 0xefbe4786#32, 0x0fc19dc6#32, 0x240ca1cc#32, 0x2de92c6f#32, 0x4a7484aa#32, 0x5cb0a9dc#32, 0x76f988da#32] ++
  [0x983e5152#32, 0xa831c66d#32, 0xb00327c8#32, 0xbf597fc7#32, 0xc6e00bf3#32, 0xd5a79147#32, 0x06ca6351#32, 0x14292967#32] ++
  [0x27b70a85#32, 0x2e1b2138#32, 0x4d2c6dfc#32, 0x53380d13#32, 0x650a7354#32, 0x766a0abb#32, 0x81c2c92e#32, 0x92722c85#32] ++
  [0xa2bfe8a1#32, 0xa81a664b#32, 0xc24b8b70#32, 0xc76c51a3#32, 0xd192e819#32, 0xd6990624#32, 0xf40e3585#32, 0x106aa070#32] ++
  [0x19a4c116#32, 0x1e376c08#32, 0x2748774c#32, 0x34b0bcb5#32, 0x391c0cb3#32, 0x4ed8aa4a#32, 0x5b9cca4f#32, 0x682e6ff3#32] ++
  [0x748f82ee#32, 0x78a5636f#32, 0x84c87814#32, 0x8cc70208#32, 0x90befffa#32, 0xa4506ceb#32, 0xbef9a3f7#32, 0xc67178f2#32]

/-- The number of zero bytes of the padding: the least k with L + 1 + k = 56 (mod 64) (R257). -/
def shaZeros (len : Nat) : Nat := (119 - len % 64) % 64

/-- The `count` low bytes of a number, most significant first. -/
def bytesBE (count v : Nat) : List Byte :=
  (List.range count).map fun j => BitVec.ofNat 8 (v >>> (8 * (count - 1 - j)))

/-- The padded message: 0x80, zeros, and the 64-bit big-endian bit length (R257). -/
def shaPad (msg : List Byte) : List Byte :=
  msg ++ 0x80#8 :: (List.replicate (shaZeros msg.length) 0#8 ++ bytesBE 8 (8 * msg.length))

/-- A list of bytes as big-endian words (R256). -/
def wordsBE : List Byte → List Word32
  | b0 :: b1 :: b2 :: b3 :: rest => (b0 ++ b1 ++ b2 ++ b3) :: wordsBE rest
  | _ => []

/-- W[t] from the words before it, for t from 16 on (R259). -/
def scheduleWord (w : List Word32) (t : Nat) : Word32 :=
  let w15 := w.getD (t - 15) 0#32
  let w2 := w.getD (t - 2) 0#32
  let s0 := rotr w15 7 ^^^ rotr w15 18 ^^^ shr w15 3
  let s1 := rotr w2 17 ^^^ rotr w2 19 ^^^ shr w2 10
  w.getD (t - 16) 0#32 + s0 + w.getD (t - 7) 0#32 + s1

/-- The next `count` words of the schedule, from W[t] on. -/
def extendSchedule : Nat → Nat → List Word32 → List Word32
  | 0, _, w => w
  | count + 1, t, w => forceWord (scheduleWord w t) fun wt => extendSchedule count (t + 1) (w ++ [wt])

/-- W[0..63] of a block's sixteen words (R259). -/
def schedule (block : List Word32) : List Word32 := extendSchedule 48 16 block

/-- The working variables a..h (R259). -/
structure Working where
  a : Word32
  b : Word32
  c : Word32
  d : Word32
  e : Word32
  f : Word32
  g : Word32
  h : Word32
deriving DecidableEq, Repr

/-- One round, with its constant and its schedule word (R259). -/
def shaRound (v : Working) (k w : Word32) : Working :=
  let bigS1 := rotr v.e 6 ^^^ rotr v.e 11 ^^^ rotr v.e 25
  let ch := (v.e &&& v.f) ^^^ (~~~v.e &&& v.g)
  let t1 := v.h + bigS1 + ch + k + w
  let bigS0 := rotr v.a 2 ^^^ rotr v.a 13 ^^^ rotr v.a 22
  let maj := (v.a &&& v.b) ^^^ (v.a &&& v.c) ^^^ (v.b &&& v.c)
  let t2 := bigS0 + maj
  forceWord (v.d + t1) fun e' => forceWord (t1 + t2) fun a' => ⟨a', v.a, v.b, v.c, e', v.e, v.f, v.g⟩

/-- The rounds, over the constants and the schedule together (R259). -/
def shaRounds : List Word32 → List Word32 → Working → Working
  | k :: ks, w :: ws, v => shaRounds ks ws (shaRound v k w)
  | _, _, v => v

/-- The hash value after one block (R259). -/
def compress (hash block : List Word32) : List Word32 :=
  match hash with
  | [h0, h1, h2, h3, h4, h5, h6, h7] =>
    let v := shaRounds shaK (schedule block) ⟨h0, h1, h2, h3, h4, h5, h6, h7⟩
    [h0 + v.a, h1 + v.b, h2 + v.c, h3 + v.d, h4 + v.e, h5 + v.f, h6 + v.g, h7 + v.h]
  | _ => hash

/-- The hash value after `count` blocks of sixteen words. -/
def compressBlocks : Nat → List Word32 → List Word32 → List Word32
  | 0, hash, _ => hash
  | count + 1, hash, words => compressBlocks count (compress hash (words.take 16)) (words.drop 16)

/-- The bytes of a word, most significant first (R260). -/
def bytesOfWord (w : Word32) : List Byte :=
  [w.extractLsb' 24 8, w.extractLsb' 16 8, w.extractLsb' 8 8, w.extractLsb' 0 8]

/-- SHA-256: the 32 bytes of the digest (R260). -/
def sha256 (msg : List Byte) : List Byte :=
  let words := wordsBE (shaPad msg)
  (compressBlocks (words.length / 16) shaInit words).flatMap bytesOfWord

/-- `int_be(bytes)`: the integer whose most significant byte is the first (R252). -/
def intBE (bytes : List Byte) : Nat := bytes.foldl (fun acc d => acc * 256 + d.toNat) 0

/-- What the model parameter H is: a function from byte strings to byte strings (R254). The model takes it as an argument
of every meaning that hashes; that its values have 32 bytes is `HashFunction.IsDigest`. -/
abbrev HashFunction := List Byte → List Byte

/-- H's conforming value, SHA-256 (00_scope.md R5, R254, log 1): what `exec` and `step` instantiate the parameter with. -/
def hashH : HashFunction := fun msg => sha256 msg

end Sys2Proof.Machine
end

