-- ==== Sys2Proof/Machine/Ops.lean ====
section
/-! DEFINITION. The named operations over the state: the buffers' bytes, the completion of a command and `raise Err`
(00_scope.md R15, 60_exceptions.md R383, R384), the acceptance of a command word (R37), the resets (R420, R422), and the
draws from the entropy oracle (45_rng.md R290 to R295, 47_protocol.md R352). The core has no trap and no return from one
(R393): completion is where an error goes. -/

namespace Sys2Proof.Machine

/-! ### Bytes of the buffers -/

/-- The canonical form: addresses strictly rising, no entry equal to what an unlisted address reads as. -/
abbrev Memory.wf (m : Memory) : Prop := m.Pairwise (fun c d => c.1 < d.1) ∧ ∀ c ∈ m, c.2 ≠ 0#8

/-- What a byte that nothing has written reads as: its value at reset (R43, R44, R420). -/
abbrev unlistedByte : Byte := 0#8

/-- The byte at a window offset. -/
def Memory.read : Memory → Nat → Byte
  | [], _ => unlistedByte
  | (k, v) :: rest, a => if k = a then v else Memory.read rest a

/-- One byte written. -/
def Memory.write : Memory → Nat → Byte → Memory
  | [], a, v => if v = unlistedByte then [] else [(a, v)]
  | (k, old) :: rest, a, v =>
    if k < a then (k, old) :: Memory.write rest a v
    else
      let tail := if k = a then rest else (k, old) :: rest
      if v = unlistedByte then tail else (a, v) :: tail

/-- The `len` bytes from an offset on. -/
def Memory.readBytes (m : Memory) (a len : Nat) : List Byte := (List.range len).map fun j => m.read (a + j)

/-- Bytes written one after the other, from an offset on. -/
def Memory.writeBytes (m : Memory) (a : Nat) : List Byte → Memory
  | [] => m
  | v :: vs => Memory.writeBytes (m.write a v) (a + 1) vs

/-- MSG[0 .. MSG_LEN - 1], or LENGTH when MSG_LEN exceeds MSG_MAX (R39, R43, R390). -/
def State.message (s : State) : Except Err (List Byte) :=
  if s.msgLen.toNat > s.msgMax.toNat then .error .length else .ok (s.mem.readBytes Config.msgBase s.msgLen.toNat)

/-- TXT[0 .. TXT_LEN - 1], or LENGTH when TXT_LEN exceeds TXT_MAX (R40, R44, R390). -/
def State.text (s : State) : Except Err (List Byte) :=
  if s.txtLen.toNat > Config.txtMax then .error .length else .ok (s.mem.readBytes Config.txtBase s.txtLen.toNat)

/-- An encoder's commit: the text, zeros up to the end of TXT, and its length (46_codec.md R312). -/
def State.commitText (s : State) (t : List Byte) : State :=
  { s with
    mem := s.mem.writeBytes Config.txtBase (t ++ List.replicate (Config.txtMax - t.length) 0#8)
    txtLen := BitVec.ofNat 32 t.length }

/-! ### Acceptance and completion -/

/-- A CMD write while IDLE: CMD takes the word, BUSY 1, DONE 0, ERRCODE 0 (R37, R380). -/
def State.accept (s : State) (w : Word32) : State :=
  { s with cmd := w, phase := .busy, done := false, errcode := okCode }

/-- Completion with the given code: ERRCODE, DONE 1, BUSY 0, back to IDLE (R384). -/
def State.completeWith (s : State) (code : BitVec 8) : State :=
  { s with errcode := code, done := true, phase := .idle }

/-- The end of a command: its writes committed and OK, or nothing committed and the raised code (R15, R383, R384). -/
def State.complete (s : State) : Except Err State → State
  | .ok s' => s'.completeWith okCode
  | .error e => s.completeWith e.code

/-- A command's meaning from its result: it always completes, by `complete`. -/
def finish (s : State) (r : Except Err State) : Host.Outcome State Fault Refusal := .next (s.complete r)

/-- An illegal word: nothing written but ERRCODE (R119). -/
def State.completeIllegal (s : State) : State := s.complete (.error .illegal)

/-! ### Draws -/

/-- How a command that draws stands after the answers at hand (R382): it has its result, it raised, or every answer was
rejected and it waits for the next one, BUSY (R433, log 2). -/
inductive Drawn (α : Type) where
  | got (a : α) (rest : List Draw)
  | raised (e : Err) (rest : List Draw)
  | waiting
deriving Repr

/-- Draws until an attempt succeeds: FAIL raises ENTROPY; a word that is 0 modulo n is rejected (R292); each nonzero
scalar is given to `attempt`, which may turn it away for another draw (R352). Answers are consumed in order. -/
def drawUntil {α : Type} (attempt : Nat → Except Err (Option α)) : List Draw → Drawn α
  | [] => .waiting
  | .fail :: rest => .raised .entropy rest
  | .word b :: rest =>
    if b.toNat % Config.n = 0 then drawUntil attempt rest
    else match attempt (b.toNat % Config.n) with
      | .error e => .raised e rest
      | .ok none => drawUntil attempt rest
      | .ok (some a) => .got a rest

/-- RandScalar: the first nonzero scalar (R292). -/
def randScalar (draws : List Draw) : Drawn Nat := drawUntil (fun v => .ok (some v)) draws

/-- The end of a command that draws: the consumed answers are gone in every case (R383); a waiting engine stays BUSY.
DESIGN CHOICE, log 2: R422 leaves open how many answers a command has consumed when a reset aborts it. Here these are the
answers that engine turns before the reset rejected, all that were at hand then; an answer that arrived after the last of
those turns is still in `draws` after the abort, also one the command would have accepted. -/
def finishDrawn {α : Type} (s : State) (d : Drawn α) (commit : State → α → State) : Host.Outcome State Fault Refusal :=
  match d with
  | .got a rest => .next (({ s with draws := rest }).complete (.ok (commit { s with draws := rest } a)))
  | .raised e rest => .next (({ s with draws := rest }).complete (.error e))
  | .waiting => .next { s with draws := [] }

/-! ### Turns of the agents but the engine's commands -/

/-- Reset, hardware or soft: every field of R420's table; the build, the oracle and the agents' turns are not the
core's to reset. A command in progress commits nothing (R422). DESIGN CHOICE, log 2: the answers not consumed stay.
DESIGN CHOICE, log 9: the spec does not say whether the recorded answer of the last host access outlives the reset input;
it does, being an output the host has already had. -/
def State.hardReset (s : State) : State :=
  { State.reset with msgMax := s.msgMax, pending := s.pending, draws := s.draws, response := s.response }

/-- The oracle makes one more answer available, after those at hand (R290). -/
def State.addDraw (s : State) (d : Draw) : State := { s with draws := s.draws ++ [d] }

/-- What the engine is about to execute: the word of BUSY(w), decoded (R382). -/
def State.fetch (s : State) : Except Illegal Instr := decode s.cmd

end Sys2Proof.Machine
end

