-- ==== Sys2Proof/Machine/Flags.lean ====
section
/-! DEFINITION. STATUS, CTRL and IRQ as the host sees them (10_state.md R35, R36; 60_exceptions.md R386), and the one
flag, STATUS.FLAG (R48). -/

namespace Sys2Proof.Machine

/-- STATUS.BUSY: 1 exactly when the phase is BUSY (R380). -/
def State.busy (s : State) : Bool := s.phase == .busy

/-- STATUS.ERR: derived, 1 exactly when ERRCODE is not 0 (R36). -/
def State.err (s : State) : Bool := s.errcode != 0#8

/-- STATUS read as a word: BUSERR, FLAG, ERR, DONE, BUSY from bit 4 down; the rest reads 0 (R36). -/
def State.statusWord (s : State) : Word32 :=
  0#27 ++ BitVec.ofBool s.busErr ++ BitVec.ofBool s.flag ++ BitVec.ofBool s.err ++ BitVec.ofBool s.done
    ++ BitVec.ofBool s.busy

/-- CTRL read as a word: IE in bit 0; SRST and the reserved bits read 0 (R35). -/
def State.ctrlWord (s : State) : Word32 := 0#31 ++ BitVec.ofBool s.ie

/-- The interrupt line: IRQ = CTRL.IE AND STATUS.DONE (R386). -/
def State.irq (s : State) : Bool := s.ie && s.done

/-- A STATUS write: a 1 in bit 1 clears DONE, a 1 in bit 4 clears BUSERR; nothing else changes (R36). -/
def State.writeStatus (s : State) (d : Word32) : State :=
  { s with done := s.done && !d.getLsbD 1, busErr := s.busErr && !d.getLsbD 4 }

/-- `FLAG <- b` (00_scope.md R14). -/
def State.writeFlag (s : State) (b : Bool) : State := { s with flag := b }

/-- A CTRL write: SRST = 1 resets the core, IE of the same word discarded; else IE takes bit 0 (R35, R422). -/
def State.writeCtrl (s : State) (d : Word32) : State :=
  if d.getLsbD 1 then s.hardReset else { s with ie := d.getLsbD 0 }

end Sys2Proof.Machine
end

