-- ==== Sys2Proof/Machine/Bus.lean ====
section
/-! DEFINITION. The host's accesses to the MMIO window: the register map (10_state.md R49, R50), byte order
(20_memory.md R81, R82), access rules and bus errors (R84 to R88). -/

namespace Sys2Proof.Machine

/-- What stands at an offset of the window (R49). -/
inductive Location where
  | id
  | version
  | ctrl
  | status
  | cmd
  | errcode
  | msgLen
  | txtLen
  | msgMax
  | txtMax
  /-- Word w of scalar register i. -/
  | xWord (i : XReg) (w : Fin 8)
  /-- Word w of the x-coordinate of point register i. -/
  | pxWord (i : PReg) (w : Fin 8)
  /-- Word w of the y-coordinate of point register i. -/
  | pyWord (i : PReg) (w : Fin 8)
  /-- The TAG word of point register i (R50). -/
  | tag (i : PReg)
  /-- A word of TXT, by its window offset. -/
  | txt (offset : Nat)
  /-- A word of MSG, by its window offset. -/
  | msg (offset : Nat)
  /-- A reserved offset (R86). -/
  | reserved
deriving DecidableEq, Repr

/-- The word of a point register at an offset inside its 0x60 bytes (R49, R50). -/
def locatePoint (i : PReg) (r : Nat) : Location :=
  if h : r < 0x20 then .pxWord i ⟨r / 4, by omega⟩
  else if h : r < 0x40 then .pyWord i ⟨(r - 0x20) / 4, by omega⟩
  else if r = 0x40 then .tag i
  else .reserved

/-- The registers below 0x28 (R49). -/
def locateControl : Nat → Location
  | 0x00 => .id
  | 0x04 => .version
  | 0x08 => .ctrl
  | 0x0C => .status
  | 0x10 => .cmd
  | 0x14 => .errcode
  | 0x18 => .msgLen
  | 0x1C => .txtLen
  | 0x20 => .msgMax
  | 0x24 => .txtMax
  | _ => .reserved

/-- The register map, for word-aligned offsets, in a build of the given MSG_MAX (R49). -/
def locate (msgMax off : Nat) : Location :=
  if off < 0x28 then locateControl off
  else if h : 0x0100 ≤ off ∧ off < 0x0300 then
    .xWord ⟨(off - 0x0100) / 0x20, by omega⟩ ⟨(off - 0x0100) % 0x20 / 4, by omega⟩
  else if h : 0x0400 ≤ off ∧ off < 0x0700 then
    locatePoint ⟨(off - 0x0400) / 0x60, by omega⟩ ((off - 0x0400) % 0x60)
  else if 0x0800 ≤ off ∧ off < 0x0900 then .txt off
  else if 0x1000 ≤ off ∧ off < 0x1000 + msgMax then .msg off
  else .reserved

/-- The data windows, locked while the engine is busy (R85). -/
def Location.isData : Location → Bool
  | .msgLen | .txtLen | .xWord .. | .pxWord .. | .pyWord .. | .tag _ | .txt _ | .msg _ => true
  | .id | .version | .ctrl | .status | .cmd | .errcode | .msgMax | .txtMax | .reserved => false

/-- The registers whose write is a bus error (R86). -/
def Location.isReadOnly : Location → Bool
  | .id | .version | .errcode | .msgMax | .txtMax => true
  | .ctrl | .status | .cmd | .msgLen | .txtLen | .xWord .. | .pxWord .. | .pyWord .. | .tag _ | .txt _ | .msg _
  | .reserved => false

/-- A read of this place is answered without an error (R85, R86). -/
def State.readable (s : State) (l : Location) : Bool := l != .reserved && !(l.isData && s.busy)

/-- A write of this place is answered without an error (R37, R85, R86). -/
def State.writable (s : State) (l : Location) : Bool :=
  l != .reserved && !l.isReadOnly && !((l.isData || l == .cmd) && s.busy)

/-- Word w of a 256-bit value, word 0 the least significant (R81). -/
def wordOfVal (v : Val) (w : Fin 8) : Word32 := v.extractLsb' (32 * w.val) 32

/-- A 256-bit value with its word w replaced (R81). -/
def setWordOfVal (v : Val) (w : Fin 8) (d : Word32) : Val :=
  (v &&& ~~~((0xFFFFFFFF#256) <<< (32 * w.val))) ||| (d.setWidth 256 <<< (32 * w.val))

/-- A byte offset that the build has in its buffers; a word of MSG may reach past MSG_MAX (log 6). -/
def State.inBuffers (s : State) (off : Nat) : Bool :=
  (Config.txtBase ≤ off && off < Config.txtBase + Config.txtMax)
    || (Config.msgBase ≤ off && off < Config.msgBase + s.msgMax.toNat)

/-- A byte of a buffer as the bus reads it. -/
def State.bufferByte (s : State) (off : Nat) : Byte := if s.inBuffers off then s.mem.read off else 0#8

/-- A byte of a buffer as the bus writes it. -/
def State.writeBufferByte (s : State) (off : Nat) (v : Byte) : State :=
  if s.inBuffers off then { s with mem := s.mem.write off v } else s

/-- Four bytes of a buffer, the first in bits [7:0] (R82). -/
def State.bufferWord (s : State) (off : Nat) : Word32 :=
  s.bufferByte (off + 3) ++ s.bufferByte (off + 2) ++ s.bufferByte (off + 1) ++ s.bufferByte off

/-- A word of a buffer written: all four bytes (R82, R84). -/
def State.writeBufferWord (s : State) (off : Nat) (d : Word32) : State :=
  (((s.writeBufferByte off (d.extractLsb' 0 8)).writeBufferByte (off + 1) (d.extractLsb' 8 8)).writeBufferByte (off + 2)
    (d.extractLsb' 16 8)).writeBufferByte (off + 3) (d.extractLsb' 24 8)

/-- The word a place holds, as a read returns it (R33 to R41, R50). -/
def State.wordAt (s : State) : Location → Word32
  | .id => Config.idValue
  | .version => Config.versionValue
  | .ctrl => s.ctrlWord
  | .status => s.statusWord
  | .cmd => s.cmd
  | .errcode => s.errcode.setWidth 32
  | .msgLen => s.msgLen
  | .txtLen => s.txtLen
  | .msgMax => s.msgMax
  | .txtMax => BitVec.ofNat 32 Config.txtMax
  | .xWord i w => wordOfVal (s.readX i) w
  | .pxWord i w => wordOfVal (s.readPReg i).x w
  | .pyWord i w => wordOfVal (s.readPReg i).y w
  | .tag i => (BitVec.ofBool (s.readPReg i).inf).setWidth 32
  | .txt off => s.bufferWord off
  | .msg off => s.bufferWord off
  | .reserved => 0#32

/-- What an accepted write does to a place (R35 to R41, R50, R88). -/
def State.storeAt (s : State) (d : Word32) : Location → State
  | .ctrl => s.writeCtrl d
  | .status => s.writeStatus d
  | .cmd => s.accept d
  | .msgLen => { s with msgLen := d }
  | .txtLen => { s with txtLen := d }
  | .xWord i w => s.writeX i (setWordOfVal (s.readX i) w d)
  | .pxWord i w => s.writePReg i { s.readPReg i with x := setWordOfVal (s.readPReg i).x w d }
  | .pyWord i w => s.writePReg i { s.readPReg i with y := setWordOfVal (s.readPReg i).y w d }
  | .tag i => s.writePReg i { s.readPReg i with inf := d.getLsbD 0 }
  | .txt off => s.writeBufferWord off d
  | .msg off => s.writeBufferWord off d
  | .id | .version | .errcode | .msgMax | .txtMax | .reserved => s

/-- Width and alignment: 32 bits, at a multiple of 4 (R84). -/
def Access.wellSized (a : Access) : Bool := a.bytes == 4 && a.offset % 4 == 0

/-- The place an access names. -/
def State.target (s : State) (a : Access) : Location := locate s.msgMax.toNat a.offset

/-- A bus error: BUSERR, and no other effect; a read returns 0 (R84, R87). -/
def State.busError (s : State) (k : AccessKind) : State :=
  { s with
    busErr := true
    response := some (match k with
      | .read => .read 0#32 true
      | .write _ => .write true) }

/-- A host access inside the window (R84 to R88). -/
def State.performAccess (s : State) (a : Access) : State :=
  match a.kind with
  | .read =>
    if a.wellSized && s.readable (s.target a) then { s with response := some (.read (s.wordAt (s.target a)) false) }
    else s.busError .read
  | .write d =>
    if a.wellSized && s.writable (s.target a) then { s.storeAt d (s.target a) with response := some (.write false) }
    else s.busError (.write d)

/-- A host access: an offset of the window, 0x0000 to 0x1FFF (R80). -/
def hostAccess (s : State) (a : Access) : Host.Outcome State Fault Refusal :=
  if a.offset < Config.windowSize then .next (s.performAccess a) else .fault .outsideWindow

end Sys2Proof.Machine
end

