-- ==== Sys2Proof/Machine/Text.lean ====
section
/-! DEFINITION. The text codec's algebra (46_codec.md R310 to R316): canonical decimal text, fields, tokens. -/

namespace Sys2Proof.Machine

/-- The field separator '|' (R310). -/
def separator : Byte := 0x7C#8

/-- The digit character of a value below 10 (R310). -/
def digitByte (d : Nat) : Byte := BitVec.ofNat 8 (0x30 + d)

/-- A byte is a decimal digit character (R310, R313). -/
def isDigit (b : Byte) : Bool := decide (0x30 ≤ b.toNat) && decide (b.toNat ≤ 0x39)

/-- The digits of v before `acc`, most significant first, for at most `fuel` digits. -/
def decDigits : Nat → Nat → List Byte → List Byte
  | 0, _, acc => acc
  | fuel + 1, v, acc =>
    if v / 10 = 0 then digitByte (v % 10) :: acc
    else force (v / 10) fun q => decDigits fuel q (digitByte (v % 10) :: acc)

/-- `dec(v)`: canonical decimal text, no leading zero; 78 digits hold every 256-bit value (R311). -/
def dec (v : Val) : List Byte := decDigits 78 v.toNat []

/-- The text of several values: their decimal texts, separated by '|' (R310). -/
def joinFields : List (List Byte) → List Byte
  | [] => []
  | [f] => f
  | f :: fs => f ++ separator :: joinFields fs

/-- A text split at every separator: k separators give k + 1 fields, any of them empty (R313). -/
def splitFields : List Byte → List (List Byte)
  | [] => [[]]
  | b :: rest =>
    if b = separator then [] :: splitFields rest
    else match splitFields rest with
      | [] => [[b]]
      | f :: fs => (b :: f) :: fs

/-- The decimal value of digit characters; leading zeros are allowed (R313). -/
def decimalValue (f : List Byte) : Nat := f.foldl (fun acc b => acc * 10 + (b.toNat - 0x30)) 0

/-- One token: BAD_TOKEN when empty or not all digits, OVERFLOW at 2^256 and above, in that order (R313, R314). -/
def parseToken (f : List Byte) : Except Err Val :=
  if f.isEmpty || !f.all isDigit then .error .badToken
  else if decimalValue f ≥ 2 ^ 256 then .error .overflow
  else .ok (toVal (decimalValue f))

/-- `parse(1)` of a text (R313). -/
def parse1 (t : List Byte) : Except Err Val :=
  match splitFields t with
  | [f] => parseToken f
  | _ => .error .fieldCount

/-- `parse(2)` of a text: the field count first, then the tokens from left to right (R313). -/
def parse2 (t : List Byte) : Except Err (Val × Val) :=
  match splitFields t with
  | [f, g] => do
    let u ← parseToken f
    let v ← parseToken g
    return (u, v)
  | _ => .error .fieldCount

/-- `parse(3)` of a text (R313). -/
def parse3 (t : List Byte) : Except Err (Val × Val × Val) :=
  match splitFields t with
  | [f, g, h] => do
    let u ← parseToken f
    let v ← parseToken g
    let w ← parseToken h
    return (u, v, w)
  | _ => .error .fieldCount

end Sys2Proof.Machine
end

