-- ==== Sys2Proof/Machine/Codec.lean ====
section
/-! DEFINITION. The text encoders and decoders (46_codec.md R320 to R327). -/

namespace Sys2Proof.Machine

/-- ENCD: TXT <- dec(X[B]) (R320). -/
def execEncd (b : XReg) (s : State) : Host.Outcome State Fault Refusal :=
  finish s (.ok (s.commitText (joinFields [dec (s.readX b)])))

/-- ENCQ: TXT <- "x|y" of P[B], or INFINITY when it is O (R321). -/
def execEncq (b : PReg) (s : State) : Host.Outcome State Fault Refusal :=
  finish s <|
    match s.readP b with
    | .inf => .error .infinity
    | .aff x y => .ok (s.commitText (joinFields [dec x, dec y]))

/-- ENCKP: TXT <- "d|x|y" of X[B] and P[C], or INFINITY when P[C] is O (R322). -/
def execEnckp (b : XReg) (c : PReg) (s : State) : Host.Outcome State Fault Refusal :=
  finish s <|
    match s.readP c with
    | .inf => .error .infinity
    | .aff x y => .ok (s.commitText (joinFields [dec (s.readX b), dec x, dec y]))

/-- ENCSIG: TXT <- "r|s" of X[B] and X[C] (R323). -/
def execEncsig (b c : XReg) (s : State) : Host.Outcome State Fault Refusal :=
  finish s (.ok (s.commitText (joinFields [dec (s.readX b), dec (s.readX c)])))

/-- DECD: X[A] <- parse(1) (R324). -/
def execDecd (a : XReg) (s : State) : Host.Outcome State Fault Refusal :=
  finish s ((s.text.bind parse1).map fun d => s.writeX a d)

/-- DECQ: P[A] <- AFF of parse(2) (R325). -/
def execDecq (a : PReg) (s : State) : Host.Outcome State Fault Refusal :=
  finish s ((s.text.bind parse2).map fun v => s.writeP a (.aff v.1 v.2))

/-- DECKP: X[A] and P[B] from parse(3) (R326). -/
def execDeckp (a : XReg) (b : PReg) (s : State) : Host.Outcome State Fault Refusal :=
  finish s ((s.text.bind parse3).map fun v => (s.writeX a v.1).writeP b (.aff v.2.1 v.2.2))

/-- DECSIG: X[A] and X[B] from parse(2); A = B is ILLEGAL (R327, R119). -/
def execDecsig (a b : XReg) (s : State) : Host.Outcome State Fault Refusal :=
  finish s <|
    if a = b then .error .illegal
    else (s.text.bind parse2).map fun v => (s.writeX a v.1).writeX b v.2

end Sys2Proof.Machine
end

