-- ==== Sys2Proof/Machine/Digest.lean ====
section
/-! DEFINITION. The digest-to-scalar command (44_digest.md R250 to R254). -/

namespace Sys2Proof.Machine

/-- The bytes HASH reads, or LENGTH (R250). -/
def State.hashInput (s : State) : HashSource → Except Err (List Byte)
  | .msg => s.message
  | .txt => s.text

/-- HASH under a given H: X[A] <- int_be(H(buffer)), unreduced (R250, R252 to R254). -/
def execHashWith (h : HashFunction) (a : XReg) (m : HashSource) (s : State) : Host.Outcome State Fault Refusal :=
  finish s ((s.hashInput m).map fun bytes => s.writeX a (toVal (intBE (h bytes))))

/-- HASH of the conforming core, with H = SHA-256 (R254, log 1). -/
def execHash (a : XReg) (m : HashSource) (s : State) : Host.Outcome State Fault Refusal := execHashWith hashH a m s

end Sys2Proof.Machine
end

