-- ==== Sys2Proof/Machine/Field.lean ====
section
/-! DEFINITION. The modular field commands (40_field.md R140 to R145). REDUCTION_ALG and INV_ALG have no visible effect
(R147, R150): every result is the canonical residue. -/

namespace Sys2Proof.Machine

/-- MADD: X[A] <- (X[B] + X[C]) mod m (R141). -/
def execMadd (a b c : XReg) (m : Modulus) (s : State) : Host.Outcome State Fault Refusal :=
  finish s (.ok (s.writeX a (toVal (residue ((s.readX b).toNat + (s.readX c).toNat) (modulusValue m)))))

/-- MSUB: X[A] <- (X[B] - X[C]) mod m, over the integers (R142). -/
def execMsub (a b c : XReg) (m : Modulus) (s : State) : Host.Outcome State Fault Refusal :=
  finish s (.ok (s.writeX a (toVal (residue ((s.readX b).toNat - (s.readX c).toNat) (modulusValue m)))))

/-- MMUL: X[A] <- (X[B] · X[C]) mod m, the product exact (R143). -/
def execMmul (a b c : XReg) (m : Modulus) (s : State) : Host.Outcome State Fault Refusal :=
  finish s (.ok (s.writeX a (toVal (residue ((s.readX b).toNat * (s.readX c).toNat) (modulusValue m)))))

/-- MRED: X[A] <- X[B] mod m (R144). -/
def execMred (a b : XReg) (m : Modulus) (s : State) : Host.Outcome State Fault Refusal :=
  finish s (.ok (s.writeX a (toVal (residue (s.readX b).toNat (modulusValue m)))))

/-- MINV: X[A] <- inv_m(X[B] mod m), or NO_INVERSE when that is 0 (R145). -/
def execMinv (a b : XReg) (m : Modulus) (s : State) : Host.Outcome State Fault Refusal :=
  finish s <|
    if (s.readX b).toNat % modulusValue m = 0 then .error .noInverse
    else .ok (s.writeX a (toVal (invMod (modulusValue m) (s.readX b).toNat)))

end Sys2Proof.Machine
end

