-- ==== Sys2Proof/Machine/PointCmd.lean ====
section
/-! DEFINITION. The point commands (42_point.md R200 to R206) and the scalar multiplication (43_scalar_mult.md R230). -/

namespace Sys2Proof.Machine

/-- PADD: P[A] <- add(P[B], P[C]), or the error of `add` (R200). -/
def execPadd (a b c : PReg) (s : State) : Host.Outcome State Fault Refusal :=
  finish s ((pointAdd (s.readP b) (s.readP c)).map fun r => s.writeP a r)

/-- PDBL: P[A] <- add(P[B], P[B]), or the error of `add` (R205). -/
def execPdbl (a b : PReg) (s : State) : Host.Outcome State Fault Refusal :=
  finish s ((pointAdd (s.readP b) (s.readP b)).map fun r => s.writeP a r)

/-- PCHK: FLAG <- P[B] is a valid point (R206). -/
def execPchk (b : PReg) (s : State) : Host.Outcome State Fault Refusal :=
  finish s (.ok (s.writeFlag (s.readP b).valid))

/-- PMUL: P[A] <- k·Q; O for k = 0 whatever Q is, else BAD_POINT when Q is not valid (R230, R233). -/
def execPmul (a : PReg) (b : XReg) (c : PReg) (s : State) : Host.Outcome State Fault Refusal :=
  finish s <|
    if s.readX b = 0#256 then .ok (s.writeP a .inf)
    else if !(s.readP c).valid then .error .badPoint
    else (scalarMult (s.readX b).toNat (s.readP c)).map fun r => s.writeP a r

end Sys2Proof.Machine
end

