-- ==== Sys2Proof/Machine/Protocol.lean ====
section
/-! DEFINITION. Key generation, signing and verification (47_protocol.md R350 to R363). -/

namespace Sys2Proof.Machine

/-- A key pair's attempt: every nonzero scalar is a private key d, with Q = d·G (R350). -/
def keyAttempt (d : Nat) : Except Err (Option (Nat × Point)) :=
  (scalarMult d generator).map fun q => some (d, q)

/-- KEYGEN: X[A] <- d, P[B] <- d·G for a fresh d, or ENTROPY (R350). -/
def execKeygen (a : XReg) (b : PReg) (s : State) : Host.Outcome State Fault Refusal :=
  finishDrawn s (drawUntil keyAttempt s.draws) fun s' dq => (s'.writeX a (toVal dq.1)).writeP b dq.2

/-- One attempt of SIGN with nonce k, for digest e and private key d: (r, s), or none when one of them is 0, so that k is
discarded and drawn anew (R351, R352). R = k·G is never O (R351); were it O, there would be no r. -/
def signAttempt (e d k : Nat) : Except Err (Option (Nat × Nat)) :=
  match scalarMult k generator with
  | .error err => .error err
  | .ok .inf => .error .infinity
  | .ok (.aff x _) =>
    let r := x.toNat % Config.n
    let sg := invMod Config.n k * (e + r * d) % Config.n
    if r ≠ 0 ∧ sg ≠ 0 then .ok (some (r, sg)) else .ok none

/-- What SIGN checks before any draw, and the digest it then signs, under a given H: LENGTH, SCALAR_RANGE, e (R254, R351,
R391). -/
def State.signInput (h : HashFunction) (s : State) (d : Nat) : Except Err Nat :=
  match s.message with
  | .error err => .error err
  | .ok bytes => if d = 0 ∨ d ≥ Config.n then .error .scalarRange else .ok (intBE (h bytes))

/-- SIGN under a given H: X[A] <- r, X[B] <- s, with private key X[C]; A = B is ILLEGAL (R254, R351, R352, R119). -/
def execSignWith (h : HashFunction) (a b c : XReg) (s : State) : Host.Outcome State Fault Refusal :=
  if a = b then finish s (.error .illegal)
  else match s.signInput h (s.readX c).toNat with
    | .error err => finish s (.error err)
    | .ok e =>
      finishDrawn s (drawUntil (signAttempt e (s.readX c).toNat) s.draws) fun s' rs =>
        (s'.writeX a (toVal rs.1)).writeX b (toVal rs.2)

/-- SIGN of the conforming core, with H = SHA-256 (R254, log 1). -/
def execSign (a b c : XReg) (s : State) : Host.Outcome State Fault Refusal := execSignWith hashH a b c s

/-- A signature component in [1, n - 1] (R360, R361). -/
def inScalarRange (v : Nat) : Bool := decide (1 ≤ v) && decide (v < Config.n)

/-- The last steps of VERIFY, for r and s in range and a valid affine Q (R360). -/
def verifyCore (e r sg : Nat) (q : Point) : Except Err Bool := do
  let w := invMod Config.n sg
  let t1 ← scalarMult (e * w % Config.n) generator
  let t2 ← scalarMult (r * w % Config.n) q
  match ← pointAdd t1 t2 with
  | .inf => return false
  | .aff x _ => return x.toNat % Config.n == r

/-- The verdict of VERIFY under a given H: LENGTH, then the range check, which rejects without an error, then BAD_POINT, then the
steps (R254, R360 to R362, R391). -/
def State.verdict (h : HashFunction) (s : State) (r sg : Nat) (q : Point) : Except Err Bool :=
  match s.message with
  | .error err => .error err
  | .ok bytes =>
    if !(inScalarRange r && inScalarRange sg) then .ok false
    else if q = .inf ∨ !q.valid then .error .badPoint
    else verifyCore (intBE (h bytes)) r sg q

/-- VERIFY under a given H: FLAG <- the verdict on (X[A], X[B]) under P[C] (R254, R360). -/
def execVerifyWith (h : HashFunction) (a b : XReg) (c : PReg) (s : State) : Host.Outcome State Fault Refusal :=
  finish s ((s.verdict h (s.readX a).toNat (s.readX b).toNat (s.readP c)).map fun ok => s.writeFlag ok)

/-- VERIFY of the conforming core, with H = SHA-256 (R254, log 1). -/
def execVerify (a b : XReg) (c : PReg) (s : State) : Host.Outcome State Fault Refusal := execVerifyWith hashH a b c s

end Sys2Proof.Machine
end

