-- ==== Sys2Proof/Machine/Rng.lean ====
section
/-! DEFINITION. The secure random scalar command (45_rng.md R291 to R295). -/

namespace Sys2Proof.Machine

/-- RAND: X[A] <- RandScalar(), or ENTROPY (R291, R292). -/
def execRand (a : XReg) (s : State) : Host.Outcome State Fault Refusal :=
  finishDrawn s (randScalar s.draws) fun s' v => s'.writeX a (toVal v)

end Sys2Proof.Machine
end

