-- ==== Sys2Proof/Machine/Transfer.lean ====
section
/-! DEFINITION. Control, register transfer and constants (41_transfer.md R170 to R178). -/

namespace Sys2Proof.Machine

/-- NOP: completes, nothing written (R170). -/
def execNop (s : State) : Host.Outcome State Fault Refusal := finish s (.ok s)

/-- MOV: X[A] <- X[B] (R171). -/
def execMov (a b : XReg) (s : State) : Host.Outcome State Fault Refusal := finish s (.ok (s.writeX a (s.readX b)))

/-- LDC: X[A] <- ROM[K]; an index of 7 or more is no command (R172, R119). -/
def execLdc (a : XReg) (k : RomIndex) (s : State) : Host.Outcome State Fault Refusal :=
  finish s (.ok (s.writeX a (romValue k)))

/-- PMOV: P[A] <- P[B], the tag and both coordinates as stored (R173). -/
def execPmov (a b : PReg) (s : State) : Host.Outcome State Fault Refusal :=
  finish s (.ok (s.writePReg a (s.readPReg b)))

/-- PSET: P[A] <- AFF(X[B], X[C]), unchecked and unreduced (R174). -/
def execPset (a : PReg) (b c : XReg) (s : State) : Host.Outcome State Fault Refusal :=
  finish s (.ok (s.writeP a (.aff (s.readX b) (s.readX c))))

/-- PINF: P[A] <- INF (R175). -/
def execPinf (a : PReg) (s : State) : Host.Outcome State Fault Refusal := finish s (.ok (s.writeP a .inf))

/-- PGEN: P[A] <- G (R176). -/
def execPgen (a : PReg) (s : State) : Host.Outcome State Fault Refusal := finish s (.ok (s.writeP a generator))

/-- PGETX: X[A] <- P[B].x, or INFINITY when P[B] is O (R177). -/
def execPgetx (a : XReg) (b : PReg) (s : State) : Host.Outcome State Fault Refusal :=
  finish s <|
    match s.readP b with
    | .inf => .error .infinity
    | .aff x _ => .ok (s.writeX a x)

/-- PGETY: X[A] <- P[B].y, or INFINITY when P[B] is O (R178). -/
def execPgety (a : XReg) (b : PReg) (s : State) : Host.Outcome State Fault Refusal :=
  finish s <|
    match s.readP b with
    | .inf => .error .infinity
    | .aff _ y => .ok (s.writeX a y)

end Sys2Proof.Machine
end

