-- ==== Sys2Proof/Machine/Dispatch.lean ====
section
/-! DEFINITION. One arm per command of 30_encoding.md R116: the rule the engine runs for it (60_exceptions.md R382). -/

namespace Sys2Proof.Machine

def exec (i : Instr) (s : State) : Host.Outcome State Fault Refusal :=
  match i with
  | .nop => Sys2Proof.Machine.execNop s
  | .madd a b c m => Sys2Proof.Machine.execMadd a b c m s
  | .msub a b c m => Sys2Proof.Machine.execMsub a b c m s
  | .mmul a b c m => Sys2Proof.Machine.execMmul a b c m s
  | .mred a b m => Sys2Proof.Machine.execMred a b m s
  | .minv a b m => Sys2Proof.Machine.execMinv a b m s
  | .mov a b => Sys2Proof.Machine.execMov a b s
  | .ldc a k => Sys2Proof.Machine.execLdc a k s
  | .pmov a b => Sys2Proof.Machine.execPmov a b s
  | .pset a b c => Sys2Proof.Machine.execPset a b c s
  | .pinf a => Sys2Proof.Machine.execPinf a s
  | .pgen a => Sys2Proof.Machine.execPgen a s
  | .pgetx a b => Sys2Proof.Machine.execPgetx a b s
  | .pgety a b => Sys2Proof.Machine.execPgety a b s
  | .padd a b c => Sys2Proof.Machine.execPadd a b c s
  | .pdbl a b => Sys2Proof.Machine.execPdbl a b s
  | .pchk b => Sys2Proof.Machine.execPchk b s
  | .pmul a b c => Sys2Proof.Machine.execPmul a b c s
  | .hash a m => Sys2Proof.Machine.execHash a m s
  | .rand a => Sys2Proof.Machine.execRand a s
  | .encd b => Sys2Proof.Machine.execEncd b s
  | .encq b => Sys2Proof.Machine.execEncq b s
  | .enckp b c => Sys2Proof.Machine.execEnckp b c s
  | .encsig b c => Sys2Proof.Machine.execEncsig b c s
  | .decd a => Sys2Proof.Machine.execDecd a s
  | .decq a => Sys2Proof.Machine.execDecq a s
  | .deckp a b => Sys2Proof.Machine.execDeckp a b s
  | .decsig a b => Sys2Proof.Machine.execDecsig a b s
  | .keygen a b => Sys2Proof.Machine.execKeygen a b s
  | .sign a b c => Sys2Proof.Machine.execSign a b c s
  | .verify a b c => Sys2Proof.Machine.execVerify a b c s

end Sys2Proof.Machine
end

