-- ==== Sys2Proof/Machine/Step.lean ====
section
/-! DEFINITION. One step of the machine: the next agent's turn (00_scope.md R18). The core fetches nothing (10_state.md
R46): what the engine runs is the word the host wrote to CMD, or that `withFetchWord` places there. -/

namespace Sys2Proof.Machine

/-- The engine's turn while BUSY(w): one atomic transition (R382), by the given executor of commands; an illegal word
completes with ILLEGAL (R119). -/
def engineTurnBy (run : Instr → State → Host.Outcome State Fault Refusal) (s : State) :
    Host.Outcome State Fault Refusal :=
  match s.fetch with
  | .ok i => run i s
  | .error _ => .next s.completeIllegal

/-- The engine's turn in its phase: idle, it holds its state (R400). -/
def engineStepBy (run : Instr → State → Host.Outcome State Fault Refusal) (s : State) :
    Host.Outcome State Fault Refusal :=
  match s.phase with
  | .idle => .next s
  | .busy => engineTurnBy run s

/-- One turn: the first of `pending`, or the engine's when none is laid down (log 3). -/
def stepBy (run : Instr → State → Host.Outcome State Fault Refusal) (s : State) : Host.Outcome State Fault Refusal :=
  match s.pending with
  | [] => engineStepBy run s
  | .engine :: rest => engineStepBy run { s with pending := rest }
  | .access a :: rest => hostAccess { s with pending := rest } a
  | .hardReset :: rest => .next { s with pending := rest }.hardReset
  | .oracle d :: rest => .next ({ s with pending := rest }.addDraw d)

/-- One step of the conforming core, whose commands are those of `exec` (H = SHA-256, log 1). -/
def step (s : State) : Host.Outcome State Fault Refusal := stepBy exec s

/-- s with the command word w accepted and the engine's turn next, as after the host's CMD write (R37): the very next
step runs it. Every command word has 32 bits (R110). Log 3. -/
def State.withFetchWord (s : State) (nbits w : Nat) : State :=
  { s.accept (BitVec.ofNat 32 (w % 2 ^ nbits)) with
    pending := match s.pending with
      | [] => []
      | turn :: rest => .engine :: turn :: rest }

end Sys2Proof.Machine
end

