-- ==== Sys2Proof/Safety.lean ====
section
/-! DEFINITION. What claims about the core are stated in: the values ERRCODE takes, the invariant every step keeps, what a
command's destinations are and what it leaves unchanged, and when a turn stays inside the window. -/

namespace Sys2Proof.Machine

/-- Every value of ERRCODE (60_exceptions.md R390); all others are never written. -/
def errorCodes : List (BitVec 8) :=
  [0x00#8, 0x01#8, 0x02#8, 0x10#8, 0x11#8, 0x12#8, 0x20#8, 0x21#8, 0x22#8, 0x23#8, 0x30#8]

/-- A window offset of a byte of TXT, or of a byte of MSG that the build has (10_state.md R43, R44, R49). -/
def State.bufferOffset (s : State) (a : Nat) : Prop :=
  (0x0800 ≤ a ∧ a < 0x0900) ∨ (0x1000 ≤ a ∧ a < 0x1000 + s.msgMax.toNat)

/-- What every step keeps, whatever the host, the platform and the oracle do. -/
structure State.Inv (s : State) : Prop where
  /-- The buffers' bytes are in canonical form. -/
  canonical : s.mem.wf
  /-- Only bytes of TXT and MSG are listed. -/
  inBuffers : ∀ c ∈ s.mem, s.bufferOffset c.1
  /-- The build is a conforming one (R10). -/
  build : 1 ≤ s.msgMax.toNat ∧ s.msgMax.toNat ≤ 4096
  /-- While BUSY, DONE and ERRCODE are 0 (R37, R38). -/
  busyClear : s.phase = .busy → s.done = false ∧ s.errcode = 0#8
  /-- ERRCODE is one of R390's values. -/
  code : s.errcode ∈ errorCodes

/-- A digest has 32 bytes: what makes a function a value of the parameter H (44_digest.md R254). -/
def HashFunction.IsDigest (h : HashFunction) : Prop := ∀ bytes, (h bytes).length = 32

/-! ### What a command writes -/

/-- The scalar registers a command names as destinations (30_encoding.md R116). -/
def xDests : Instr → List XReg
  | .madd a .. | .msub a .. | .mmul a .. | .mred a .. | .minv a .. | .mov a _ | .ldc a _ | .pgetx a _ | .pgety a _
  | .hash a _ | .rand a | .decd a | .deckp a _ | .keygen a _ => [a]
  | .decsig a b | .sign a b _ => [a, b]
  | .nop | .pmov .. | .pset .. | .pinf _ | .pgen _ | .padd .. | .pdbl .. | .pchk _ | .pmul .. | .encd _ | .encq _
  | .enckp .. | .encsig .. | .decq _ | .verify .. => []

/-- The point registers a command names as destinations (R116). -/
def pDests : Instr → List PReg
  | .pmov a _ | .pset a _ _ | .pinf a | .pgen a | .padd a _ _ | .pdbl a _ | .pmul a _ _ | .decq a => [a]
  | .deckp _ b | .keygen _ b => [b]
  | .nop | .madd .. | .msub .. | .mmul .. | .mred .. | .minv .. | .mov .. | .ldc .. | .pgetx .. | .pgety .. | .pchk _
  | .hash .. | .rand _ | .encd _ | .encq _ | .enckp .. | .encsig .. | .decd _ | .decsig .. | .sign .. | .verify .. => []

/-- The encoders, which write TXT and TXT_LEN (46_codec.md R312). -/
def writesText : Instr → Bool
  | .encd _ | .encq _ | .enckp .. | .encsig .. => true
  | .nop | .madd .. | .msub .. | .mmul .. | .mred .. | .minv .. | .mov .. | .ldc .. | .pmov .. | .pset .. | .pinf _
  | .pgen _ | .pgetx .. | .pgety .. | .padd .. | .pdbl .. | .pchk _ | .pmul .. | .hash .. | .rand _ | .decd _ | .decq _
  | .deckp .. | .decsig .. | .keygen .. | .sign .. | .verify .. => false

/-- PCHK and VERIFY, which write STATUS.FLAG (10_state.md R48). -/
def writesFlag : Instr → Bool
  | .pchk _ | .verify .. => true
  | .nop | .madd .. | .msub .. | .mmul .. | .mred .. | .minv .. | .mov .. | .ldc .. | .pmov .. | .pset .. | .pinf _
  | .pgen _ | .pgetx .. | .pgety .. | .padd .. | .pdbl .. | .pmul .. | .hash .. | .rand _ | .encd _ | .encq _ | .enckp ..
  | .encsig .. | .decd _ | .decq _ | .deckp .. | .decsig .. | .keygen .. | .sign .. => false

/-- RAND, KEYGEN and SIGN, which draw (60_exceptions.md R382). -/
def consumesDraws : Instr → Bool
  | .rand _ | .keygen .. | .sign .. => true
  | .nop | .madd .. | .msub .. | .mmul .. | .mred .. | .minv .. | .mov .. | .ldc .. | .pmov .. | .pset .. | .pinf _
  | .pgen _ | .pgetx .. | .pgety .. | .padd .. | .pdbl .. | .pchk _ | .pmul .. | .hash .. | .encd _ | .encq _ | .enckp ..
  | .encsig .. | .decd _ | .decq _ | .deckp .. | .decsig .. | .verify .. => false

/-- What a command leaves as it was: every register, byte, length, flag and draw it does not name as a destination, and
everything that only the host, the platform or the bus writes. ERRCODE, DONE and the phase are the completion's. -/
structure CommandFrame (i : Instr) (s t : State) : Prop where
  x        : ∀ r, r ∉ xDests i → t.readX r = s.readX r
  p        : ∀ r, r ∉ pDests i → t.readPReg r = s.readPReg r
  mem      : ∀ a, (writesText i = true → ¬(0x0800 ≤ a ∧ a < 0x0900)) → t.mem.read a = s.mem.read a
  txtLen   : writesText i = false → t.txtLen = s.txtLen
  flag     : writesFlag i = false → t.flag = s.flag
  draws    : consumesDraws i = false → t.draws = s.draws
  msgLen   : t.msgLen = s.msgLen
  ie       : t.ie = s.ie
  busErr   : t.busErr = s.busErr
  cmd      : t.cmd = s.cmd
  msgMax   : t.msgMax = s.msgMax
  pending  : t.pending = s.pending
  response : t.response = s.response

/-- The state after a command that wrote nothing but its completion (R383, R384). -/
def State.completedOnly (s : State) (code : BitVec 8) : State :=
  { s with errcode := code, done := true, phase := .idle }

/-! ### Bus answers -/

/-- The answer of a bus error: an error response, and 0 for a read (20_memory.md R84 to R87). -/
def errorAnswer : AccessKind → BusAnswer
  | .read => .read 0#32 true
  | .write _ => .write true

/-- The bus answered with an error. -/
def BusAnswer.isError : BusAnswer → Bool
  | .read _ e => e
  | .write e => e

/-- The state after a turn whose only effect is a bus error: BUSERR, and the error response (R87). -/
def State.busErrorOnly (s : State) (k : AccessKind) (rest : List Event) : State :=
  { s with busErr := true, pending := rest, response := some (errorAnswer k) }

/-- The state after a read that the bus answers with data. -/
def State.answered (s : State) (data : Word32) (rest : List Event) : State :=
  { s with pending := rest, response := some (.read data false) }

/-- An offset of a data window (R85): MSG_LEN, TXT_LEN, X0..X15, P0..P7, TXT, MSG, in the largest build. -/
def inDataWindow (off : Nat) : Prop :=
  (0x0018 ≤ off ∧ off < 0x0020) ∨ (0x0100 ≤ off ∧ off < 0x0300) ∨ (0x0400 ≤ off ∧ off < 0x0700) ∨
    (0x0800 ≤ off ∧ off < 0x0900) ∨ (0x1000 ≤ off ∧ off < 0x2000)

/-- A reserved offset of a build with the given MSG_MAX (10_state.md R49, R50, 20_memory.md R86). -/
def isReservedOffset (msgMax off : Nat) : Prop :=
  (0x0028 ≤ off ∧ off < 0x0100) ∨ (0x0300 ≤ off ∧ off < 0x0400) ∨ (0x0700 ≤ off ∧ off < 0x0800) ∨
    (0x0900 ≤ off ∧ off < 0x1000) ∨ (0x1000 + msgMax ≤ off ∧ off < 0x2000) ∨
    (0x0400 ≤ off ∧ off < 0x0700 ∧ 0x44 ≤ (off - 0x0400) % 0x60)

/-! ### Text -/

/-- The number of a string of decimal digits, the first the most significant (46_codec.md R311, R313). -/
def textValue : List Byte → Nat
  | [] => 0
  | b :: bs => (b.toNat - 0x30) * 10 ^ bs.length + textValue bs

/-- The integer whose most significant byte is the first (00_scope.md R14, 44_digest.md R252). -/
def bigEndianValue : List Byte → Nat
  | [] => 0
  | b :: bs => b.toNat * 256 ^ bs.length + bigEndianValue bs

/-- One or more decimal digits (R313, R314). -/
def IsToken (t : List Byte) : Prop := t ≠ [] ∧ ∀ b ∈ t, 0x30 ≤ b.toNat ∧ b.toNat ≤ 0x39

/-- The canonical decimal text of v: digits, no leading zero but in "0" (R311). -/
def IsDecimalText (v : Nat) (t : List Byte) : Prop :=
  IsToken t ∧ textValue t = v ∧ (t.head? = some 0x30#8 → t = [0x30#8])

/-- The memory after an encoder's commit of t: t, zeros up to the end of TXT, every other byte as it was (R312). -/
def TextWritten (before after : Memory) (t : List Byte) : Prop :=
  after.wf ∧ ∀ a, after.read a =
    if 0x0800 ≤ a ∧ a < 0x0900 then t.getD (a - 0x0800) 0#8 else before.read a

/-- The text in TXT (10_state.md R44). -/
def State.textIs (s : State) (t : List Byte) : Prop :=
  s.txtLen.toNat ≤ 256 ∧ s.mem.readBytes 0x0800 s.txtLen.toNat = t

/-- The message in MSG (R43). -/
def State.messageIs (s : State) (t : List Byte) : Prop :=
  s.msgLen.toNat ≤ s.msgMax.toNat ∧ s.mem.readBytes 0x1000 s.msgLen.toNat = t

/-! ### Draws, nonces, turns -/

/-- A word RandScalar turns away: 0 or n (45_rng.md R292). -/
def Draw.rejected : Draw → Prop
  | .word b => b.toNat % Config.n = 0
  | .fail => False

/-- What SIGN's attempt with nonce k computes (47_protocol.md R351): R = k·G, r = R.x mod n, and the s with
k·s = e + r·d modulo n. -/
structure Attempt (e d k r sg : Nat) : Prop where
  r_eq  : ∃ x y, kFoldSum generator k = .ok (.aff x y) ∧ r = x.toNat % Config.n
  s_lt  : sg < Config.n
  s_eq  : k * sg % Config.n = (e + r * d) % Config.n

/-- An answer that SIGN's loop turns away: a rejected word, or a nonce whose r or s is 0 (R352). -/
def Draw.rejectedBySign (e d : Nat) : Draw → Prop
  | .word b => b.toNat % Config.n = 0 ∨ ∃ r sg, Attempt e d (b.toNat % Config.n) r sg ∧ (r = 0 ∨ sg = 0)
  | .fail => False

/-- The host's accesses of this turn stay inside the window (20_memory.md R80). -/
def Event.insideWindow : Event → Prop
  | .access a => a.offset < Config.windowSize
  | .hardReset | .engine | .oracle _ => True

end Sys2Proof.Machine
end

