-- ==== Sys2Proof/Certificates/Slice0/Obligations.lean ====
section
/-! DEFINITION. The statements for the provers: what the spec's rules say the commands, the bus and the machine do. -/

open Sys2Proof Sys2Proof.Machine

/-! ### Encoding -/

/-- R111, R116: every field of every command survives its encoding. -/
def Obligations.DecodeOfEncode : Prop :=
  ∀ i : Instr, i.WellFormed → decode (encode i) = .ok i

/-- R111, R116: a word that decodes is the one word of its command, and the command is well-formed. -/
def Obligations.EncodeOfDecode : Prop :=
  ∀ (w : Word32) (i : Instr), decode w = .ok i → encode i = w ∧ i.WellFormed

/-- R111: the word is `OP | (A << 8) | (B << 12) | (C << 16) | (M << 20)`, with each command's own OP and operands. -/
def Obligations.EncodingFormula : Prop :=
  ∀ (a b c : XReg) (q r t : PReg) (m : Modulus) (h : HashSource) (k : RomIndex),
    (encode .nop).toNat = 0x00 ∧
    (encode (.madd a b c m)).toNat = 0x10 + a * 2 ^ 8 + b * 2 ^ 12 + c * 2 ^ 16 + (if m = .n then 2 ^ 20 else 0) ∧
    (encode (.msub a b c m)).toNat = 0x11 + a * 2 ^ 8 + b * 2 ^ 12 + c * 2 ^ 16 + (if m = .n then 2 ^ 20 else 0) ∧
    (encode (.mmul a b c m)).toNat = 0x12 + a * 2 ^ 8 + b * 2 ^ 12 + c * 2 ^ 16 + (if m = .n then 2 ^ 20 else 0) ∧
    (encode (.mred a b m)).toNat = 0x13 + a * 2 ^ 8 + b * 2 ^ 12 + (if m = .n then 2 ^ 20 else 0) ∧
    (encode (.minv a b m)).toNat = 0x14 + a * 2 ^ 8 + b * 2 ^ 12 + (if m = .n then 2 ^ 20 else 0) ∧
    (encode (.mov a b)).toNat = 0x20 + a * 2 ^ 8 + b * 2 ^ 12 ∧
    (encode (.ldc a k)).toNat =
      0x21 + a * 2 ^ 8 + [RomIndex.zero, .one, .p, .n, .gx, .gy, .coeffB].idxOf k * 2 ^ 12 ∧
    (encode (.pmov q r)).toNat = 0x22 + q * 2 ^ 8 + r * 2 ^ 12 ∧
    (encode (.pset q b c)).toNat = 0x23 + q * 2 ^ 8 + b * 2 ^ 12 + c * 2 ^ 16 ∧
    (encode (.pinf q)).toNat = 0x24 + q * 2 ^ 8 ∧
    (encode (.pgen q)).toNat = 0x25 + q * 2 ^ 8 ∧
    (encode (.pgetx a r)).toNat = 0x26 + a * 2 ^ 8 + r * 2 ^ 12 ∧
    (encode (.pgety a r)).toNat = 0x27 + a * 2 ^ 8 + r * 2 ^ 12 ∧
    (encode (.padd q r t)).toNat = 0x30 + q * 2 ^ 8 + r * 2 ^ 12 + t * 2 ^ 16 ∧
    (encode (.pdbl q r)).toNat = 0x31 + q * 2 ^ 8 + r * 2 ^ 12 ∧
    (encode (.pchk r)).toNat = 0x32 + r * 2 ^ 12 ∧
    (encode (.pmul q b t)).toNat = 0x38 + q * 2 ^ 8 + b * 2 ^ 12 + t * 2 ^ 16 ∧
    (encode (.hash a h)).toNat = 0x40 + a * 2 ^ 8 + (if h = .txt then 2 ^ 20 else 0) ∧
    (encode (.rand a)).toNat = 0x50 + a * 2 ^ 8 ∧
    (encode (.encd b)).toNat = 0x60 + b * 2 ^ 12 ∧
    (encode (.encq r)).toNat = 0x61 + r * 2 ^ 12 ∧
    (encode (.enckp b t)).toNat = 0x62 + b * 2 ^ 12 + t * 2 ^ 16 ∧
    (encode (.encsig b c)).toNat = 0x63 + b * 2 ^ 12 + c * 2 ^ 16 ∧
    (encode (.decd a)).toNat = 0x68 + a * 2 ^ 8 ∧
    (encode (.decq q)).toNat = 0x69 + q * 2 ^ 8 ∧
    (encode (.deckp a r)).toNat = 0x6A + a * 2 ^ 8 + r * 2 ^ 12 ∧
    (encode (.decsig a b)).toNat = 0x6B + a * 2 ^ 8 + b * 2 ^ 12 ∧
    (encode (.keygen a r)).toNat = 0x70 + a * 2 ^ 8 + r * 2 ^ 12 ∧
    (encode (.sign a b c)).toNat = 0x71 + a * 2 ^ 8 + b * 2 ^ 12 + c * 2 ^ 16 ∧
    (encode (.verify a b t)).toNat = 0x72 + a * 2 ^ 8 + b * 2 ^ 12 + t * 2 ^ 16

/-- R118, R119: the reserved values of OP; when a word is illegal; the rule's `legal(w)`; and what an illegal word does. -/
def Obligations.IllegalWords : Prop :=
  ∀ w : Word32,
    (opRow? (w.extractLsb' 0 8) = none ↔
      (0x01 ≤ (w.extractLsb' 0 8).toNat ∧ (w.extractLsb' 0 8).toNat ≤ 0x0F) ∨
      (0x15 ≤ (w.extractLsb' 0 8).toNat ∧ (w.extractLsb' 0 8).toNat ≤ 0x1F) ∨
      (0x28 ≤ (w.extractLsb' 0 8).toNat ∧ (w.extractLsb' 0 8).toNat ≤ 0x2F) ∨
      (0x33 ≤ (w.extractLsb' 0 8).toNat ∧ (w.extractLsb' 0 8).toNat ≤ 0x37) ∨
      (0x39 ≤ (w.extractLsb' 0 8).toNat ∧ (w.extractLsb' 0 8).toNat ≤ 0x3F) ∨
      (0x41 ≤ (w.extractLsb' 0 8).toNat ∧ (w.extractLsb' 0 8).toNat ≤ 0x4F) ∨
      (0x51 ≤ (w.extractLsb' 0 8).toNat ∧ (w.extractLsb' 0 8).toNat ≤ 0x5F) ∨
      (0x64 ≤ (w.extractLsb' 0 8).toNat ∧ (w.extractLsb' 0 8).toNat ≤ 0x67) ∨
      (0x6C ≤ (w.extractLsb' 0 8).toNat ∧ (w.extractLsb' 0 8).toNat ≤ 0x6F) ∨
      (0x73 ≤ (w.extractLsb' 0 8).toNat ∧ (w.extractLsb' 0 8).toNat ≤ 0xFF)) ∧
    ((∃ e, decode w = .error e) ↔
      opRow? (w.extractLsb' 0 8) = none ∨ w.extractLsb' 21 11 ≠ 0#11 ∨
      ∃ r, opRow? (w.extractLsb' 0 8) = some r ∧
        ((r.a = .unused ∧ w.extractLsb' 8 4 ≠ 0#4) ∨
         (r.b = .unused ∧ w.extractLsb' 12 4 ≠ 0#4) ∨
         (r.c = .unused ∧ w.extractLsb' 16 4 ≠ 0#4) ∨
         (r.usesM = false ∧ w.extractLsb' 20 1 ≠ 0#1) ∨
         (r.a = .p ∧ 8 ≤ (w.extractLsb' 8 4).toNat) ∨
         (r.b = .p ∧ 8 ≤ (w.extractLsb' 12 4).toNat) ∨
         (r.c = .p ∧ 8 ≤ (w.extractLsb' 16 4).toNat) ∨
         (r.mnemonic = "LDC" ∧ 7 ≤ (w.extractLsb' 12 4).toNat) ∨
         ((r.mnemonic = "SIGN" ∨ r.mnemonic = "DECSIG") ∧ w.extractLsb' 8 4 = w.extractLsb' 12 4))) ∧
    (legalByTable w = true ↔ ∃ i, decode w = .ok i) ∧
    (legalByTable w = false → ∀ s : State, s.phase = .busy → s.cmd = w →
      (s.pending = [] → step s = .next (s.completedOnly 0x01#8)) ∧
      (∀ rest, s.pending = .engine :: rest → step s = .next ({ s with pending := rest }.completedOnly 0x01#8)))

/-- R117: what match and mask say of a word, row by row, and that no two rows' patterns overlap. -/
def Obligations.RowsByMatchAndMask : Prop :=
  (∀ w : Word32, ∀ r ∈ opcodeTable,
    (w &&& r.mask = r.matchValue ↔
      w.extractLsb' 0 8 = r.op ∧ w.extractLsb' 21 11 = 0#11 ∧
      (r.a = .unused → w.extractLsb' 8 4 = 0#4) ∧ (r.b = .unused → w.extractLsb' 12 4 = 0#4) ∧
      (r.c = .unused → w.extractLsb' 16 4 = 0#4) ∧ (r.usesM = false → w.extractLsb' 20 1 = 0#1) ∧
      (r.a = .p → (w.extractLsb' 8 4).toNat < 8) ∧ (r.b = .p → (w.extractLsb' 12 4).toNat < 8) ∧
      (r.c = .p → (w.extractLsb' 16 4).toNat < 8))) ∧
  (∀ w : Word32, ∀ r ∈ opcodeTable, ∀ r' ∈ opcodeTable,
    w &&& r.mask = r.matchValue → w &&& r'.mask = r'.matchValue → r = r')

/-- R120, R141 to R364: command words the spec writes out, one or more of each family. -/
def Obligations.SpecWords : Prop :=
  decode 0x00000000#32 = .ok .nop ∧
  decode 0x00021312#32 = .ok (.mmul 3 1 2 .p) ∧
  decode 0x00003021#32 = .ok (.ldc 0 .n) ∧
  decode 0x00001020#32 = .ok (.mov 0 1) ∧
  decode 0x00010223#32 = .ok (.pset 2 0 1) ∧
  decode 0x00001426#32 = .ok (.pgetx 4 1) ∧
  decode 0x00021330#32 = .ok (.padd 3 1 2) ∧
  decode 0x00000032#32 = .ok (.pchk 0) ∧
  decode 0x00004138#32 = .ok (.pmul 1 4 0) ∧
  decode 0x00100540#32 = .ok (.hash 5 .txt) ∧
  decode 0x00000350#32 = .ok (.rand 3) ∧
  decode 0x00021063#32 = .ok (.encsig 1 2) ∧
  decode 0x0000216B#32 = .ok (.decsig 1 2) ∧
  decode 0x00000070#32 = .ok (.keygen 0 0) ∧
  decode 0x00021071#32 = .ok (.sign 0 1 2) ∧
  decode 0x00032172#32 = .ok (.verify 1 2 3)

/-! ### The step -/

/-- R382, R400: a turn of a busy engine is exactly `exec` of the decoded word of CMD; an idle engine holds its state; and
the step after `withFetchWord` is `exec` of the placed word (log 3). -/
def Obligations.StepRunsDecodedInstruction : Prop :=
  (∀ (s : State) (i : Instr), s.phase = .busy → decode s.cmd = .ok i →
    (s.pending = [] → step s = exec i s) ∧
    (∀ rest, s.pending = .engine :: rest → step s = exec i { s with pending := rest })) ∧
  (∀ s : State, s.phase = .idle →
    (s.pending = [] → step s = .next s) ∧
    (∀ rest, s.pending = .engine :: rest → step s = .next { s with pending := rest })) ∧
  (∀ (s : State) (w : Nat) (i : Instr), w < 2 ^ 32 → decode (BitVec.ofNat 32 w) = .ok i →
    step (s.withFetchWord 32 w) =
      exec i { s with cmd := BitVec.ofNat 32 w, phase := .busy, done := false, errcode := 0#8 })

/-- R37: the CMD register: a write while idle, the turn after it, a write while busy, a read. -/
def Obligations.CmdRegister : Prop :=
  ∀ (s : State) (d : Word32) (rest : List Event),
    (s.phase = .idle → s.pending = .access ⟨.write d, 0x0010, 4⟩ :: .engine :: rest →
      ∃ t, step s = .next t ∧
        t = { s with
          cmd := d, phase := .busy, done := false, errcode := 0#8
          pending := .engine :: rest, response := some (.write false) } ∧
        (∀ i, decode d = .ok i → step t = exec i { t with pending := rest }) ∧
        (∀ e, decode d = .error e → step t = .next ({ t with pending := rest }.completedOnly 0x01#8))) ∧
    (s.phase = .busy → s.pending = .access ⟨.write d, 0x0010, 4⟩ :: rest →
      step s = .next (s.busErrorOnly (.write d) rest)) ∧
    (s.pending = .access ⟨.read, 0x0010, 4⟩ :: rest → step s = .next (s.answered s.cmd rest)) ∧
    State.reset.cmd = 0#32

/-- R380: the two phases, what takes the engine from one to the other, and STATUS.BUSY. -/
def Obligations.EnginePhases : Prop :=
  State.reset.phase = .idle ∧
  (∀ (s : State) (d : Word32) (rest : List Event), s.phase = .idle →
    s.pending = .access ⟨.write d, 0x0010, 4⟩ :: rest →
    ∃ t, step s = .next t ∧ t.phase = .busy ∧ t.cmd = d ∧ t.done = false ∧ t.errcode = 0#8) ∧
  (∀ s t : State, s.phase = .idle → step s = .next t → t.phase = .busy →
    ∃ d rest, s.pending = .access ⟨.write d, 0x0010, 4⟩ :: rest) ∧
  (∀ s t : State, s.phase = .busy → step s = .next t → t.phase = .idle →
    (t.done = true ∧ (s.pending = [] ∨ ∃ rest, s.pending = .engine :: rest)) ∨
    (∃ rest, s.pending = .hardReset :: rest) ∨
    (∃ d rest, s.pending = .access ⟨.write d, 0x0008, 4⟩ :: rest ∧ d.getLsbD 1 = true)) ∧
  (∀ s : State, s.statusWord.getLsbD 0 = true ↔ s.phase = .busy)

/-! ### The whole machine -/

/-- Every step of every agent keeps the invariant, from every state that has it. -/
def Obligations.StepKeepsInvariant : Prop :=
  ∀ s t : State, s.Inv → step s = .next t → t.Inv

/-- R420: the invariant holds after reset. -/
def Obligations.ResetMeetsInvariant : Prop :=
  State.reset.Inv

/-- R385, R393: no command stops the core, in any state; the one stop of a step is an access outside the window
(log 7). -/
def Obligations.NoCommandStops : Prop :=
  (∀ (i : Instr) (s : State), ∃ t, exec i s = .next t) ∧
  (∀ s : State, (∀ e ∈ s.pending, e.insideWindow) → ∃ t, step s = .next t) ∧
  (∀ (s : State) (a : Access) (rest : List Event), s.pending = .access a :: rest → 0x2000 ≤ a.offset →
    step s = .fault .outsideWindow)

/-- R116, R15, R353, R363: what each command leaves as it was, for all 31 commands and every next state. -/
def Obligations.CommandsLeaveTheRest : Prop :=
  ∀ (i : Instr) (s t : State), exec i s = .next t → CommandFrame i s t

/-- R384, R433: a command completes, with DONE, IDLE and one of R390's codes; or it draws, every answer at hand was
turned away, and nothing but the consumed answers has changed (log 2). -/
def Obligations.CommandEndsOrWaits : Prop :=
  ∀ (i : Instr) (s t : State), exec i s = .next t →
    (t.done = true ∧ t.phase = .idle ∧ t.errcode ∈ errorCodes) ∨
    (consumesDraws i = true ∧ (∀ d ∈ s.draws, d ≠ .fail) ∧ t = { s with draws := [] })

/-- R383: after an error the state is the one at acceptance, but for ERRCODE, DONE, the phase, and the answers consumed. -/
def Obligations.ErrorsWriteNothing : Prop :=
  ∀ (i : Instr) (s t : State), s.errcode = 0#8 → exec i s = .next t → t.errcode ≠ 0#8 →
    t = { s with errcode := t.errcode, done := true, phase := .idle, draws := t.draws } ∧
    t.draws <:+ s.draws ∧ (consumesDraws i = false → t.draws = s.draws)

/-- R48: STATUS.FLAG changes only by PCHK and VERIFY completing without error, and by the resets, which clear it. -/
def Obligations.FlagHasTwoWriters : Prop :=
  (∀ s t : State, step s = .next t → t.flag ≠ s.flag →
    (∃ i, s.phase = .busy ∧ decode s.cmd = .ok i ∧ writesFlag i = true ∧ t.errcode = 0#8 ∧ t.done = true) ∨
    (t.flag = false ∧
      ((∃ rest, s.pending = .hardReset :: rest) ∨
        ∃ d rest, s.pending = .access ⟨.write d, 0x0008, 4⟩ :: rest ∧ d.getLsbD 1 = true))) ∧
  (∀ s t : State, (∃ rest, s.pending = .hardReset :: rest) ∨
      (∃ d rest, s.pending = .access ⟨.write d, 0x0008, 4⟩ :: rest ∧ d.getLsbD 1 = true) →
    step s = .next t → t.flag = false) ∧
  (∀ s : State, s.statusWord.getLsbD 3 = s.flag)

/-- R294, R382: answers are consumed in order; only RAND, KEYGEN and SIGN consume any; each of them that ends without
error has consumed a fresh one. -/
def Obligations.DrawsConsumedInOrder : Prop :=
  ∀ (i : Instr) (s t : State), exec i s = .next t →
    t.draws <:+ s.draws ∧
    (consumesDraws i = false → t.draws = s.draws) ∧
    (consumesDraws i = true → s.phase = .busy → t.phase = .idle → t.errcode = 0#8 → t.draws.length < s.draws.length)

/-- R41, R91, R382: a command's results do not depend on the coordinates kept under a set tag, on CTRL, STATUS, CMD or ERRCODE,
on the turns to come or on the last bus answer. Of the registers, buffers, lengths and answers that the command does not name
the statement says nothing: the two states agree on all of them. -/
def Obligations.CommandsSeeValuesOnly : Prop :=
  ∀ (i : Instr) (s s' t t' : State),
    s'.x = s.x → (∀ q, s'.readP q = s.readP q) → s'.mem = s.mem → s'.msgLen = s.msgLen → s'.txtLen = s.txtLen →
    s'.msgMax = s.msgMax → s'.draws = s.draws →
    exec i s = .next t → exec i s' = .next t' →
    t'.x = t.x ∧ (∀ q, t'.readP q = t.readP q) ∧ t'.mem = t.mem ∧ t'.txtLen = t.txtLen ∧ t'.draws = t.draws ∧
    (s.phase = .busy → s'.phase = .busy → t'.phase = t.phase) ∧
    (s'.errcode = s.errcode → t'.errcode = t.errcode) ∧
    (s'.flag = s.flag → t'.flag = t.flag)

/-! ### The bus -/

/-- R84: an access of another width than 32 bits, or at an address not a multiple of 4, has no effect but a bus error. -/
def Obligations.IllSizedAccess : Prop :=
  ∀ (s : State) (a : Access) (rest : List Event), s.pending = .access a :: rest → a.offset < 0x2000 →
    a.bytes ≠ 4 ∨ a.offset % 4 ≠ 0 → step s = .next (s.busErrorOnly a.kind rest)

/-- R85: the data windows are locked while busy, the control registers are not; while idle every place that is not
reserved answers a read, and CMD and every place of a data window a write. -/
def Obligations.DataWindowsLockedWhileBusy : Prop :=
  ∀ (s : State) (rest : List Event),
    (∀ a : Access, s.phase = .busy → s.pending = .access a :: rest → inDataWindow a.offset →
      step s = .next (s.busErrorOnly a.kind rest)) ∧
    (∀ d, s.phase = .busy → s.pending = .access ⟨.write d, 0x0010, 4⟩ :: rest →
      step s = .next (s.busErrorOnly (.write d) rest)) ∧
    (∀ off, off ∈ [0x0000, 0x0004, 0x0008, 0x000C, 0x0010, 0x0014, 0x0020, 0x0024] →
      s.pending = .access ⟨.read, off, 4⟩ :: rest → ∃ v, step s = .next (s.answered v rest)) ∧
    (∀ off d, off ∈ [0x0008, 0x000C] → s.pending = .access ⟨.write d, off, 4⟩ :: rest →
      ∃ t, step s = .next t ∧ t.response = some (.write false)) ∧
    (∀ off, s.phase = .idle → off < 0x2000 → off % 4 = 0 → ¬isReservedOffset s.msgMax.toNat off →
      s.pending = .access ⟨.read, off, 4⟩ :: rest → ∃ v, step s = .next (s.answered v rest)) ∧
    (∀ off d, s.phase = .idle → off = 0x0010 ∨ inDataWindow off → off % 4 = 0 → ¬isReservedOffset s.msgMax.toNat off →
      s.pending = .access ⟨.write d, off, 4⟩ :: rest → ∃ t, step s = .next t ∧ t.response = some (.write false))

/-- R86: reserved offsets and read-only registers answer bus errors; a STATUS write does not. -/
def Obligations.ReservedAndReadOnly : Prop :=
  ∀ (s : State) (rest : List Event),
    (∀ a : Access, s.pending = .access a :: rest → isReservedOffset s.msgMax.toNat a.offset →
      step s = .next (s.busErrorOnly a.kind rest)) ∧
    (∀ off d, off ∈ [0x0000, 0x0004, 0x0014, 0x0020, 0x0024] → s.pending = .access ⟨.write d, off, 4⟩ :: rest →
      step s = .next (s.busErrorOnly (.write d) rest)) ∧
    (∀ d, s.pending = .access ⟨.write d, 0x000C, 4⟩ :: rest →
      ∃ t, step s = .next t ∧ t.response = some (.write false))

/-- R87: whatever access is answered with an error, the error response and STATUS.BUSERR are its only effects. -/
def Obligations.BusErrorOnlySetsBusErr : Prop :=
  ∀ (s t : State) (a : Access) (rest : List Event) (ans : BusAnswer),
    s.pending = .access a :: rest → step s = .next t → t.response = some ans → ans.isError = true →
    t = s.busErrorOnly a.kind rest

/-- R88: no read has a side effect, and reading again gives the same answer; a write answered without an error, to
another place than CMD, STATUS and (with SRST) CTRL, changes IE, a length, a register or the bytes at its offset alone. -/
def Obligations.ReadsHaveNoSideEffect : Prop :=
  (∀ (s : State) (off bytes : Nat) (rest : List Event), s.pending = .access ⟨.read, off, bytes⟩ :: rest → off < 0x2000 →
    ∃ v e, step s = .next { s with
        busErr := s.busErr || e, pending := rest, response := some (.read v e) } ∧ (e = true → v = 0#32) ∧
      ∀ rest', rest = .access ⟨.read, off, bytes⟩ :: rest' →
        step { s with busErr := s.busErr || e, pending := rest, response := some (.read v e) } =
          .next { s with busErr := s.busErr || e, pending := rest', response := some (.read v e) }) ∧
  (∀ (s t : State) (a : Access) (d : Word32) (rest : List Event), a.kind = .write d → s.pending = .access a :: rest →
    step s = .next t → t.response = some (.write false) →
    a.offset ≠ 0x0010 → ¬(a.offset = 0x0008 ∧ d.getLsbD 1 = true) → a.offset ≠ 0x000C →
    t = { s with
      ie := t.ie, msgLen := t.msgLen, txtLen := t.txtLen, x := t.x, p := t.p, mem := t.mem, pending := rest
      response := some (.write false) } ∧
    (a.offset ≠ 0x0008 → t.ie = s.ie) ∧ (a.offset ≠ 0x0018 → t.msgLen = s.msgLen) ∧
    (a.offset ≠ 0x001C → t.txtLen = s.txtLen) ∧
    (∀ i : XReg, ¬(0x0100 + 0x20 * i.val ≤ a.offset ∧ a.offset < 0x0100 + 0x20 * i.val + 0x20) → t.readX i = s.readX i) ∧
    (∀ i : PReg, ¬(0x0400 + 0x60 * i.val ≤ a.offset ∧ a.offset < 0x0400 + 0x60 * i.val + 0x60) →
      t.readPReg i = s.readPReg i) ∧
    (∀ j, ¬(a.offset ≤ j ∧ j < a.offset + 4) → t.mem.read j = s.mem.read j))

/-- R33 to R38, R40: what the registers that stay open while busy read as, in every state. -/
def Obligations.ControlRegisterReads : Prop :=
  ∀ (s : State) (rest : List Event),
    (s.pending = .access ⟨.read, 0x0000, 4⟩ :: rest → step s = .next (s.answered 0x45434453#32 rest)) ∧
    (s.pending = .access ⟨.read, 0x0004, 4⟩ :: rest → step s = .next (s.answered 0x00010000#32 rest)) ∧
    (s.pending = .access ⟨.read, 0x0008, 4⟩ :: rest →
      ∃ v : Word32, step s = .next (s.answered v rest) ∧ v.toNat = s.ie.toNat) ∧
    (s.pending = .access ⟨.read, 0x000C, 4⟩ :: rest →
      ∃ v : Word32, step s = .next (s.answered v rest) ∧
        v.toNat = (s.phase == .busy).toNat + 2 * s.done.toNat + 4 * (s.errcode != 0#8).toNat + 8 * s.flag.toNat
          + 16 * s.busErr.toNat) ∧
    (s.pending = .access ⟨.read, 0x0014, 4⟩ :: rest →
      ∃ v : Word32, step s = .next (s.answered v rest) ∧ v.toNat = s.errcode.toNat) ∧
    (s.pending = .access ⟨.read, 0x0020, 4⟩ :: rest → step s = .next (s.answered s.msgMax rest)) ∧
    (s.pending = .access ⟨.read, 0x0024, 4⟩ :: rest → step s = .next (s.answered 256#32 rest))

/-- R81: word w of a register, at the lower address first, is bits 32w + 31 to 32w: as read, and as written, for X0..X15
and the x and y of P0..P7. -/
def Obligations.WideValueWords : Prop :=
  ∀ (s : State) (w : Fin 8) (d : Word32) (rest : List Event), s.phase = .idle →
    (∀ i : XReg,
      (s.pending = .access ⟨.read, 0x0100 + 0x20 * i.val + 4 * w.val, 4⟩ :: rest →
        ∃ v : Word32, step s = .next (s.answered v rest) ∧
          ∀ j, j < 32 → v.getLsbD j = (s.readX i).getLsbD (32 * w.val + j)) ∧
      (s.pending = .access ⟨.write d, 0x0100 + 0x20 * i.val + 4 * w.val, 4⟩ :: rest →
        ∃ v : Val, step s = .next { s.writeX i v with pending := rest, response := some (.write false) } ∧
          ∀ j, j < 256 → v.getLsbD j =
            if 32 * w.val ≤ j ∧ j < 32 * w.val + 32 then d.getLsbD (j - 32 * w.val) else (s.readX i).getLsbD j)) ∧
    (∀ i : PReg,
      (s.pending = .access ⟨.read, 0x0400 + 0x60 * i.val + 4 * w.val, 4⟩ :: rest →
        ∃ v : Word32, step s = .next (s.answered v rest) ∧
          ∀ j, j < 32 → v.getLsbD j = (s.readPReg i).x.getLsbD (32 * w.val + j)) ∧
      (s.pending = .access ⟨.write d, 0x0400 + 0x60 * i.val + 4 * w.val, 4⟩ :: rest →
        ∃ v : Val, step s = .next { s.writePReg i ⟨(s.readPReg i).inf, v, (s.readPReg i).y⟩ with
            pending := rest, response := some (.write false) } ∧
          ∀ j, j < 256 → v.getLsbD j =
            if 32 * w.val ≤ j ∧ j < 32 * w.val + 32 then d.getLsbD (j - 32 * w.val)
            else (s.readPReg i).x.getLsbD j) ∧
      (s.pending = .access ⟨.read, 0x0400 + 0x60 * i.val + 0x20 + 4 * w.val, 4⟩ :: rest →
        ∃ v : Word32, step s = .next (s.answered v rest) ∧
          ∀ j, j < 32 → v.getLsbD j = (s.readPReg i).y.getLsbD (32 * w.val + j)) ∧
      (s.pending = .access ⟨.write d, 0x0400 + 0x60 * i.val + 0x20 + 4 * w.val, 4⟩ :: rest →
        ∃ v : Val, step s = .next { s.writePReg i ⟨(s.readPReg i).inf, (s.readPReg i).x, v⟩ with
            pending := rest, response := some (.write false) } ∧
          ∀ j, j < 256 → v.getLsbD j =
            if 32 * w.val ≤ j ∧ j < 32 * w.val + 32 then d.getLsbD (j - 32 * w.val)
            else (s.readPReg i).y.getLsbD j))

/-- R50: the TAG word of a point register, its reset value, and the reserved words behind it. -/
def Obligations.TagWord : Prop :=
  (∀ (s : State) (i : PReg) (d : Word32) (rest : List Event),
    (s.phase = .idle → s.pending = .access ⟨.read, 0x0400 + 0x60 * i.val + 0x40, 4⟩ :: rest →
      ∃ v : Word32, step s = .next (s.answered v rest) ∧ v.toNat = (s.readPReg i).inf.toNat) ∧
    (s.phase = .idle → s.pending = .access ⟨.write d, 0x0400 + 0x60 * i.val + 0x40, 4⟩ :: rest →
      step s = .next { s.writePReg i ⟨d.getLsbD 0, (s.readPReg i).x, (s.readPReg i).y⟩ with
        pending := rest, response := some (.write false) }) ∧
    (∀ a : Access, s.pending = .access a :: rest → 0x0400 + 0x60 * i.val + 0x44 ≤ a.offset →
      a.offset < 0x0400 + 0x60 * i.val + 0x60 → step s = .next (s.busErrorOnly a.kind rest))) ∧
  (∀ i : PReg, (State.reset.readPReg i).inf = true)

/-- R82, R84, R44, R43: the words of TXT and MSG: byte 4j in bits 7 to 0, and so on upwards; a write stores all four bytes
and no other. -/
def Obligations.BufferWords : Prop :=
  ∀ (s : State) (off : Nat) (d : Word32) (rest : List Event), s.phase = .idle → off % 4 = 0 →
    (0x0800 ≤ off ∧ off < 0x0900) ∨ (0x1000 ≤ off ∧ off + 3 < 0x1000 + s.msgMax.toNat ∧ off < 0x2000) →
    (s.pending = .access ⟨.read, off, 4⟩ :: rest →
      ∃ v : Word32, step s = .next (s.answered v rest) ∧
        v.toNat = (s.mem.read off).toNat + 2 ^ 8 * (s.mem.read (off + 1)).toNat
          + 2 ^ 16 * (s.mem.read (off + 2)).toNat + 2 ^ 24 * (s.mem.read (off + 3)).toNat) ∧
    (s.mem.wf → s.pending = .access ⟨.write d, off, 4⟩ :: rest →
      ∃ m : Memory, step s = .next { s with mem := m, pending := rest, response := some (.write false) } ∧ m.wf ∧
        (∀ k, k < 4 → (m.read (off + k)).toNat = d.toNat / 2 ^ (8 * k) % 2 ^ 8) ∧
        (∀ a, a < off ∨ off + 4 ≤ a → m.read a = s.mem.read a))

/-- R39, R40: MSG_LEN and TXT_LEN take and return every 32-bit value, while idle; both are 0 after reset. -/
def Obligations.LengthRegisters : Prop :=
  (∀ (s : State) (d : Word32) (rest : List Event), s.phase = .idle →
    (s.pending = .access ⟨.write d, 0x0018, 4⟩ :: rest →
      step s = .next { s with msgLen := d, pending := rest, response := some (.write false) }) ∧
    (s.pending = .access ⟨.read, 0x0018, 4⟩ :: rest → step s = .next (s.answered s.msgLen rest)) ∧
    (s.pending = .access ⟨.write d, 0x001C, 4⟩ :: rest →
      step s = .next { s with txtLen := d, pending := rest, response := some (.write false) }) ∧
    (s.pending = .access ⟨.read, 0x001C, 4⟩ :: rest → step s = .next (s.answered s.txtLen rest))) ∧
  State.reset.msgLen = 0#32 ∧ State.reset.txtLen = 0#32

/-- R36: a write of STATUS clears DONE and BUSERR where it has a 1, busy or idle, and nothing else. -/
def Obligations.StatusWriteClears : Prop :=
  ∀ (s : State) (d : Word32) (rest : List Event), s.pending = .access ⟨.write d, 0x000C, 4⟩ :: rest →
    step s = .next { s with
      done := if d.getLsbD 1 then false else s.done
      busErr := if d.getLsbD 4 then false else s.busErr
      pending := rest, response := some (.write false) }

/-- R35, R422: a write of CTRL: IE, or the soft reset, busy or idle. That the answers not consumed stay, which settles how many
an aborted command has consumed, is the model's choice (log 2), no words of the rules; so are the turns kept (log 3) and the
recorded bus answer (log 9). -/
def Obligations.CtrlWriteAndSoftReset : Prop :=
  ∀ (s : State) (d : Word32) (rest : List Event), s.pending = .access ⟨.write d, 0x0008, 4⟩ :: rest →
    (d.getLsbD 1 = false →
      step s = .next { s with ie := d.getLsbD 0, pending := rest, response := some (.write false) }) ∧
    (d.getLsbD 1 = true →
      step s = .next { State.reset with
        msgMax := s.msgMax, draws := s.draws, pending := rest, response := some (.write false) })

/-- R420: the state after reset, and after the reset input in any state: every field of the rule's table. The last clause's
answers and turns, that those not consumed or not yet taken stay, are the model's choice (log 2, log 3), no words of the rule. -/
def Obligations.ResetState : Prop :=
  ∀ s : State,
    s = State.reset ∨ (∃ s₀ rest, s₀.pending = .hardReset :: rest ∧ step s₀ = .next s) →
    s.phase = .idle ∧ (∀ i, s.readX i = 0#256) ∧ (∀ i, s.readPReg i = ⟨true, 0#256, 0#256⟩) ∧
    (∀ a, s.mem.read a = 0#8) ∧ s.ctrlWord = 0#32 ∧ s.statusWord = 0#32 ∧ s.cmd = 0#32 ∧ s.errcode = 0#8 ∧
    s.msgLen = 0#32 ∧ s.txtLen = 0#32 ∧ s.irq = false ∧
    (∀ i, s.wordAt (.tag i) = 0x00000001#32) ∧ s.wordAt .id = 0x45434453#32 ∧ s.wordAt .version = 0x00010000#32 ∧
    s.wordAt .msgMax = s.msgMax ∧ s.wordAt .txtMax = 256#32 ∧
    [RomIndex.zero, .one, .p, .n, .gx, .gy, .coeffB].map romValue = [0#256, 1#256, BitVec.ofNat 256 Config.p,
      BitVec.ofNat 256 Config.n, BitVec.ofNat 256 Config.gx, BitVec.ofNat 256 Config.gy, 7#256] ∧
    (∀ s₀ rest, s₀.pending = .hardReset :: rest → step s₀ = .next s →
      s.draws = s₀.draws ∧ s.pending = rest ∧ s.msgMax = s₀.msgMax)

/-- R386: the interrupt line is IE AND DONE: what a completion makes it, what the host's writes and the resets make it,
and that nothing else changes it. -/
def Obligations.InterruptLine : Prop :=
  (∀ s : State, s.irq = true ↔ s.ie = true ∧ s.done = true) ∧
  (∀ s t : State, s.pending = [] ∨ (∃ rest, s.pending = .engine :: rest) → step s = .next t →
    (s.phase = .busy → t.phase = .idle → t.irq = s.ie) ∧ (s.phase = .idle ∨ t.phase = .busy → t.irq = s.irq)) ∧
  (∀ (s t : State) (d : Word32) (rest : List Event), step s = .next t →
    (s.pending = .access ⟨.write d, 0x000C, 4⟩ :: rest → t.irq = (s.irq && !d.getLsbD 1)) ∧
    (s.phase = .idle → s.pending = .access ⟨.write d, 0x0010, 4⟩ :: rest → t.irq = false) ∧
    (s.pending = .access ⟨.write d, 0x0008, 4⟩ :: rest → d.getLsbD 1 = false → t.irq = (d.getLsbD 0 && s.done)) ∧
    (s.pending = .access ⟨.write d, 0x0008, 4⟩ :: rest → d.getLsbD 1 = true → t.irq = false) ∧
    (s.pending = .hardReset :: rest → t.irq = false) ∧
    (∀ w, s.pending = .oracle w :: rest → t.irq = s.irq)) ∧
  (∀ (s t : State) (a : Access) (rest : List Event), s.pending = .access a :: rest → step s = .next t →
    a.kind = .read ∨ a.bytes ≠ 4 ∨ (a.offset ≠ 0x0008 ∧ a.offset ≠ 0x000C ∧ (a.offset ≠ 0x0010 ∨ s.phase = .busy)) →
    t.irq = s.irq)

/-! ### Field commands -/

/-- R140 to R144: MADD, MSUB, MMUL and MRED give the residue of the exact integer result. -/
def Obligations.FieldResults : Prop :=
  ∀ (s : State) (a b c : XReg) (m : Modulus),
    (∃ v : Val, v.toNat = ((s.readX b).toNat + (s.readX c).toNat) % modulusValue m ∧
      exec (.madd a b c m) s = .next ((s.writeX a v).completedOnly 0x00#8)) ∧
    (∃ v : Val, v.toNat < modulusValue m ∧
      (v.toNat + (s.readX c).toNat) % modulusValue m = (s.readX b).toNat % modulusValue m ∧
      exec (.msub a b c m) s = .next ((s.writeX a v).completedOnly 0x00#8)) ∧
    (∃ v : Val, v.toNat = (s.readX b).toNat * (s.readX c).toNat % modulusValue m ∧
      exec (.mmul a b c m) s = .next ((s.writeX a v).completedOnly 0x00#8)) ∧
    (∃ v : Val, v.toNat = (s.readX b).toNat % modulusValue m ∧
      exec (.mred a b m) s = .next ((s.writeX a v).completedOnly 0x00#8))

/-- R145: MINV gives the inverse in [1, m - 1], or NO_INVERSE exactly when there is none. -/
def Obligations.InverseResult : Prop :=
  ∀ (s : State) (a b : XReg) (m : Modulus),
    ((s.readX b).toNat % modulusValue m ≠ 0 →
      ∃ v : Val, 1 ≤ v.toNat ∧ v.toNat < modulusValue m ∧ (s.readX b).toNat * v.toNat % modulusValue m = 1 ∧
        exec (.minv a b m) s = .next ((s.writeX a v).completedOnly 0x00#8)) ∧
    ((s.readX b).toNat % modulusValue m = 0 → exec (.minv a b m) s = .next (s.completedOnly 0x20#8))

/-- R147, R148: Barrett reduction gives the exact residue of every product. -/
def Obligations.BarrettIsExact : Prop :=
  ∀ (m : Modulus) (x : Nat), x < 2 ^ 512 → barrett m x = x % modulusValue m

/-- R147, R148: REDC, and the Montgomery multiplication built of it, give the exact residues. -/
def Obligations.MontgomeryIsExact : Prop :=
  (∀ (m : Modulus) (t : Nat), t < modulusValue m * 2 ^ 256 →
    redc m t < modulusValue m ∧ redc m t * 2 ^ 256 % modulusValue m = t % modulusValue m) ∧
  (∀ (m : Modulus) (a b : Nat), montgomeryMul m a b = a * b % modulusValue m)

/-- R149: the reduction constants, and the folding congruence. -/
def Obligations.ReductionConstants : Prop :=
  2 ^ 256 % Config.p = 0x1000003D1 ∧
  2 ^ 256 % Config.n = 0x14551231950B75FC4402DA1732FC9BEBF ∧
  (∀ m : Modulus, montRSquared m = (2 ^ 256) ^ 2 % modulusValue m ∧
    montNegInv m < 2 ^ 256 ∧ (montNegInv m * modulusValue m + 1) % 2 ^ 256 = 0 ∧
    barrettMu m = 2 ^ 512 / modulusValue m) ∧
  montNegInv .p % 2 ^ 64 = 0xD838091DD2253531 ∧ montNegInv .n % 2 ^ 64 = 0x4B0DFF665588B13F ∧
  (∀ h l : Nat, (h * 2 ^ 256 + l) % Config.p = (h * 0x1000003D1 + l) % Config.p)

/-! ### Transfers -/

/-- R170 to R176: NOP, MOV, LDC, PMOV, PSET, PINF and PGEN. -/
def Obligations.TransferResults : Prop :=
  ∀ (s : State) (a b c : XReg) (q r : PReg),
    exec .nop s = .next (s.completedOnly 0x00#8) ∧
    exec (.mov a b) s = .next ((s.writeX a (s.readX b)).completedOnly 0x00#8) ∧
    exec (.ldc a .zero) s = .next ((s.writeX a 0#256).completedOnly 0x00#8) ∧
    exec (.ldc a .one) s = .next ((s.writeX a 1#256).completedOnly 0x00#8) ∧
    exec (.ldc a .p) s = .next ((s.writeX a
      0xFFFFFFFFFFFFFFFFFFFFFFFFFFFFFFFFFFFFFFFFFFFFFFFFFFFFFFFEFFFFFC2F#256).completedOnly 0x00#8) ∧
    exec (.ldc a .n) s = .next ((s.writeX a
      0xFFFFFFFFFFFFFFFFFFFFFFFFFFFFFFFEBAAEDCE6AF48A03BBFD25E8CD0364141#256).completedOnly 0x00#8) ∧
    exec (.ldc a .gx) s = .next ((s.writeX a
      0x79BE667EF9DCBBAC55A06295CE870B07029BFCDB2DCE28D959F2815B16F81798#256).completedOnly 0x00#8) ∧
    exec (.ldc a .gy) s = .next ((s.writeX a
      0x483ADA7726A3C4655DA4FBFC0E1108A8FD17B448A68554199C47D08FFB10D4B8#256).completedOnly 0x00#8) ∧
    exec (.ldc a .coeffB) s = .next ((s.writeX a 7#256).completedOnly 0x00#8) ∧
    exec (.pmov q r) s = .next ((s.writePReg q (s.readPReg r)).completedOnly 0x00#8) ∧
    exec (.pset q b c) s = .next ((s.writePReg q ⟨false, s.readX b, s.readX c⟩).completedOnly 0x00#8) ∧
    exec (.pinf q) s = .next ((s.writePReg q ⟨true, 0#256, 0#256⟩).completedOnly 0x00#8) ∧
    exec (.pgen q) s = .next ((s.writePReg q
      ⟨false, 0x79BE667EF9DCBBAC55A06295CE870B07029BFCDB2DCE28D959F2815B16F81798#256,
        0x483ADA7726A3C4655DA4FBFC0E1108A8FD17B448A68554199C47D08FFB10D4B8#256⟩).completedOnly 0x00#8)

/-- R177, R178: PGETX and PGETY copy a coordinate, or raise INFINITY, by the tag. -/
def Obligations.CoordinateReads : Prop :=
  ∀ (s : State) (a : XReg) (q : PReg),
    ((s.readPReg q).inf = false →
      exec (.pgetx a q) s = .next ((s.writeX a (s.readPReg q).x).completedOnly 0x00#8) ∧
      exec (.pgety a q) s = .next ((s.writeX a (s.readPReg q).y).completedOnly 0x00#8)) ∧
    ((s.readPReg q).inf = true →
      exec (.pgetx a q) s = .next (s.completedOnly 0x23#8) ∧ exec (.pgety a q) s = .next (s.completedOnly 0x23#8))

/-! ### Points -/

/-- R201, R202, R203, R207: the outcome of `add` by case; slopes and results are said by their congruences modulo p. -/
def Obligations.AdditionCases : Prop :=
  (∀ u v : Point, u.outOfField = true ∨ v.outOfField = true → pointAdd u v = .error .badPoint) ∧
  (∀ v : Point, v.outOfField = false → pointAdd .inf v = .ok v ∧ pointAdd v .inf = .ok v) ∧
  (∀ x1 y1 x2 y2 : Val, x1.toNat < Config.p → y1.toNat < Config.p → x2.toNat < Config.p → y2.toNat < Config.p →
    ((x1, y1) ≠ (x2, y2) → x1 = x2 → (y1.toNat + y2.toNat) % Config.p = 0 →
      pointAdd (.aff x1 y1) (.aff x2 y2) = .ok .inf) ∧
    ((x1, y1) = (x2, y2) → y1.toNat = 0 → pointAdd (.aff x1 y1) (.aff x2 y2) = .error .noInverse) ∧
    ((x1, y1) = (x2, y2) → y1.toNat ≠ 0 →
      ∃ (lam : Int) (x3 y3 : Val), lam * (2 * y1.toNat) % Config.p = 3 * (x1.toNat : Int) ^ 2 % Config.p ∧
        x3.toNat < Config.p ∧ y3.toNat < Config.p ∧
        (x3.toNat : Int) = (lam ^ 2 - x1.toNat - x2.toNat) % Config.p ∧
        (y3.toNat : Int) = (lam * (x1.toNat - x3.toNat) - y1.toNat) % Config.p ∧
        pointAdd (.aff x1 y1) (.aff x2 y2) = .ok (.aff x3 y3)) ∧
    ((x1, y1) ≠ (x2, y2) → x1 = x2 → (y1.toNat + y2.toNat) % Config.p ≠ 0 →
      pointAdd (.aff x1 y1) (.aff x2 y2) = .error .noInverse) ∧
    (x1 ≠ x2 →
      ∃ (lam : Int) (x3 y3 : Val), lam * (x2.toNat - x1.toNat) % Config.p = ((y2.toNat : Int) - y1.toNat) % Config.p ∧
        x3.toNat < Config.p ∧ y3.toNat < Config.p ∧
        (x3.toNat : Int) = (lam ^ 2 - x1.toNat - x2.toNat) % Config.p ∧
        (y3.toNat : Int) = (lam * (x1.toNat - x3.toNat) - y1.toNat) % Config.p ∧
        pointAdd (.aff x1 y1) (.aff x2 y2) = .ok (.aff x3 y3)))

/-- R204: on valid points `add` raises nothing, stays valid, commutes, associates, and has O as identity and -U as inverse;
and the valid points are the n different multiples of G: the group is cyclic, of order n, and the cofactor is 1. -/
def Obligations.AdditionIsAGroupLaw : Prop :=
  (∀ u v : Point, u.valid = true → v.valid = true →
    ∃ w, pointAdd u v = .ok w ∧ w.valid = true ∧ pointAdd v u = .ok w) ∧
  (∀ u v w : Point, u.valid = true → v.valid = true → w.valid = true →
    ∃ uv vw z, pointAdd u v = .ok uv ∧ pointAdd v w = .ok vw ∧ pointAdd uv w = .ok z ∧ pointAdd u vw = .ok z) ∧
  (∀ u : Point, u.valid = true →
    pointAdd u .inf = .ok u ∧ u.neg.valid = true ∧ pointAdd u u.neg = .ok .inf) ∧
  (∀ u : Point, u.valid = true → ∃ k, k < Config.n ∧ kFoldSum generator k = .ok u) ∧
  (∀ j k : Nat, j < Config.n → k < Config.n → kFoldSum generator j = kFoldSum generator k → j = k)

/-- R200, R205, R207: PADD and PDBL: the point `add` gives, or its error with nothing written; PDBL is PADD of a register
with itself; on valid operands both complete without error, with a valid point. -/
def Obligations.PointAdditionCommands : Prop :=
  ∀ (s : State) (a b c : PReg),
    (∀ r, pointAdd (s.readP b) (s.readP c) = .ok r →
      exec (.padd a b c) s = .next ((s.writePReg a r.stored).completedOnly 0x00#8)) ∧
    (∀ e, pointAdd (s.readP b) (s.readP c) = .error e → exec (.padd a b c) s = .next (s.completedOnly e.code)) ∧
    exec (.pdbl a b) s = exec (.padd a b b) s ∧
    ((s.readP b).valid = true → (s.readP c).valid = true →
      (∃ r : Point, r.valid = true ∧ exec (.padd a b c) s = .next ((s.writePReg a r.stored).completedOnly 0x00#8)) ∧
      (∃ r : Point, r.valid = true ∧ exec (.pdbl a b) s = .next ((s.writePReg a r.stored).completedOnly 0x00#8)))

/-- R206: PCHK writes FLAG, 1 exactly for O and for a pair below p on the curve. -/
def Obligations.PointCheck : Prop :=
  ∀ (s : State) (b : PReg), ∃ f : Bool,
    exec (.pchk b) s = .next ({ s with flag := f }.completedOnly 0x00#8) ∧
    (f = true ↔ (s.readPReg b).inf = true ∨
      ((s.readPReg b).x.toNat < Config.p ∧ (s.readPReg b).y.toNat < Config.p ∧
        (s.readPReg b).y.toNat ^ 2 % Config.p = ((s.readPReg b).x.toNat ^ 3 + 7) % Config.p))

/-- R230, R231, R233: PMUL gives the k-fold sum of a valid Q under `add`, for every 256-bit k; O for k = 0 whatever Q is;
BAD_POINT else. -/
def Obligations.ScalarMultipleIsTheSum : Prop :=
  ∀ (s : State) (a c : PReg) (b : XReg),
    ((s.readX b).toNat = 0 → exec (.pmul a b c) s = .next ((s.writePReg a ⟨true, 0#256, 0#256⟩).completedOnly 0x00#8)) ∧
    ((s.readX b).toNat ≠ 0 → (s.readP c).valid = false → exec (.pmul a b c) s = .next (s.completedOnly 0x22#8)) ∧
    ((s.readX b).toNat ≠ 0 → (s.readP c).valid = true →
      ∃ r : Point, kFoldSum (s.readP c) (s.readX b).toNat = .ok r ∧ r.valid = true ∧
        exec (.pmul a b c) s = .next ((s.writePReg a r.stored).completedOnly 0x00#8))

/-- R4, R231: n·G = O; for every valid Q and every 256-bit k, k·Q = (k mod n)·Q; and
(k1 + k2 mod n)·Q = k1·Q + k2·Q. -/
def Obligations.MultiplesModuloTheOrder : Prop :=
  scalarMult Config.n generator = .ok .inf ∧
  (∀ (k : Nat) (q : Point), k < 2 ^ 256 → q.valid = true → scalarMult k q = scalarMult (k % Config.n) q) ∧
  (∀ (k1 k2 : Nat) (q : Point), k1 < 2 ^ 256 → k2 < 2 ^ 256 → q.valid = true →
    ∃ u v w, scalarMult k1 q = .ok u ∧ scalarMult k2 q = .ok v ∧
      scalarMult ((k1 + k2) % Config.n) q = .ok w ∧ pointAdd u v = .ok w)

/-! ### Digest and randomness -/

/-- R250, R252, R253, R254: HASH gives the 32 digest bytes of the buffer as a big-endian integer, unreduced, or LENGTH. -/
def Obligations.HashResults : Prop :=
  (∀ bytes, (hashH bytes).length = 32) ∧
  ∀ (s : State) (a : XReg) (bytes : List Byte),
    (s.messageIs bytes → ∃ v : Val, v.toNat = bigEndianValue (hashH bytes) ∧
      exec (.hash a .msg) s = .next ((s.writeX a v).completedOnly 0x00#8)) ∧
    (s.textIs bytes → ∃ v : Val, v.toNat = bigEndianValue (hashH bytes) ∧
      exec (.hash a .txt) s = .next ((s.writeX a v).completedOnly 0x00#8)) ∧
    (s.msgMax.toNat < s.msgLen.toNat → exec (.hash a .msg) s = .next (s.completedOnly 0x02#8)) ∧
    (256 < s.txtLen.toNat → exec (.hash a .txt) s = .next (s.completedOnly 0x02#8))

/-- R257: the padding of a message of L bytes: 0x80, the least number of zeros that leaves 8 bytes of a 64-byte block, and
8·L as a 64-bit big-endian value. -/
def Obligations.ShaPadding : Prop :=
  ∀ msg : List Byte, 8 * msg.length < 2 ^ 64 →
    ∃ (k : Nat) (len : List Byte),
      shaPad msg = msg ++ [0x80#8] ++ List.replicate k 0#8 ++ len ∧
      (msg.length + 1 + k) % 64 = 56 ∧ (∀ j, (msg.length + 1 + j) % 64 = 56 → k ≤ j) ∧
      len.length = 8 ∧ bigEndianValue len = 8 * msg.length ∧ (shaPad msg).length % 64 = 0

/-- R260: the known digests of the empty message and of "abc". -/
def Obligations.ShaKnownAnswers : Prop :=
  bigEndianValue (hashH []) = 0xe3b0c44298fc1c149afbf4c8996fb92427ae41e4649b934ca495991b7852b855 ∧
  bigEndianValue (hashH [0x61#8, 0x62#8, 0x63#8]) =
    0xba7816bf8f01cfea414140de5dae2223b00361a396177a9cb410ff61f20015ad

/-- R291, R292: RAND: words that are 0 modulo n are turned away; the first other word gives its residue, in [1, n - 1]; FAIL
raises ENTROPY; while there is none of either it stays BUSY (log 2, the model's form of waiting). -/
def Obligations.RandResults : Prop :=
  ∀ (s : State) (a : XReg) (turned : List Draw), (∀ d ∈ turned, d.rejected) →
    (∀ (b : Val) (rest : List Draw), s.draws = turned ++ .word b :: rest → b.toNat % Config.n ≠ 0 →
      ∃ v : Val, v.toNat = b.toNat % Config.n ∧ 1 ≤ v.toNat ∧ v.toNat < Config.n ∧
        exec (.rand a) s = .next (({ s with draws := rest }.writeX a v).completedOnly 0x00#8)) ∧
    (∀ rest : List Draw, s.draws = turned ++ .fail :: rest →
      exec (.rand a) s = .next ({ s with draws := rest }.completedOnly 0x30#8)) ∧
    (s.draws = turned → exec (.rand a) s = .next { s with draws := [] })

/-! ### Text -/

/-- R311, R312, R320 to R323: the encoders write canonical decimal texts with the separator between them, zeros to the end
of TXT, and TXT_LEN; INFINITY where a point has no coordinates; 78 bytes hold every value. -/
def Obligations.EncoderResults : Prop :=
  (∀ v : Val, ∃ f, IsDecimalText v.toNat f ∧ f.length ≤ 78) ∧
  ∀ (s : State) (b c : XReg) (q : PReg), s.mem.wf →
    (∃ f m, IsDecimalText (s.readX b).toNat f ∧ TextWritten s.mem m f ∧
      exec (.encd b) s = .next ({ s with mem := m, txtLen := BitVec.ofNat 32 f.length }.completedOnly 0x00#8)) ∧
    (∃ f g m, IsDecimalText (s.readX b).toNat f ∧ IsDecimalText (s.readX c).toNat g ∧
      TextWritten s.mem m (f ++ 0x7C#8 :: g) ∧
      exec (.encsig b c) s = .next
        ({ s with mem := m, txtLen := BitVec.ofNat 32 (f.length + 1 + g.length) }.completedOnly 0x00#8)) ∧
    ((s.readPReg q).inf = false →
      (∃ f g m, IsDecimalText (s.readPReg q).x.toNat f ∧ IsDecimalText (s.readPReg q).y.toNat g ∧
        TextWritten s.mem m (f ++ 0x7C#8 :: g) ∧
        exec (.encq q) s = .next
          ({ s with mem := m, txtLen := BitVec.ofNat 32 (f.length + 1 + g.length) }.completedOnly 0x00#8)) ∧
      (∃ f g h m, IsDecimalText (s.readX b).toNat f ∧ IsDecimalText (s.readPReg q).x.toNat g ∧
        IsDecimalText (s.readPReg q).y.toNat h ∧ TextWritten s.mem m (f ++ 0x7C#8 :: (g ++ 0x7C#8 :: h)) ∧
        exec (.enckp b q) s = .next
          ({ s with mem := m, txtLen := BitVec.ofNat 32 (f.length + 1 + g.length + 1 + h.length) }.completedOnly
            0x00#8))) ∧
    ((s.readPReg q).inf = true →
      exec (.encq q) s = .next (s.completedOnly 0x23#8) ∧ exec (.enckp b q) s = .next (s.completedOnly 0x23#8))

/-- R313, R324 to R327: the decoders, on a text of as many tokens as they need, each below 2^256; DECSIG for two different
destinations. -/
def Obligations.DecoderResults : Prop :=
  ∀ (s : State) (f g h : List Byte), IsToken f → IsToken g → IsToken h →
    textValue f < 2 ^ 256 → textValue g < 2 ^ 256 → textValue h < 2 ^ 256 →
    (s.textIs f → ∀ a : XReg,
      exec (.decd a) s = .next ((s.writeX a (BitVec.ofNat 256 (textValue f))).completedOnly 0x00#8)) ∧
    (s.textIs (f ++ 0x7C#8 :: g) →
      (∀ q : PReg, exec (.decq q) s = .next ((s.writePReg q
        ⟨false, BitVec.ofNat 256 (textValue f), BitVec.ofNat 256 (textValue g)⟩).completedOnly 0x00#8)) ∧
      (∀ a b : XReg, a ≠ b → exec (.decsig a b) s = .next (((s.writeX a (BitVec.ofNat 256 (textValue f))).writeX b
        (BitVec.ofNat 256 (textValue g))).completedOnly 0x00#8))) ∧
    (s.textIs (f ++ 0x7C#8 :: (g ++ 0x7C#8 :: h)) → ∀ (a : XReg) (q : PReg),
      exec (.deckp a q) s = .next (((s.writeX a (BitVec.ofNat 256 (textValue f))).writePReg q
        ⟨false, BitVec.ofNat 256 (textValue g), BitVec.ofNat 256 (textValue h)⟩).completedOnly 0x00#8))

/-- R313, R314, R316, R391: what a decoder reports, in order: LENGTH; FIELD_COUNT; and for the first token that is at fault,
BAD_TOKEN before OVERFLOW. Nothing is written. -/
def Obligations.DecoderErrors : Prop :=
  ∀ (s : State) (a b : XReg) (q : PReg),
    (256 < s.txtLen.toNat →
      exec (.decd a) s = .next (s.completedOnly 0x02#8) ∧ exec (.decq q) s = .next (s.completedOnly 0x02#8) ∧
      exec (.deckp a q) s = .next (s.completedOnly 0x02#8) ∧
      (a ≠ b → exec (.decsig a b) s = .next (s.completedOnly 0x02#8))) ∧
    (∀ t, s.textIs t →
      (t.count 0x7C#8 ≠ 0 → exec (.decd a) s = .next (s.completedOnly 0x10#8)) ∧
      (t.count 0x7C#8 ≠ 1 → exec (.decq q) s = .next (s.completedOnly 0x10#8) ∧
        (a ≠ b → exec (.decsig a b) s = .next (s.completedOnly 0x10#8))) ∧
      (t.count 0x7C#8 ≠ 2 → exec (.deckp a q) s = .next (s.completedOnly 0x10#8))) ∧
    (∀ (pre post : List (List Byte)) (f : List Byte) (code : BitVec 8),
      (∀ g ∈ pre ++ f :: post, 0x7C#8 ∉ g) → (∀ g ∈ pre, IsToken g ∧ textValue g < 2 ^ 256) →
      ((¬IsToken f ∧ code = 0x11#8) ∨ (IsToken f ∧ 2 ^ 256 ≤ textValue f ∧ code = 0x12#8)) →
      s.textIs ([0x7C#8].intercalate (pre ++ f :: post)) →
      (pre.length + post.length = 0 → exec (.decd a) s = .next (s.completedOnly code)) ∧
      (pre.length + post.length = 1 → exec (.decq q) s = .next (s.completedOnly code) ∧
        (a ≠ b → exec (.decsig a b) s = .next (s.completedOnly code))) ∧
      (pre.length + post.length = 2 → exec (.deckp a q) s = .next (s.completedOnly code)))

/-- R328: decoding the text an encoder wrote returns what was encoded, for every 256-bit value. -/
def Obligations.CodecRoundTrip : Prop :=
  ∀ (s : State) (a b c d : XReg) (q r : PReg), s.mem.wf →
    (∃ t u, exec (.encd b) s = .next t ∧ exec (.decd a) t = .next u ∧ u.errcode = 0#8 ∧ u.readX a = s.readX b) ∧
    (a ≠ d → ∃ t u, exec (.encsig b c) s = .next t ∧ exec (.decsig a d) t = .next u ∧ u.errcode = 0#8 ∧
      u.readX a = s.readX b ∧ u.readX d = s.readX c) ∧
    ((s.readPReg q).inf = false → ∃ t u, exec (.encq q) s = .next t ∧ exec (.decq r) t = .next u ∧ u.errcode = 0#8 ∧
      u.readPReg r = s.readPReg q) ∧
    ((s.readPReg q).inf = false → ∃ t u, exec (.enckp b q) s = .next t ∧ exec (.deckp a r) t = .next u ∧
      u.errcode = 0#8 ∧ u.readX a = s.readX b ∧ u.readPReg r = s.readPReg q)

/-! ### Protocols -/

/-- R350, R292: KEYGEN: d is the first word that is not 0 modulo n, reduced; Q is the d-fold sum of G, an affine valid point;
FAIL raises ENTROPY. The last clause, while there is no answer left: those at hand are consumed and it stays BUSY, is the
model's choice (log 2, the model's form of waiting), no words of the rules. -/
def Obligations.KeygenResults : Prop :=
  ∀ (s : State) (a : XReg) (q : PReg) (turned : List Draw), (∀ d ∈ turned, d.rejected) →
    (∀ (b : Val) (rest : List Draw), s.draws = turned ++ .word b :: rest → b.toNat % Config.n ≠ 0 →
      ∃ (v x y : Val), v.toNat = b.toNat % Config.n ∧ kFoldSum generator v.toNat = .ok (.aff x y) ∧
        (Point.aff x y).valid = true ∧
        exec (.keygen a q) s = .next
          ((({ s with draws := rest }.writeX a v).writePReg q ⟨false, x, y⟩).completedOnly 0x00#8)) ∧
    (∀ rest : List Draw, s.draws = turned ++ .fail :: rest →
      exec (.keygen a q) s = .next ({ s with draws := rest }.completedOnly 0x30#8)) ∧
    (s.draws = turned → exec (.keygen a q) s = .next { s with draws := [] })

/-- R351, R352: SIGN, for d in [1, n - 1] and two different destinations: the first nonce whose r and s are both nonzero
gives the signature; the others are turned away; FAIL raises ENTROPY. The clause of no answer left, that those at hand are
consumed and it stays BUSY, is the model's choice (log 2, the model's form of waiting), no words of the rules. -/
def Obligations.SignResults : Prop :=
  ∀ (s : State) (a b c : XReg) (bytes : List Byte) (e d : Nat) (turned : List Draw),
    a ≠ b → s.messageIs bytes → e = bigEndianValue (hashH bytes) → d = (s.readX c).toNat → 1 ≤ d → d < Config.n →
    (∀ w ∈ turned, w.rejectedBySign e d) →
    (∀ (w : Val) (rest : List Draw) (r sg : Nat), s.draws = turned ++ .word w :: rest → w.toNat % Config.n ≠ 0 →
      Attempt e d (w.toNat % Config.n) r sg → r ≠ 0 → sg ≠ 0 →
      exec (.sign a b c) s = .next
        ((({ s with draws := rest }.writeX a (BitVec.ofNat 256 r)).writeX b (BitVec.ofNat 256 sg)).completedOnly
          0x00#8)) ∧
    (∀ rest : List Draw, s.draws = turned ++ .fail :: rest →
      exec (.sign a b c) s = .next ({ s with draws := rest }.completedOnly 0x30#8)) ∧
    (s.draws = turned → exec (.sign a b c) s = .next { s with draws := [] }) ∧
    (∀ k, 1 ≤ k → k < Config.n → ∃ r sg, Attempt e d k r sg)

/-- The checks SIGN and VERIFY make before any draw or any arithmetic, in order: R351, R391, R119 for SIGN; R360, R361, R362,
R391, R392 for VERIFY. The first clause is about the term of a SIGN with A = B, which no word decodes to: that `exec` gives it
the completion R119 gives its word is the model's (log 14). -/
def Obligations.SignAndVerifyChecks : Prop :=
  ∀ (s : State) (a b c : XReg) (q : PReg),
    exec (.sign a a c) s = .next (s.completedOnly 0x01#8) ∧
    (a ≠ b → s.msgMax.toNat < s.msgLen.toNat → exec (.sign a b c) s = .next (s.completedOnly 0x02#8)) ∧
    (a ≠ b → s.msgLen.toNat ≤ s.msgMax.toNat → ((s.readX c).toNat = 0 ∨ Config.n ≤ (s.readX c).toNat) →
      exec (.sign a b c) s = .next (s.completedOnly 0x21#8)) ∧
    (s.msgMax.toNat < s.msgLen.toNat → exec (.verify a b q) s = .next (s.completedOnly 0x02#8)) ∧
    (s.msgLen.toNat ≤ s.msgMax.toNat →
      ((s.readX a).toNat < 1 ∨ Config.n ≤ (s.readX a).toNat ∨ (s.readX b).toNat < 1 ∨ Config.n ≤ (s.readX b).toNat) →
      exec (.verify a b q) s = .next ({ s with flag := false }.completedOnly 0x00#8)) ∧
    (s.msgLen.toNat ≤ s.msgMax.toNat → 1 ≤ (s.readX a).toNat → (s.readX a).toNat < Config.n →
      1 ≤ (s.readX b).toNat → (s.readX b).toNat < Config.n → (s.readP q = .inf ∨ (s.readP q).valid = false) →
      exec (.verify a b q) s = .next (s.completedOnly 0x22#8))

/-- R360: VERIFY's verdict, for r and s in range and a valid affine Q: with w the inverse of s, T = (e·w)·G + (r·w)·Q, and
FLAG is 1 exactly when T is not O and T.x mod n = r. -/
def Obligations.VerifyVerdict : Prop :=
  ∀ (s : State) (a b : XReg) (q : PReg) (bytes : List Byte) (r sg : Nat), s.messageIs bytes →
    r = (s.readX a).toNat → sg = (s.readX b).toNat → 1 ≤ r → r < Config.n → 1 ≤ sg → sg < Config.n →
    (s.readPReg q).inf = false → (s.readP q).valid = true →
    ∃ (w : Nat) (t1 t2 t : Point) (f : Bool), w < Config.n ∧ sg * w % Config.n = 1 ∧
      kFoldSum generator (bigEndianValue (hashH bytes) * w % Config.n) = .ok t1 ∧
      kFoldSum (s.readP q) (r * w % Config.n) = .ok t2 ∧ pointAdd t1 t2 = .ok t ∧
      (f = true ↔ ∃ x y, t = .aff x y ∧ x.toNat % Config.n = r) ∧
      exec (.verify a b q) s = .next ({ s with flag := f }.completedOnly 0x00#8)

/-- R364: sign-then-verify: when SIGN completes without error, VERIFY of its result against Q = d·G, with the same message,
accepts. -/
def Obligations.SignThenVerify : Prop :=
  ∀ (s t : State) (a b c : XReg) (q : PReg), s.phase = .busy → s.errcode = 0#8 →
    kFoldSum generator (s.readX c).toNat = .ok (s.readP q) →
    exec (.sign a b c) s = .next t → t.phase = .idle → t.errcode = 0#8 →
    ∃ u, exec (.verify a b q) t = .next u ∧ u.flag = true ∧ u.errcode = 0#8

/-- R364: malleability: where VERIFY accepts (r, s), it accepts (r, n - s). -/
def Obligations.Malleability : Prop :=
  ∀ (s t : State) (a b : XReg) (q : PReg), a ≠ b → exec (.verify a b q) s = .next t → t.errcode = 0#8 → t.flag = true →
    ∃ u, exec (.verify a b q) (s.writeX b (BitVec.ofNat 256 (Config.n - (s.readX b).toNat))) = .next u ∧
      u.flag = true ∧ u.errcode = 0#8

/-- R353, R363: SIGN writes its two destinations and nothing else, and keeps no nonce; VERIFY writes STATUS.FLAG and nothing
else, and draws nothing. -/
def Obligations.SignAndVerifyWriteNoMore : Prop :=
  (∀ (s t : State) (a b c : XReg), exec (.sign a b c) s = .next t →
    t = { s with x := t.x, draws := t.draws, errcode := t.errcode, done := t.done, phase := t.phase } ∧
    ∀ r, r ≠ a → r ≠ b → t.readX r = s.readX r) ∧
  (∀ (s t : State) (a b : XReg) (q : PReg), exec (.verify a b q) s = .next t →
    t = { s with flag := t.flag, errcode := t.errcode, done := true, phase := .idle })
end

