-- ==== Sys2Proof/Laws/Primes.lean ====
section
/-! SUPPORT. The field prime p and the group order n are prime (00_scope.md R4), by Pratt certificates: for each number a
witness of full order and the factors of the number less one, each of them prime in turn. -/

set_option Elab.async false

namespace Sys2Proof.Laws

open Sys2Proof

/-- b^e mod m by repeated squaring, for an e of at most `fuel` bits, times `acc`. -/
def powModLoop (m : Nat) : Nat → Nat → Nat → Nat → Nat
  | 0, _, _, acc => acc % m
  | fuel + 1, b, e, acc =>
    if e = 0 then acc % m
    else powModLoop m fuel (b * b % m) (e / 2) (if e % 2 = 1 then acc * b % m else acc)

/-- b^e mod m, for an e below 2^256. -/
def powMod (m b e : Nat) : Nat := powModLoop m 256 b e 1

theorem powModLoop_eq (m fuel b e acc : Nat) (h : e < 2 ^ fuel) :
    powModLoop m fuel b e acc = acc * b ^ e % m := by
  induction fuel generalizing b e acc with
  | zero =>
    have : e = 0 := by simpa using h
    simp [powModLoop, this]
  | succ f ih =>
    unfold powModLoop
    split
    · rename_i he; simp [he]
    · rw [ih _ _ _ (by rw [pow_succ] at h; omega)]
      have hb : b ^ e = (b * b) ^ (e / 2) * b ^ (e % 2) := by
        rw [← pow_two, ← pow_mul, ← pow_add, Nat.div_add_mod]
      have hsq : (b * b % m) ^ (e / 2) ≡ (b * b) ^ (e / 2) [MOD m] := (Nat.mod_modEq _ _).pow _
      rcases Nat.mod_two_eq_zero_or_one e with h2 | h2
      · rw [if_neg (by omega), hb, h2, pow_zero, mul_one]
        exact hsq.mul_left acc
      · rw [if_pos h2, hb, h2, pow_one]
        calc acc * b % m * (b * b % m) ^ (e / 2) ≡ acc * b * (b * b) ^ (e / 2) [MOD m] :=
              (Nat.mod_modEq _ _).mul hsq
          _ = acc * ((b * b) ^ (e / 2) * b) := by ring
          _ ≡ acc * ((b * b) ^ (e / 2) * b) [MOD m] := Nat.ModEq.refl _

theorem powMod_eq {e : Nat} (m b : Nat) (h : e < 2 ^ 256) : powMod m b e = b ^ e % m := by
  rw [powMod, powModLoop_eq m 256 b e 1 h, one_mul]

/-- The computed part of a certificate. -/
def prattCheck (m a : Nat) (factors : List Nat) : Bool :=
  decide (1 < m) && decide (m < 2 ^ 256) && decide (factors.prod = m - 1) && powMod m a (m - 1) == 1
    && factors.all fun q => powMod m a ((m - 1) / q) != 1

theorem primes_nil : ∀ q ∈ ([] : List Nat), Nat.Prime q := by simp

theorem primes_cons {q : Nat} {qs : List Nat} (h : Nat.Prime q) (hs : ∀ r ∈ qs, Nat.Prime r) :
    ∀ r ∈ q :: qs, Nat.Prime r := List.forall_mem_cons.2 ⟨h, hs⟩

/-- A number with a checked certificate over primes is prime. -/
theorem prime_of_pratt {m : Nat} (a : Nat) (factors : List Nat) (hp : ∀ q ∈ factors, Nat.Prime q)
    (h : prattCheck m a factors = true) : Nat.Prime m := by
  simp only [prattCheck, Bool.and_eq_true, decide_eq_true_eq, beq_iff_eq, List.all_eq_true, bne_iff_ne, ne_eq] at h
  obtain ⟨⟨⟨⟨h1, hm⟩, hprod⟩, hone⟩, hne⟩ := h
  have cast : ∀ e, e < 2 ^ 256 → ((a : ZMod m) ^ e = 1 ↔ powMod m a e = 1) := by
    intro e he
    rw [powMod_eq m a he, ← Nat.cast_pow, ← Nat.cast_one, ZMod.natCast_eq_natCast_iff, Nat.ModEq,
      Nat.mod_eq_of_lt h1]
  refine lucas_primality m (a : ZMod m) ((cast _ (by omega)).2 hone) fun q hq hdvd => ?_
  rw [← hprod, Prime.dvd_prod_iff hq.prime] at hdvd
  obtain ⟨r, hr, hqr⟩ := hdvd
  obtain rfl : q = r := (Nat.prime_dvd_prime_iff_eq hq (hp r hr)).1 hqr
  rw [ne_eq, cast _ (lt_of_le_of_lt (Nat.div_le_self _ _) (by omega))]
  exact hne q hr

/-! ### The certificates -/

theorem prime_2 : Nat.Prime 2 := by norm_num

theorem prime_3 : Nat.Prime 3 := by norm_num

theorem prime_5 : Nat.Prime 5 := by norm_num

theorem prime_7 : Nat.Prime 7 := by norm_num

theorem prime_11 : Nat.Prime 11 := by norm_num

theorem prime_13 : Nat.Prime 13 := by norm_num

theorem prime_17 : Nat.Prime 17 := by norm_num

theorem prime_19 : Nat.Prime 19 := by norm_num

theorem prime_23 : Nat.Prime 23 := by norm_num

theorem prime_29 : Nat.Prime 29 := by norm_num

theorem prime_31 : Nat.Prime 31 := by norm_num

theorem prime_41 : Nat.Prime 41 := by norm_num

theorem prime_53 : Nat.Prime 53 := by norm_num

theorem prime_59 : Nat.Prime 59 := by norm_num

theorem prime_67 : Nat.Prime 67 := by norm_num

theorem prime_83 : Nat.Prime 83 := by norm_num

theorem prime_97 : Nat.Prime 97 := by norm_num

theorem prime_101 : Nat.Prime 101 := by norm_num

theorem prime_103 : Nat.Prime 103 := by norm_num

theorem prime_109 : Nat.Prime 109 := by norm_num

theorem prime_113 : Nat.Prime 113 := by norm_num

theorem prime_131 : Nat.Prime 131 := by norm_num

theorem prime_149 : Nat.Prime 149 := by norm_num

theorem prime_239 : Nat.Prime 239 := by norm_num

theorem prime_271 : Nat.Prime 271 := by norm_num

theorem prime_293 : Nat.Prime 293 := by norm_num

theorem prime_419 : Nat.Prime 419 := by norm_num

theorem prime_443 : Nat.Prime 443 := by norm_num

theorem prime_461 : Nat.Prime 461 := by norm_num

theorem prime_631 : Nat.Prime 631 := by norm_num

theorem prime_797 : Nat.Prime 797 := by norm_num

theorem prime_887 : Nat.Prime 887 := by norm_num

theorem prime_971 : Nat.Prime 971 := by norm_num

theorem prime_1373 : Nat.Prime 1373 :=
  prime_of_pratt 2 [2, 2, 7, 7, 7] (primes_cons prime_2 (primes_cons prime_2 (primes_cons prime_7 (primes_cons prime_7 (primes_cons prime_7 primes_nil))))) (by decide +kernel)

theorem prime_1409 : Nat.Prime 1409 :=
  prime_of_pratt 3 [2, 2, 2, 2, 2, 2, 2, 11] (primes_cons prime_2 (primes_cons prime_2 (primes_cons prime_2 (primes_cons prime_2 (primes_cons prime_2 (primes_cons prime_2 (primes_cons prime_2 (primes_cons prime_11 primes_nil)))))))) (by decide +kernel)

theorem prime_1627 : Nat.Prime 1627 :=
  prime_of_pratt 3 [2, 3, 271] (primes_cons prime_2 (primes_cons prime_3 (primes_cons prime_271 primes_nil))) (by decide +kernel)

theorem prime_1871 : Nat.Prime 1871 :=
  prime_of_pratt 14 [2, 5, 11, 17] (primes_cons prime_2 (primes_cons prime_5 (primes_cons prime_11 (primes_cons prime_17 primes_nil)))) (by decide +kernel)

theorem prime_2011 : Nat.Prime 2011 :=
  prime_of_pratt 3 [2, 3, 5, 67] (primes_cons prime_2 (primes_cons prime_3 (primes_cons prime_5 (primes_cons prime_67 primes_nil)))) (by decide +kernel)

theorem prime_2621 : Nat.Prime 2621 :=
  prime_of_pratt 2 [2, 2, 5, 131] (primes_cons prime_2 (primes_cons prime_2 (primes_cons prime_5 (primes_cons prime_131 primes_nil)))) (by decide +kernel)

theorem prime_2657 : Nat.Prime 2657 :=
  prime_of_pratt 3 [2, 2, 2, 2, 2, 83] (primes_cons prime_2 (primes_cons prime_2 (primes_cons prime_2 (primes_cons prime_2 (primes_cons prime_2 (primes_cons prime_83 primes_nil)))))) (by decide +kernel)

theorem prime_2731 : Nat.Prime 2731 :=
  prime_of_pratt 3 [2, 3, 5, 7, 13] (primes_cons prime_2 (primes_cons prime_3 (primes_cons prime_5 (primes_cons prime_7 (primes_cons prime_13 primes_nil))))) (by decide +kernel)

theorem prime_2861 : Nat.Prime 2861 :=
  prime_of_pratt 2 [2, 2, 5, 11, 13] (primes_cons prime_2 (primes_cons prime_2 (primes_cons prime_5 (primes_cons prime_11 (primes_cons prime_13 primes_nil))))) (by decide +kernel)

theorem prime_4051 : Nat.Prime 4051 :=
  prime_of_pratt 10 [2, 3, 3, 3, 3, 5, 5] (primes_cons prime_2 (primes_cons prime_3 (primes_cons prime_3 (primes_cons prime_3 (primes_cons prime_3 (primes_cons prime_5 (primes_cons prime_5 primes_nil))))))) (by decide +kernel)

theorem prime_4423 : Nat.Prime 4423 :=
  prime_of_pratt 3 [2, 3, 11, 67] (primes_cons prime_2 (primes_cons prime_3 (primes_cons prime_11 (primes_cons prime_67 primes_nil)))) (by decide +kernel)

theorem prime_5323 : Nat.Prime 5323 :=
  prime_of_pratt 5 [2, 3, 887] (primes_cons prime_2 (primes_cons prime_3 (primes_cons prime_887 primes_nil))) (by decide +kernel)

theorem prime_7723 : Nat.Prime 7723 :=
  prime_of_pratt 3 [2, 3, 3, 3, 11, 13] (primes_cons prime_2 (primes_cons prime_3 (primes_cons prime_3 (primes_cons prime_3 (primes_cons prime_11 (primes_cons prime_13 primes_nil)))))) (by decide +kernel)

theorem prime_9349 : Nat.Prime 9349 :=
  prime_of_pratt 2 [2, 2, 3, 19, 41] (primes_cons prime_2 (primes_cons prime_2 (primes_cons prime_3 (primes_cons prime_19 (primes_cons prime_41 primes_nil))))) (by decide +kernel)

theorem prime_13441 : Nat.Prime 13441 :=
  prime_of_pratt 11 [2, 2, 2, 2, 2, 2, 2, 3, 5, 7] (primes_cons prime_2 (primes_cons prime_2 (primes_cons prime_2 (primes_cons prime_2 (primes_cons prime_2 (primes_cons prime_2 (primes_cons prime_2 (primes_cons prime_3 (primes_cons prime_5 (primes_cons prime_7 primes_nil)))))))))) (by decide +kernel)

theorem prime_16699 : Nat.Prime 16699 :=
  prime_of_pratt 3 [2, 3, 11, 11, 23] (primes_cons prime_2 (primes_cons prime_3 (primes_cons prime_11 (primes_cons prime_11 (primes_cons prime_23 primes_nil))))) (by decide +kernel)

theorem prime_20113 : Nat.Prime 20113 :=
  prime_of_pratt 10 [2, 2, 2, 2, 3, 419] (primes_cons prime_2 (primes_cons prime_2 (primes_cons prime_2 (primes_cons prime_2 (primes_cons prime_3 (primes_cons prime_419 primes_nil)))))) (by decide +kernel)

theorem prime_24809 : Nat.Prime 24809 :=
  prime_of_pratt 6 [2, 2, 2, 7, 443] (primes_cons prime_2 (primes_cons prime_2 (primes_cons prime_2 (primes_cons prime_7 (primes_cons prime_443 primes_nil))))) (by decide +kernel)

theorem prime_28181 : Nat.Prime 28181 :=
  prime_of_pratt 2 [2, 2, 5, 1409] (primes_cons prime_2 (primes_cons prime_2 (primes_cons prime_5 (primes_cons prime_1409 primes_nil)))) (by decide +kernel)

theorem prime_41201 : Nat.Prime 41201 :=
  prime_of_pratt 3 [2, 2, 2, 2, 5, 5, 103] (primes_cons prime_2 (primes_cons prime_2 (primes_cons prime_2 (primes_cons prime_2 (primes_cons prime_5 (primes_cons prime_5 (primes_cons prime_103 primes_nil))))))) (by decide +kernel)

theorem prime_85831 : Nat.Prime 85831 :=
  prime_of_pratt 3 [2, 3, 5, 2861] (primes_cons prime_2 (primes_cons prime_3 (primes_cons prime_5 (primes_cons prime_2861 primes_nil)))) (by decide +kernel)

theorem prime_96557 : Nat.Prime 96557 :=
  prime_of_pratt 2 [2, 2, 101, 239] (primes_cons prime_2 (primes_cons prime_2 (primes_cons prime_101 (primes_cons prime_239 primes_nil)))) (by decide +kernel)

theorem prime_120233 : Nat.Prime 120233 :=
  prime_of_pratt 3 [2, 2, 2, 7, 19, 113] (primes_cons prime_2 (primes_cons prime_2 (primes_cons prime_2 (primes_cons prime_7 (primes_cons prime_19 (primes_cons prime_113 primes_nil)))))) (by decide +kernel)

theorem prime_305873 : Nat.Prime 305873 :=
  prime_of_pratt 3 [2, 2, 2, 2, 7, 2731] (primes_cons prime_2 (primes_cons prime_2 (primes_cons prime_2 (primes_cons prime_2 (primes_cons prime_7 (primes_cons prime_2731 primes_nil)))))) (by decide +kernel)

theorem prime_1206781 : Nat.Prime 1206781 :=
  prime_of_pratt 10 [2, 2, 3, 5, 20113] (primes_cons prime_2 (primes_cons prime_2 (primes_cons prime_3 (primes_cons prime_5 (primes_cons prime_20113 primes_nil))))) (by decide +kernel)

theorem prime_1627771 : Nat.Prime 1627771 :=
  prime_of_pratt 3 [2, 3, 5, 29, 1871] (primes_cons prime_2 (primes_cons prime_3 (primes_cons prime_5 (primes_cons prime_29 (primes_cons prime_1871 primes_nil))))) (by decide +kernel)

theorem prime_4681609 : Nat.Prime 4681609 :=
  prime_of_pratt 23 [2, 2, 2, 3, 97, 2011] (primes_cons prime_2 (primes_cons prime_2 (primes_cons prime_2 (primes_cons prime_3 (primes_cons prime_97 (primes_cons prime_2011 primes_nil)))))) (by decide +kernel)

theorem prime_7240687 : Nat.Prime 7240687 :=
  prime_of_pratt 3 [2, 3, 1206781] (primes_cons prime_2 (primes_cons prime_3 (primes_cons prime_1206781 primes_nil))) (by decide +kernel)

theorem prime_13331831 : Nat.Prime 13331831 :=
  prime_of_pratt 13 [2, 5, 971, 1373] (primes_cons prime_2 (primes_cons prime_5 (primes_cons prime_971 (primes_cons prime_1373 primes_nil)))) (by decide +kernel)

theorem prime_44706919 : Nat.Prime 44706919 :=
  prime_of_pratt 6 [2, 3, 797, 9349] (primes_cons prime_2 (primes_cons prime_3 (primes_cons prime_797 (primes_cons prime_9349 primes_nil)))) (by decide +kernel)

theorem prime_107590001 : Nat.Prime 107590001 :=
  prime_of_pratt 3 [2, 2, 2, 2, 5, 5, 5, 5, 7, 29, 53] (primes_cons prime_2 (primes_cons prime_2 (primes_cons prime_2 (primes_cons prime_2 (primes_cons prime_5 (primes_cons prime_5 (primes_cons prime_5 (primes_cons prime_5 (primes_cons prime_7 (primes_cons prime_29 (primes_cons prime_53 primes_nil))))))))))) (by decide +kernel)

theorem prime_545358713 : Nat.Prime 545358713 :=
  prime_of_pratt 5 [2, 2, 2, 41, 59, 28181] (primes_cons prime_2 (primes_cons prime_2 (primes_cons prime_2 (primes_cons prime_41 (primes_cons prime_59 (primes_cons prime_28181 primes_nil)))))) (by decide +kernel)

theorem prime_297159362677 : Nat.Prime 297159362677 :=
  prime_of_pratt 2 [2, 2, 3, 3, 11, 461, 1627771] (primes_cons prime_2 (primes_cons prime_2 (primes_cons prime_3 (primes_cons prime_3 (primes_cons prime_11 (primes_cons prime_461 (primes_cons prime_1627771 primes_nil))))))) (by decide +kernel)

theorem prime_107361793816595537 : Nat.Prime 107361793816595537 :=
  prime_of_pratt 3 [2, 2, 2, 2, 16699, 85831, 4681609] (primes_cons prime_2 (primes_cons prime_2 (primes_cons prime_2 (primes_cons prime_2 (primes_cons prime_16699 (primes_cons prime_85831 (primes_cons prime_4681609 primes_nil))))))) (by decide +kernel)

theorem prime_173378833005251801 : Nat.Prime 173378833005251801 :=
  prime_of_pratt 6 [2, 2, 2, 5, 5, 2621, 24809, 13331831] (primes_cons prime_2 (primes_cons prime_2 (primes_cons prime_2 (primes_cons prime_5 (primes_cons prime_5 (primes_cons prime_2621 (primes_cons prime_24809 (primes_cons prime_13331831 primes_nil)))))))) (by decide +kernel)

theorem prime_174723607534414371449 : Nat.Prime 174723607534414371449 :=
  prime_of_pratt 3 [2, 2, 2, 17, 59, 4051, 120233, 44706919] (primes_cons prime_2 (primes_cons prime_2 (primes_cons prime_2 (primes_cons prime_17 (primes_cons prime_59 (primes_cons prime_4051 (primes_cons prime_120233 (primes_cons prime_44706919 primes_nil)))))))) (by decide +kernel)

theorem prime_22149492674086928081353 : Nat.Prime 22149492674086928081353 :=
  prime_of_pratt 5 [2, 2, 2, 3, 5323, 173378833005251801] (primes_cons prime_2 (primes_cons prime_2 (primes_cons prime_2 (primes_cons prime_3 (primes_cons prime_5323 (primes_cons prime_173378833005251801 primes_nil)))))) (by decide +kernel)

theorem prime_132896956044521568488119 : Nat.Prime 132896956044521568488119 :=
  prime_of_pratt 6 [2, 3, 22149492674086928081353] (primes_cons prime_2 (primes_cons prime_3 (primes_cons prime_22149492674086928081353 primes_nil))) (by decide +kernel)

theorem prime_29047611873442575647497758179 : Nat.Prime 29047611873442575647497758179 :=
  prime_of_pratt 2 [2, 293, 305873, 545358713, 297159362677] (primes_cons prime_2 (primes_cons prime_293 (primes_cons prime_305873 (primes_cons prime_545358713 (primes_cons prime_297159362677 primes_nil))))) (by decide +kernel)

theorem prime_341948486974166000522343609283189 : Nat.Prime 341948486974166000522343609283189 :=
  prime_of_pratt 2 [2, 2, 3, 3, 3, 109, 29047611873442575647497758179] (primes_cons prime_2 (primes_cons prime_2 (primes_cons prime_3 (primes_cons prime_3 (primes_cons prime_3 (primes_cons prime_109 (primes_cons prime_29047611873442575647497758179 primes_nil))))))) (by decide +kernel)

theorem prime_255515944373312847190720520512484175977 : Nat.Prime 255515944373312847190720520512484175977 :=
  prime_of_pratt 3 [2, 2, 2, 7, 7, 11, 1627, 2657, 4423, 41201, 96557, 7240687, 107590001] (primes_cons prime_2 (primes_cons prime_2 (primes_cons prime_2 (primes_cons prime_7 (primes_cons prime_7 (primes_cons prime_11 (primes_cons prime_1627 (primes_cons prime_2657 (primes_cons prime_4423 (primes_cons prime_41201 (primes_cons prime_96557 (primes_cons prime_7240687 (primes_cons prime_107590001 primes_nil))))))))))))) (by decide +kernel)

theorem prime_205115282021455665897114700593932402728804164701536103180137503955397371 : Nat.Prime 205115282021455665897114700593932402728804164701536103180137503955397371 :=
  prime_of_pratt 10 [2, 3, 5, 29, 29, 31, 7723, 132896956044521568488119, 255515944373312847190720520512484175977] (primes_cons prime_2 (primes_cons prime_3 (primes_cons prime_5 (primes_cons prime_29 (primes_cons prime_29 (primes_cons prime_31 (primes_cons prime_7723 (primes_cons prime_132896956044521568488119 (primes_cons prime_255515944373312847190720520512484175977 primes_nil))))))))) (by decide +kernel)

theorem n_prime : Nat.Prime Config.n :=
  prime_of_pratt 7 [2, 2, 2, 2, 2, 2, 3, 149, 631, 107361793816595537, 174723607534414371449, 341948486974166000522343609283189] (primes_cons prime_2 (primes_cons prime_2 (primes_cons prime_2 (primes_cons prime_2 (primes_cons prime_2 (primes_cons prime_2 (primes_cons prime_3 (primes_cons prime_149 (primes_cons prime_631 (primes_cons prime_107361793816595537 (primes_cons prime_174723607534414371449 (primes_cons prime_341948486974166000522343609283189 primes_nil)))))))))))) (by decide +kernel)

theorem p_prime : Nat.Prime Config.p :=
  prime_of_pratt 3 [2, 3, 7, 13441, 205115282021455665897114700593932402728804164701536103180137503955397371] (primes_cons prime_2 (primes_cons prime_3 (primes_cons prime_7 (primes_cons prime_13441 (primes_cons prime_205115282021455665897114700593932402728804164701536103180137503955397371 primes_nil))))) (by decide +kernel)

end Sys2Proof.Laws
end

