-- ==== Sys2Proof/Laws/State.lean ====
section
/-! SUPPORT. What each update of the state writes: one lemma per field per update; reading a register back; and the
initial state's fields. Nothing here unfolds a record update twice. -/

namespace Sys2Proof.Laws

open Sys2Proof.Machine

/-! ### `writeX` -/

@[simp] theorem writeX_x (s : State) (i : XReg) (v : Val) : (s.writeX i v).x = s.x.set i v := rfl
@[simp] theorem writeX_p (s : State) (i : XReg) (v : Val) : (s.writeX i v).p = s.p := rfl
@[simp] theorem writeX_mem (s : State) (i : XReg) (v : Val) : (s.writeX i v).mem = s.mem := rfl
@[simp] theorem writeX_ie (s : State) (i : XReg) (v : Val) : (s.writeX i v).ie = s.ie := rfl
@[simp] theorem writeX_phase (s : State) (i : XReg) (v : Val) : (s.writeX i v).phase = s.phase := rfl
@[simp] theorem writeX_done (s : State) (i : XReg) (v : Val) : (s.writeX i v).done = s.done := rfl
@[simp] theorem writeX_flag (s : State) (i : XReg) (v : Val) : (s.writeX i v).flag = s.flag := rfl
@[simp] theorem writeX_busErr (s : State) (i : XReg) (v : Val) : (s.writeX i v).busErr = s.busErr := rfl
@[simp] theorem writeX_cmd (s : State) (i : XReg) (v : Val) : (s.writeX i v).cmd = s.cmd := rfl
@[simp] theorem writeX_errcode (s : State) (i : XReg) (v : Val) : (s.writeX i v).errcode = s.errcode := rfl
@[simp] theorem writeX_msgLen (s : State) (i : XReg) (v : Val) : (s.writeX i v).msgLen = s.msgLen := rfl
@[simp] theorem writeX_txtLen (s : State) (i : XReg) (v : Val) : (s.writeX i v).txtLen = s.txtLen := rfl
@[simp] theorem writeX_msgMax (s : State) (i : XReg) (v : Val) : (s.writeX i v).msgMax = s.msgMax := rfl
@[simp] theorem writeX_pending (s : State) (i : XReg) (v : Val) : (s.writeX i v).pending = s.pending := rfl
@[simp] theorem writeX_draws (s : State) (i : XReg) (v : Val) : (s.writeX i v).draws = s.draws := rfl
@[simp] theorem writeX_response (s : State) (i : XReg) (v : Val) : (s.writeX i v).response = s.response := rfl

/-! ### `writePReg` -/

@[simp] theorem writePReg_x (s : State) (i : PReg) (r : PointReg) : (s.writePReg i r).x = s.x := rfl
@[simp] theorem writePReg_p (s : State) (i : PReg) (r : PointReg) : (s.writePReg i r).p = s.p.set i r := rfl
@[simp] theorem writePReg_mem (s : State) (i : PReg) (r : PointReg) : (s.writePReg i r).mem = s.mem := rfl
@[simp] theorem writePReg_ie (s : State) (i : PReg) (r : PointReg) : (s.writePReg i r).ie = s.ie := rfl
@[simp] theorem writePReg_phase (s : State) (i : PReg) (r : PointReg) : (s.writePReg i r).phase = s.phase := rfl
@[simp] theorem writePReg_done (s : State) (i : PReg) (r : PointReg) : (s.writePReg i r).done = s.done := rfl
@[simp] theorem writePReg_flag (s : State) (i : PReg) (r : PointReg) : (s.writePReg i r).flag = s.flag := rfl
@[simp] theorem writePReg_busErr (s : State) (i : PReg) (r : PointReg) : (s.writePReg i r).busErr = s.busErr := rfl
@[simp] theorem writePReg_cmd (s : State) (i : PReg) (r : PointReg) : (s.writePReg i r).cmd = s.cmd := rfl
@[simp] theorem writePReg_errcode (s : State) (i : PReg) (r : PointReg) : (s.writePReg i r).errcode = s.errcode := rfl
@[simp] theorem writePReg_msgLen (s : State) (i : PReg) (r : PointReg) : (s.writePReg i r).msgLen = s.msgLen := rfl
@[simp] theorem writePReg_txtLen (s : State) (i : PReg) (r : PointReg) : (s.writePReg i r).txtLen = s.txtLen := rfl
@[simp] theorem writePReg_msgMax (s : State) (i : PReg) (r : PointReg) : (s.writePReg i r).msgMax = s.msgMax := rfl
@[simp] theorem writePReg_pending (s : State) (i : PReg) (r : PointReg) : (s.writePReg i r).pending = s.pending := rfl
@[simp] theorem writePReg_draws (s : State) (i : PReg) (r : PointReg) : (s.writePReg i r).draws = s.draws := rfl
@[simp] theorem writePReg_response (s : State) (i : PReg) (r : PointReg) : (s.writePReg i r).response = s.response := rfl

/-! ### `writeP` -/

@[simp] theorem writeP_x (s : State) (i : PReg) (pt : Point) : (s.writeP i pt).x = s.x := rfl
@[simp] theorem writeP_p (s : State) (i : PReg) (pt : Point) : (s.writeP i pt).p = s.p.set i pt.stored := rfl
@[simp] theorem writeP_mem (s : State) (i : PReg) (pt : Point) : (s.writeP i pt).mem = s.mem := rfl
@[simp] theorem writeP_ie (s : State) (i : PReg) (pt : Point) : (s.writeP i pt).ie = s.ie := rfl
@[simp] theorem writeP_phase (s : State) (i : PReg) (pt : Point) : (s.writeP i pt).phase = s.phase := rfl
@[simp] theorem writeP_done (s : State) (i : PReg) (pt : Point) : (s.writeP i pt).done = s.done := rfl
@[simp] theorem writeP_flag (s : State) (i : PReg) (pt : Point) : (s.writeP i pt).flag = s.flag := rfl
@[simp] theorem writeP_busErr (s : State) (i : PReg) (pt : Point) : (s.writeP i pt).busErr = s.busErr := rfl
@[simp] theorem writeP_cmd (s : State) (i : PReg) (pt : Point) : (s.writeP i pt).cmd = s.cmd := rfl
@[simp] theorem writeP_errcode (s : State) (i : PReg) (pt : Point) : (s.writeP i pt).errcode = s.errcode := rfl
@[simp] theorem writeP_msgLen (s : State) (i : PReg) (pt : Point) : (s.writeP i pt).msgLen = s.msgLen := rfl
@[simp] theorem writeP_txtLen (s : State) (i : PReg) (pt : Point) : (s.writeP i pt).txtLen = s.txtLen := rfl
@[simp] theorem writeP_msgMax (s : State) (i : PReg) (pt : Point) : (s.writeP i pt).msgMax = s.msgMax := rfl
@[simp] theorem writeP_pending (s : State) (i : PReg) (pt : Point) : (s.writeP i pt).pending = s.pending := rfl
@[simp] theorem writeP_draws (s : State) (i : PReg) (pt : Point) : (s.writeP i pt).draws = s.draws := rfl
@[simp] theorem writeP_response (s : State) (i : PReg) (pt : Point) : (s.writeP i pt).response = s.response := rfl

/-! ### `writeFlag` -/

@[simp] theorem writeFlag_x (s : State) (b : Bool) : (s.writeFlag b).x = s.x := rfl
@[simp] theorem writeFlag_p (s : State) (b : Bool) : (s.writeFlag b).p = s.p := rfl
@[simp] theorem writeFlag_mem (s : State) (b : Bool) : (s.writeFlag b).mem = s.mem := rfl
@[simp] theorem writeFlag_ie (s : State) (b : Bool) : (s.writeFlag b).ie = s.ie := rfl
@[simp] theorem writeFlag_phase (s : State) (b : Bool) : (s.writeFlag b).phase = s.phase := rfl
@[simp] theorem writeFlag_done (s : State) (b : Bool) : (s.writeFlag b).done = s.done := rfl
@[simp] theorem writeFlag_flag (s : State) (b : Bool) : (s.writeFlag b).flag = b := rfl
@[simp] theorem writeFlag_busErr (s : State) (b : Bool) : (s.writeFlag b).busErr = s.busErr := rfl
@[simp] theorem writeFlag_cmd (s : State) (b : Bool) : (s.writeFlag b).cmd = s.cmd := rfl
@[simp] theorem writeFlag_errcode (s : State) (b : Bool) : (s.writeFlag b).errcode = s.errcode := rfl
@[simp] theorem writeFlag_msgLen (s : State) (b : Bool) : (s.writeFlag b).msgLen = s.msgLen := rfl
@[simp] theorem writeFlag_txtLen (s : State) (b : Bool) : (s.writeFlag b).txtLen = s.txtLen := rfl
@[simp] theorem writeFlag_msgMax (s : State) (b : Bool) : (s.writeFlag b).msgMax = s.msgMax := rfl
@[simp] theorem writeFlag_pending (s : State) (b : Bool) : (s.writeFlag b).pending = s.pending := rfl
@[simp] theorem writeFlag_draws (s : State) (b : Bool) : (s.writeFlag b).draws = s.draws := rfl
@[simp] theorem writeFlag_response (s : State) (b : Bool) : (s.writeFlag b).response = s.response := rfl

/-! ### `commitText` -/

@[simp] theorem commitText_x (s : State) (t : List Byte) : (s.commitText t).x = s.x := rfl
@[simp] theorem commitText_p (s : State) (t : List Byte) : (s.commitText t).p = s.p := rfl
@[simp] theorem commitText_mem (s : State) (t : List Byte) : (s.commitText t).mem = s.mem.writeBytes Config.txtBase (t ++ List.replicate (Config.txtMax - t.length) 0#8) := rfl
@[simp] theorem commitText_ie (s : State) (t : List Byte) : (s.commitText t).ie = s.ie := rfl
@[simp] theorem commitText_phase (s : State) (t : List Byte) : (s.commitText t).phase = s.phase := rfl
@[simp] theorem commitText_done (s : State) (t : List Byte) : (s.commitText t).done = s.done := rfl
@[simp] theorem commitText_flag (s : State) (t : List Byte) : (s.commitText t).flag = s.flag := rfl
@[simp] theorem commitText_busErr (s : State) (t : List Byte) : (s.commitText t).busErr = s.busErr := rfl
@[simp] theorem commitText_cmd (s : State) (t : List Byte) : (s.commitText t).cmd = s.cmd := rfl
@[simp] theorem commitText_errcode (s : State) (t : List Byte) : (s.commitText t).errcode = s.errcode := rfl
@[simp] theorem commitText_msgLen (s : State) (t : List Byte) : (s.commitText t).msgLen = s.msgLen := rfl
@[simp] theorem commitText_txtLen (s : State) (t : List Byte) : (s.commitText t).txtLen = BitVec.ofNat 32 t.length := rfl
@[simp] theorem commitText_msgMax (s : State) (t : List Byte) : (s.commitText t).msgMax = s.msgMax := rfl
@[simp] theorem commitText_pending (s : State) (t : List Byte) : (s.commitText t).pending = s.pending := rfl
@[simp] theorem commitText_draws (s : State) (t : List Byte) : (s.commitText t).draws = s.draws := rfl
@[simp] theorem commitText_response (s : State) (t : List Byte) : (s.commitText t).response = s.response := rfl

/-! ### `accept` -/

@[simp] theorem accept_x (s : State) (w : Word32) : (s.accept w).x = s.x := rfl
@[simp] theorem accept_p (s : State) (w : Word32) : (s.accept w).p = s.p := rfl
@[simp] theorem accept_mem (s : State) (w : Word32) : (s.accept w).mem = s.mem := rfl
@[simp] theorem accept_ie (s : State) (w : Word32) : (s.accept w).ie = s.ie := rfl
@[simp] theorem accept_phase (s : State) (w : Word32) : (s.accept w).phase = .busy := rfl
@[simp] theorem accept_done (s : State) (w : Word32) : (s.accept w).done = false := rfl
@[simp] theorem accept_flag (s : State) (w : Word32) : (s.accept w).flag = s.flag := rfl
@[simp] theorem accept_busErr (s : State) (w : Word32) : (s.accept w).busErr = s.busErr := rfl
@[simp] theorem accept_cmd (s : State) (w : Word32) : (s.accept w).cmd = w := rfl
@[simp] theorem accept_errcode (s : State) (w : Word32) : (s.accept w).errcode = okCode := rfl
@[simp] theorem accept_msgLen (s : State) (w : Word32) : (s.accept w).msgLen = s.msgLen := rfl
@[simp] theorem accept_txtLen (s : State) (w : Word32) : (s.accept w).txtLen = s.txtLen := rfl
@[simp] theorem accept_msgMax (s : State) (w : Word32) : (s.accept w).msgMax = s.msgMax := rfl
@[simp] theorem accept_pending (s : State) (w : Word32) : (s.accept w).pending = s.pending := rfl
@[simp] theorem accept_draws (s : State) (w : Word32) : (s.accept w).draws = s.draws := rfl
@[simp] theorem accept_response (s : State) (w : Word32) : (s.accept w).response = s.response := rfl

/-! ### `completeWith` -/

@[simp] theorem completeWith_x (s : State) (c : BitVec 8) : (s.completeWith c).x = s.x := rfl
@[simp] theorem completeWith_p (s : State) (c : BitVec 8) : (s.completeWith c).p = s.p := rfl
@[simp] theorem completeWith_mem (s : State) (c : BitVec 8) : (s.completeWith c).mem = s.mem := rfl
@[simp] theorem completeWith_ie (s : State) (c : BitVec 8) : (s.completeWith c).ie = s.ie := rfl
@[simp] theorem completeWith_phase (s : State) (c : BitVec 8) : (s.completeWith c).phase = .idle := rfl
@[simp] theorem completeWith_done (s : State) (c : BitVec 8) : (s.completeWith c).done = true := rfl
@[simp] theorem completeWith_flag (s : State) (c : BitVec 8) : (s.completeWith c).flag = s.flag := rfl
@[simp] theorem completeWith_busErr (s : State) (c : BitVec 8) : (s.completeWith c).busErr = s.busErr := rfl
@[simp] theorem completeWith_cmd (s : State) (c : BitVec 8) : (s.completeWith c).cmd = s.cmd := rfl
@[simp] theorem completeWith_errcode (s : State) (c : BitVec 8) : (s.completeWith c).errcode = c := rfl
@[simp] theorem completeWith_msgLen (s : State) (c : BitVec 8) : (s.completeWith c).msgLen = s.msgLen := rfl
@[simp] theorem completeWith_txtLen (s : State) (c : BitVec 8) : (s.completeWith c).txtLen = s.txtLen := rfl
@[simp] theorem completeWith_msgMax (s : State) (c : BitVec 8) : (s.completeWith c).msgMax = s.msgMax := rfl
@[simp] theorem completeWith_pending (s : State) (c : BitVec 8) : (s.completeWith c).pending = s.pending := rfl
@[simp] theorem completeWith_draws (s : State) (c : BitVec 8) : (s.completeWith c).draws = s.draws := rfl
@[simp] theorem completeWith_response (s : State) (c : BitVec 8) : (s.completeWith c).response = s.response := rfl

/-! ### `addDraw` -/

@[simp] theorem addDraw_x (s : State) (d : Draw) : (s.addDraw d).x = s.x := rfl
@[simp] theorem addDraw_p (s : State) (d : Draw) : (s.addDraw d).p = s.p := rfl
@[simp] theorem addDraw_mem (s : State) (d : Draw) : (s.addDraw d).mem = s.mem := rfl
@[simp] theorem addDraw_ie (s : State) (d : Draw) : (s.addDraw d).ie = s.ie := rfl
@[simp] theorem addDraw_phase (s : State) (d : Draw) : (s.addDraw d).phase = s.phase := rfl
@[simp] theorem addDraw_done (s : State) (d : Draw) : (s.addDraw d).done = s.done := rfl
@[simp] theorem addDraw_flag (s : State) (d : Draw) : (s.addDraw d).flag = s.flag := rfl
@[simp] theorem addDraw_busErr (s : State) (d : Draw) : (s.addDraw d).busErr = s.busErr := rfl
@[simp] theorem addDraw_cmd (s : State) (d : Draw) : (s.addDraw d).cmd = s.cmd := rfl
@[simp] theorem addDraw_errcode (s : State) (d : Draw) : (s.addDraw d).errcode = s.errcode := rfl
@[simp] theorem addDraw_msgLen (s : State) (d : Draw) : (s.addDraw d).msgLen = s.msgLen := rfl
@[simp] theorem addDraw_txtLen (s : State) (d : Draw) : (s.addDraw d).txtLen = s.txtLen := rfl
@[simp] theorem addDraw_msgMax (s : State) (d : Draw) : (s.addDraw d).msgMax = s.msgMax := rfl
@[simp] theorem addDraw_pending (s : State) (d : Draw) : (s.addDraw d).pending = s.pending := rfl
@[simp] theorem addDraw_draws (s : State) (d : Draw) : (s.addDraw d).draws = s.draws ++ [d] := rfl
@[simp] theorem addDraw_response (s : State) (d : Draw) : (s.addDraw d).response = s.response := rfl

/-! ### `writeStatus` -/

@[simp] theorem writeStatus_x (s : State) (d : Word32) : (s.writeStatus d).x = s.x := rfl
@[simp] theorem writeStatus_p (s : State) (d : Word32) : (s.writeStatus d).p = s.p := rfl
@[simp] theorem writeStatus_mem (s : State) (d : Word32) : (s.writeStatus d).mem = s.mem := rfl
@[simp] theorem writeStatus_ie (s : State) (d : Word32) : (s.writeStatus d).ie = s.ie := rfl
@[simp] theorem writeStatus_phase (s : State) (d : Word32) : (s.writeStatus d).phase = s.phase := rfl
@[simp] theorem writeStatus_done (s : State) (d : Word32) : (s.writeStatus d).done = (s.done && !d.getLsbD 1) := rfl
@[simp] theorem writeStatus_flag (s : State) (d : Word32) : (s.writeStatus d).flag = s.flag := rfl
@[simp] theorem writeStatus_busErr (s : State) (d : Word32) : (s.writeStatus d).busErr = (s.busErr && !d.getLsbD 4) := rfl
@[simp] theorem writeStatus_cmd (s : State) (d : Word32) : (s.writeStatus d).cmd = s.cmd := rfl
@[simp] theorem writeStatus_errcode (s : State) (d : Word32) : (s.writeStatus d).errcode = s.errcode := rfl
@[simp] theorem writeStatus_msgLen (s : State) (d : Word32) : (s.writeStatus d).msgLen = s.msgLen := rfl
@[simp] theorem writeStatus_txtLen (s : State) (d : Word32) : (s.writeStatus d).txtLen = s.txtLen := rfl
@[simp] theorem writeStatus_msgMax (s : State) (d : Word32) : (s.writeStatus d).msgMax = s.msgMax := rfl
@[simp] theorem writeStatus_pending (s : State) (d : Word32) : (s.writeStatus d).pending = s.pending := rfl
@[simp] theorem writeStatus_draws (s : State) (d : Word32) : (s.writeStatus d).draws = s.draws := rfl
@[simp] theorem writeStatus_response (s : State) (d : Word32) : (s.writeStatus d).response = s.response := rfl

/-! ### `hardReset` -/

@[simp] theorem hardReset_x (s : State) : (s.hardReset).x = Vector.replicate 16 0#256 := rfl
@[simp] theorem hardReset_p (s : State) : (s.hardReset).p = Vector.replicate 8 ⟨true, 0#256, 0#256⟩ := rfl
@[simp] theorem hardReset_mem (s : State) : (s.hardReset).mem = [] := rfl
@[simp] theorem hardReset_ie (s : State) : (s.hardReset).ie = false := rfl
@[simp] theorem hardReset_phase (s : State) : (s.hardReset).phase = .idle := rfl
@[simp] theorem hardReset_done (s : State) : (s.hardReset).done = false := rfl
@[simp] theorem hardReset_flag (s : State) : (s.hardReset).flag = false := rfl
@[simp] theorem hardReset_busErr (s : State) : (s.hardReset).busErr = false := rfl
@[simp] theorem hardReset_cmd (s : State) : (s.hardReset).cmd = 0#32 := rfl
@[simp] theorem hardReset_errcode (s : State) : (s.hardReset).errcode = 0#8 := rfl
@[simp] theorem hardReset_msgLen (s : State) : (s.hardReset).msgLen = 0#32 := rfl
@[simp] theorem hardReset_txtLen (s : State) : (s.hardReset).txtLen = 0#32 := rfl
@[simp] theorem hardReset_msgMax (s : State) : (s.hardReset).msgMax = s.msgMax := rfl
@[simp] theorem hardReset_pending (s : State) : (s.hardReset).pending = s.pending := rfl
@[simp] theorem hardReset_draws (s : State) : (s.hardReset).draws = s.draws := rfl
@[simp] theorem hardReset_response (s : State) : (s.hardReset).response = s.response := rfl

/-! ### Reading registers back -/

@[simp] theorem readX_writeX_self (s : State) (i : XReg) (v : Val) : (s.writeX i v).readX i = v := by
  simp [State.readX, State.writeX]

theorem readX_writeX_of_ne (s : State) {i j : XReg} (v : Val) (h : i ≠ j) : (s.writeX i v).readX j = s.readX j := by
  simp only [State.readX, State.writeX, Fin.getElem_fin]
  exact Vector.getElem_set_ne _ _ (by simpa [Fin.ext_iff] using h)

@[simp] theorem readPReg_writePReg_self (s : State) (i : PReg) (r : PointReg) :
    (s.writePReg i r).readPReg i = r := by
  simp [State.readPReg, State.writePReg]

theorem readPReg_writePReg_of_ne (s : State) {i j : PReg} (r : PointReg) (h : i ≠ j) :
    (s.writePReg i r).readPReg j = s.readPReg j := by
  simp only [State.readPReg, State.writePReg, Fin.getElem_fin]
  exact Vector.getElem_set_ne _ _ (by simpa [Fin.ext_iff] using h)

/-- A value written is the value read: the tag and the coordinates survive (R41). -/
@[simp] theorem value_stored (pt : Point) : pt.stored.value = pt := by cases pt <;> rfl

@[simp] theorem readP_writeP_self (s : State) (i : PReg) (pt : Point) : (s.writeP i pt).readP i = pt := by
  simp [State.readP, State.writeP]

theorem readP_writeP_of_ne (s : State) {i j : PReg} (pt : Point) (h : i ≠ j) :
    (s.writeP i pt).readP j = s.readP j := by
  simp [State.readP, State.writeP, readPReg_writePReg_of_ne s _ h]

/-- Registers depend on their file alone. -/
theorem readX_congr {s t : State} (h : t.x = s.x) (i : XReg) : t.readX i = s.readX i := by
  simp [State.readX, h]

theorem readPReg_congr {s t : State} (h : t.p = s.p) (i : PReg) : t.readPReg i = s.readPReg i := by
  simp [State.readPReg, h]

theorem readP_congr {s t : State} (h : t.p = s.p) (i : PReg) : t.readP i = s.readP i := by
  simp [State.readP, readPReg_congr h]

@[simp] theorem readX_completeWith (s : State) (c : BitVec 8) (i : XReg) : (s.completeWith c).readX i = s.readX i := rfl

@[simp] theorem readPReg_completeWith (s : State) (c : BitVec 8) (i : PReg) :
    (s.completeWith c).readPReg i = s.readPReg i := rfl

@[simp] theorem readP_completeWith (s : State) (c : BitVec 8) (i : PReg) : (s.completeWith c).readP i = s.readP i := rfl

/-! ### Completion -/

@[simp] theorem complete_ok (s s' : State) : s.complete (.ok s') = s'.completeWith okCode := rfl

@[simp] theorem complete_error (s : State) (e : Err) : s.complete (.error e) = s.completeWith e.code := rfl

/-- Every command but one that waits ends so: whatever the result, ERRCODE, DONE and the phase are those of R384. -/
theorem complete_cases (s : State) (r : Except Err State) :
    (∃ s', r = .ok s' ∧ s.complete r = s'.completeWith okCode) ∨
      (∃ e, r = .error e ∧ s.complete r = s.completeWith e.code) := by
  cases r with
  | ok s' => exact .inl ⟨s', rfl, rfl⟩
  | error e => exact .inr ⟨e, rfl, rfl⟩

@[simp] theorem finish_ok (s s' : State) : finish s (.ok s') = .next (s'.completeWith okCode) := rfl

@[simp] theorem finish_error (s : State) (e : Err) : finish s (.error e) = .next (s.completeWith e.code) := rfl

/-- `finish` never stops the machine. -/
theorem finish_next (s : State) (r : Except Err State) : finish s r = .next (s.complete r) := rfl

theorem errCode_ne_ok (e : Err) : e.code ≠ okCode := by cases e <;> decide

theorem toNat_toVal {v : Nat} (h : v < 2 ^ 256) : (toVal v).toNat = v := by
  rw [toVal, BitVec.toNat_ofNat, Nat.mod_eq_of_lt h]

end Sys2Proof.Laws
end

