-- ==== Sys2Proof/Laws/Arith.lean ====
section
/-! SUPPORT. Modular arithmetic: what `residue` and `invMod` are. -/

namespace Sys2Proof.Laws

open Sys2Proof.Machine

@[simp] theorem force_eq {α : Type} (x : Nat) (f : Nat → α) : force x f = f x := by
  cases x <;> rfl

/-! ### The residue -/

theorem residue_lt (a : Int) {m : Nat} (h : 0 < m) : residue a m < m := by
  have h1 := Int.emod_lt_of_pos a (b := (m : Int)) (by omega)
  have h2 := Int.emod_nonneg a (b := (m : Int)) (by omega)
  unfold residue; omega

/-- The residue is congruent to its integer. -/
theorem residue_cast (a : Int) {m : Nat} (h : 0 < m) : ((residue a m : Nat) : Int) = a % m :=
  Int.toNat_of_nonneg (Int.emod_nonneg a (by omega))

@[simp] theorem residue_natCast (a m : Nat) : residue (a : Int) m = a % m := by
  unfold residue; rw [← Int.natCast_emod]; rfl

/-- In the ring of residues, `residue` is the integer. -/
theorem residue_zmod (a : Int) {m : Nat} (h : 0 < m) : ((residue a m : Nat) : ZMod m) = (a : ZMod m) := by
  have h1 := residue_cast a h
  have h2 : (((residue a m : Nat) : Int) : ZMod m) = ((a % m : Int) : ZMod m) := by rw [h1]
  rw [Int.cast_natCast] at h2
  rw [h2, ZMod.intCast_mod]

/-! ### The moduli -/

theorem modulus_prime (m : Modulus) : Nat.Prime (modulusValue m) := by
  cases m
  · exact p_prime
  · exact n_prime

theorem modulus_lt (m : Modulus) : modulusValue m < 2 ^ 256 := by cases m <;> decide

theorem modulus_gt (m : Modulus) : 2 ^ 255 < modulusValue m := by cases m <;> decide

theorem modulus_pos (m : Modulus) : 0 < modulusValue m := (modulus_prime m).pos

/-! ### The inverse -/

/-- The extended Euclidean loop ends with a multiplier of the gcd, when the product of its remainders is small enough
for its fuel: the product halves every round. -/
theorem euclidLoop_spec {m a : Nat} (hm : 0 < m) (fuel : Nat) {r0 r1 t0 t1 : Nat} (hr : r1 ≤ r0)
    (hf : r0 * r1 < 2 ^ fuel) (h0 : t0 * a ≡ r0 [MOD m]) (h1 : t1 * a ≡ r1 [MOD m]) (ht0 : t0 < m) (ht1 : t1 < m) :
    euclidLoop m (fuel + 1) r0 r1 t0 t1 * a ≡ Nat.gcd r0 r1 [MOD m] ∧ euclidLoop m (fuel + 1) r0 r1 t0 t1 < m := by
  induction fuel generalizing r0 r1 t0 t1 with
  | zero =>
    have hz : r1 = 0 := by
      rcases Nat.eq_zero_or_pos r1 with h | h
      · exact h
      · have : 1 ≤ r0 * r1 := Nat.mul_pos (by omega) h
        simp at hf; omega
    subst hz
    simpa [euclidLoop] using ⟨h0, ht0⟩
  | succ f ih =>
    rw [euclidLoop]
    split
    · rename_i hz; subst hz; simpa using ⟨h0, ht0⟩
    · rename_i hne
      simp only [force_eq]
      have hpos : 0 < r1 := Nat.pos_of_ne_zero hne
      have hlt : r0 % r1 < r1 := Nat.mod_lt _ hpos
      have hdm := Nat.div_add_mod r0 r1
      have hq : 1 ≤ r0 / r1 := Nat.div_pos hr hpos
      have hhalf : 2 * (r0 % r1) ≤ r0 := by nlinarith
      have hfuel : r1 * (r0 % r1) < 2 ^ f := by
        have : 2 * (r1 * (r0 % r1)) ≤ r0 * r1 := by nlinarith
        rw [pow_succ] at hf; omega
      rw [Nat.gcd_comm r0 r1, Nat.gcd_rec r1 r0, Nat.gcd_comm]
      refine ih hlt.le hfuel h1 ?_ ht1 (Nat.mod_lt _ hm)
      have hsub : t0 + (m - r0 / r1 * t1 % m) + r0 / r1 * t1 ≡ t0 [MOD m] := by
        have hle : r0 / r1 * t1 % m ≤ m := (Nat.mod_lt _ hm).le
        calc t0 + (m - r0 / r1 * t1 % m) + r0 / r1 * t1
            ≡ t0 + (m - r0 / r1 * t1 % m) + r0 / r1 * t1 % m [MOD m] := ((Nat.mod_modEq _ m).symm).add_left _
          _ = t0 + m := by omega
          _ ≡ t0 [MOD m] := by simp [Nat.ModEq]
      have key : (t0 + (m - r0 / r1 * t1 % m)) % m * a + r0 / r1 * r1 ≡ r0 % r1 + r0 / r1 * r1 [MOD m] := by
        calc (t0 + (m - r0 / r1 * t1 % m)) % m * a + r0 / r1 * r1
            ≡ (t0 + (m - r0 / r1 * t1 % m)) * a + r0 / r1 * (t1 * a) [MOD m] :=
              ((Nat.mod_modEq _ m).mul_right a).add (h1.symm.mul_left _)
          _ = (t0 + (m - r0 / r1 * t1 % m) + r0 / r1 * t1) * a := by ring
          _ ≡ t0 * a [MOD m] := hsub.mul_right a
          _ ≡ r0 [MOD m] := h0
          _ = r0 % r1 + r0 / r1 * r1 := by rw [Nat.mul_comm (r0 / r1)]; omega
      exact Nat.ModEq.add_right_cancel' _ key

/-- The inverse of R13 and R145: in [1, m - 1], with product 1 modulo m. -/
theorem invMod_spec {m a : Nat} (hm : 1 < m) (hlt : m < 2 ^ 256) (hc : Nat.Coprime m a) :
    a * invMod m a % m = 1 ∧ 0 < invMod m a ∧ invMod m a < m := by
  have hp : m * (a % m) < 2 ^ 513 := by
    have h1 : a % m < 2 ^ 256 := lt_trans (Nat.mod_lt _ (by omega)) hlt
    calc m * (a % m) < 2 ^ 256 * 2 ^ 256 := Nat.mul_lt_mul'' hlt h1
      _ < 2 ^ 513 := by rw [← pow_add]; exact Nat.pow_lt_pow_right (by norm_num) (by norm_num)
  obtain ⟨hs, hl⟩ := euclidLoop_spec (a := a) (by omega) 513 (Nat.mod_lt a (by omega)).le hp
    (by simp [Nat.ModEq]) (by simp [Nat.ModEq]) (by omega : 0 < m) hm
  have hg : Nat.gcd m (a % m) = 1 := by rw [Nat.gcd_comm, ← Nat.gcd_rec]; exact hc
  rw [hg] at hs
  have hone : a * invMod m a % m = 1 := by
    rw [Nat.mul_comm]
    exact Eq.trans hs (Nat.mod_eq_of_lt hm)
  refine ⟨hone, Nat.pos_of_ne_zero fun hz => ?_, hl⟩
  rw [hz] at hone; simp at hone

/-- Modulo p and modulo n every value but a multiple of the modulus has its inverse (R145). -/
theorem invMod_modulus (m : Modulus) {a : Nat} (ha : a % modulusValue m ≠ 0) :
    a * invMod (modulusValue m) a % modulusValue m = 1 ∧ 0 < invMod (modulusValue m) a ∧
      invMod (modulusValue m) a < modulusValue m :=
  invMod_spec (modulus_prime m).one_lt (modulus_lt m)
    ((modulus_prime m).coprime_iff_not_dvd.2 fun h => ha (Nat.mod_eq_zero_of_dvd h))

end Sys2Proof.Laws
end

