-- ==== Sys2Proof/Laws/Memory.lean ====
section
/-! SUPPORT. The memory of the buffers: read after write, the canonical form kept by every operation, and what a run of
bytes written or read is. -/

namespace Sys2Proof.Laws

open Sys2Proof.Machine

/-- Every entry of the memory lies at an address that satisfies `ok`. -/
def AddrsIn (ok : Nat → Prop) (m : Memory) : Prop := ∀ c ∈ m, ok c.1

/-! ### Read after write -/

@[simp] theorem read_nil (a : Nat) : Memory.read [] a = 0#8 := rfl

theorem read_cons (c : Host.Cell) (m : Memory) (a : Nat) :
    Memory.read (c :: m) a = if c.1 = a then c.2 else Memory.read m a := rfl

/-- No entry, no value: an address below every entry reads as unlisted. -/
theorem read_of_lt {m : Memory} {a : Nat} (h : ∀ c ∈ m, a < c.1) : Memory.read m a = 0#8 := by
  induction m with
  | nil => rfl
  | cons c m ih =>
    rw [read_cons, if_neg (by have := h c (by simp); omega)]
    exact ih fun d hd => h d (by simp [hd])

theorem write_cons (c : Host.Cell) (m : Memory) (a : Nat) (v : Byte) :
    Memory.write (c :: m) a v =
      if c.1 < a then c :: Memory.write m a v
      else if v = 0#8 then (if c.1 = a then m else c :: m) else (a, v) :: (if c.1 = a then m else c :: m) := rfl

/-- The entries after a write are the new one and old ones. -/
theorem mem_write {m : Memory} {a : Nat} {v : Byte} {c : Host.Cell} (h : c ∈ Memory.write m a v) :
    (c = (a, v) ∧ v ≠ 0#8) ∨ c ∈ m := by
  induction m with
  | nil =>
    by_cases hv : v = 0#8 <;> simp_all [Memory.write, unlistedByte]
  | cons d m ih =>
    rw [write_cons] at h
    split at h
    · rcases List.mem_cons.1 h with rfl | h
      · simp
      · rcases ih h with h | h
        · exact .inl h
        · simp [h]
    · split at h
      · split at h <;> simp_all
      · rcases List.mem_cons.1 h with rfl | h
        · exact .inl ⟨rfl, by assumption⟩
        · split at h <;> simp_all

/-- Every write keeps the canonical form. -/
theorem write_wf {m : Memory} (h : Memory.wf m) (a : Nat) (v : Byte) : Memory.wf (Memory.write m a v) := by
  induction m with
  | nil =>
    by_cases hv : v = 0#8 <;> simp_all [Memory.write, unlistedByte, Memory.wf]
  | cons c m ih =>
    obtain ⟨hs, hz⟩ := h
    rw [List.pairwise_cons] at hs
    have hm : Memory.wf m := ⟨hs.2, fun d hd => hz d (by simp [hd])⟩
    rw [write_cons]
    split
    · rename_i hlt
      refine ⟨List.pairwise_cons.2 ⟨fun d hd => ?_, (ih hm).1⟩, fun d hd => ?_⟩
      · rcases mem_write hd with ⟨rfl, -⟩ | hd
        · exact hlt
        · exact hs.1 d hd
      · rcases List.mem_cons.1 hd with rfl | hd
        · exact hz _ (by simp)
        · exact (ih hm).2 d hd
    · rename_i hge
      have htail : Memory.wf (if c.1 = a then m else c :: m) := by
        split
        · exact hm
        · exact ⟨List.pairwise_cons.2 hs, hz⟩
      split
      · exact htail
      · rename_i hv
        refine ⟨List.pairwise_cons.2 ⟨fun d hd => ?_, htail.1⟩, fun d hd => ?_⟩
        · split at hd
          · rename_i heq; have := hs.1 d hd; omega
          · rcases List.mem_cons.1 hd with rfl | hd
            · show a < d.1; omega
            · have := hs.1 d hd; show a < d.1; omega
        · rcases List.mem_cons.1 hd with rfl | hd
          · exact hv
          · exact htail.2 d hd

/-- A read after a write: the new byte at its address, the old ones elsewhere. -/
theorem read_write {m : Memory} (h : Memory.wf m) (a a' : Nat) (v : Byte) :
    Memory.read (Memory.write m a v) a' = if a' = a then v else Memory.read m a' := by
  induction m with
  | nil =>
    simp only [Memory.write, unlistedByte]
    by_cases hv : v = 0#8 <;> by_cases ha : a' = a <;> simp_all [read_cons]
    all_goals omega
  | cons c m ih =>
    obtain ⟨hs, hz⟩ := h
    rw [List.pairwise_cons] at hs
    have hm : Memory.wf m := ⟨hs.2, fun d hd => hz d (by simp [hd])⟩
    rw [write_cons]
    by_cases hlt : c.1 < a
    · rw [if_pos hlt, read_cons, ih hm, read_cons]
      by_cases h1 : c.1 = a'
      · rw [if_pos h1, if_pos h1, if_neg (by omega)]
      · rw [if_neg h1, if_neg h1]
    · rw [if_neg hlt]
      have hlow : a' = a → Memory.read (if c.1 = a then m else c :: m) a' = 0#8 := by
        rintro rfl
        refine read_of_lt fun d hd => ?_
        split at hd
        · rename_i heq; have := hs.1 d hd; omega
        · rcases List.mem_cons.1 hd with rfl | hd
          · omega
          · have := hs.1 d hd; omega
      have helse : a' ≠ a → Memory.read (if c.1 = a then m else c :: m) a' = Memory.read (c :: m) a' := by
        intro hne
        split
        · rw [read_cons, if_neg (by omega)]
        · rfl
      by_cases hv : v = 0#8
      · rw [if_pos hv]
        by_cases ha : a' = a
        · rw [if_pos ha, hlow ha, hv]
        · rw [if_neg ha, helse ha]
      · rw [if_neg hv, read_cons]
        by_cases ha : a' = a
        · rw [if_pos ha, if_pos ha.symm]
        · rw [if_neg ha, if_neg (Ne.symm ha), helse ha]

/-- A write leaves every other address as it was, whatever the form of the memory. -/
theorem read_write_ne (m : Memory) {a a' : Nat} (h : a' ≠ a) (v : Byte) :
    Memory.read (Memory.write m a v) a' = Memory.read m a' := by
  induction m with
  | nil =>
    simp only [Memory.write, unlistedByte]
    by_cases hv : v = 0#8
    · rw [if_pos hv]
    · rw [if_neg hv, read_cons, if_neg (Ne.symm h)]
  | cons c m ih =>
    rw [write_cons]
    by_cases hlt : c.1 < a
    · rw [if_pos hlt, read_cons, ih, read_cons]
    · rw [if_neg hlt]
      have helse : Memory.read (if c.1 = a then m else c :: m) a' = Memory.read (c :: m) a' := by
        split
        · rw [read_cons, if_neg (by omega)]
        · rfl
      by_cases hv : v = 0#8
      · rw [if_pos hv, helse]
      · rw [if_neg hv, read_cons, if_neg (Ne.symm h), helse]

/-- A write keeps the addresses inside a range that holds the written one. -/
theorem write_addrsIn {ok : Nat → Prop} {m : Memory} (h : AddrsIn ok m) {a : Nat} (ha : ok a) (v : Byte) :
    AddrsIn ok (Memory.write m a v) := by
  intro c hc
  rcases mem_write hc with ⟨rfl, -⟩ | hc
  · exact ha
  · exact h c hc

/-! ### Runs of bytes -/

@[simp] theorem writeBytes_nil (m : Memory) (a : Nat) : Memory.writeBytes m a [] = m := rfl

@[simp] theorem writeBytes_cons (m : Memory) (a : Nat) (v : Byte) (vs : List Byte) :
    Memory.writeBytes m a (v :: vs) = Memory.writeBytes (m.write a v) (a + 1) vs := rfl

theorem writeBytes_wf {m : Memory} (h : Memory.wf m) (a : Nat) (vs : List Byte) :
    Memory.wf (Memory.writeBytes m a vs) := by
  induction vs generalizing m a with
  | nil => exact h
  | cons v vs ih => exact ih (write_wf h a v) (a + 1)

theorem writeBytes_addrsIn {ok : Nat → Prop} {m : Memory} (h : AddrsIn ok m) {a : Nat} {vs : List Byte}
    (ha : ∀ j < vs.length, ok (a + j)) : AddrsIn ok (Memory.writeBytes m a vs) := by
  induction vs generalizing m a with
  | nil => exact h
  | cons v vs ih =>
    refine ih (write_addrsIn h (by simpa using ha 0 (by simp)) v) fun j hj => ?_
    have := ha (j + 1) (by simpa using hj)
    rwa [show a + 1 + j = a + (j + 1) by omega]

/-- A read after a run of writes: the written byte inside the run, the old one outside. -/
theorem read_writeBytes {m : Memory} (h : Memory.wf m) (a : Nat) (vs : List Byte) (a' : Nat) :
    Memory.read (Memory.writeBytes m a vs) a' =
      if a ≤ a' ∧ a' < a + vs.length then vs.getD (a' - a) 0#8 else Memory.read m a' := by
  induction vs generalizing m a with
  | nil => rw [if_neg (by simp)]; rfl
  | cons v vs ih =>
    rw [writeBytes_cons, ih (write_wf h a v), read_write h]
    by_cases h1 : a' = a
    · subst h1
      rw [if_neg (by omega), if_pos rfl, if_pos (by simp)]
      simp
    · by_cases h2 : a + 1 ≤ a' ∧ a' < a + 1 + vs.length
      · rw [if_pos h2, if_pos (by simp; omega), show a' - a = (a' - (a + 1)) + 1 by omega]
        simp
      · rw [if_neg h2, if_neg h1, if_neg (by simp; omega)]

/-- A run of writes leaves every address outside it as it was, whatever the form of the memory. -/
theorem read_writeBytes_outside (m : Memory) (a : Nat) (vs : List Byte) {a' : Nat} (h : a' < a ∨ a + vs.length ≤ a') :
    Memory.read (Memory.writeBytes m a vs) a' = Memory.read m a' := by
  induction vs generalizing m a with
  | nil => rfl
  | cons v vs ih =>
    rw [List.length_cons] at h
    rw [writeBytes_cons, ih _ _ (by omega), read_write_ne _ (by omega)]

@[simp] theorem length_readBytes (m : Memory) (a len : Nat) : (m.readBytes a len).length = len := by
  simp [Memory.readBytes]

/-- The bytes just written are the bytes read. -/
theorem readBytes_writeBytes {m : Memory} (h : Memory.wf m) (a : Nat) (vs ws : List Byte) :
    (m.writeBytes a (vs ++ ws)).readBytes a vs.length = vs := by
  refine List.ext_getElem (by simp) fun j h1 h2 => ?_
  simp only [Memory.readBytes, List.getElem_map, List.getElem_range]
  rw [read_writeBytes h, if_pos (by simp at h2 ⊢; omega)]
  simp only [Nat.add_sub_cancel_left, List.getD_eq_getElem?_getD]
  rw [List.getElem?_append_left h2, List.getElem?_eq_getElem h2]
  rfl

/-- The reset memory is canonical. -/
theorem reset_mem_wf : Memory.wf State.reset.mem := by decide

end Sys2Proof.Laws
end

