-- ==== Sys2Proof/Laws/Bus.lean ====
section
/-! SUPPORT. The bus: where each offset lies (10_state.md R49), what an access can do (20_memory.md R84 to R88), and the
words of 256-bit values and of the buffers bit by bit (R81, R82). -/

namespace Sys2Proof.Laws

open Sys2Proof.Machine

/-! ### The register map -/

theorem locate_xWord (mm : Nat) (i : XReg) (w : Fin 8) :
    locate mm (0x0100 + 0x20 * i.val + 4 * w.val) = .xWord i w := by
  rw [locate, if_neg (by omega), dif_pos (by omega)]
  congr 1 <;> apply Fin.ext <;> simp only <;> omega

theorem locate_point (mm : Nat) (i : PReg) {r : Nat} (h : r < 0x60) :
    locate mm (0x0400 + 0x60 * i.val + r) = locatePoint i r := by
  rw [locate, if_neg (by omega), dif_neg (by omega), dif_pos (by omega)]
  exact congrArg₂ locatePoint (Fin.ext (by show (0x0400 + 0x60 * i.val + r - 0x0400) / 0x60 = i.val; omega)) (by omega)

theorem locate_pxWord (mm : Nat) (i : PReg) (w : Fin 8) :
    locate mm (0x0400 + 0x60 * i.val + 4 * w.val) = .pxWord i w := by
  rw [locate_point mm i (by omega), locatePoint, dif_pos (by omega)]
  congr 1; apply Fin.ext; simp only; omega

theorem locate_pyWord (mm : Nat) (i : PReg) (w : Fin 8) :
    locate mm (0x0400 + 0x60 * i.val + 0x20 + 4 * w.val) = .pyWord i w := by
  rw [Nat.add_assoc, locate_point mm i (by omega), locatePoint, dif_neg (by omega), dif_pos (by omega)]
  congr 1; apply Fin.ext; simp only; omega

theorem locate_tag (mm : Nat) (i : PReg) : locate mm (0x0400 + 0x60 * i.val + 0x40) = .tag i := by
  rw [locate_point mm i (by omega)]; rfl

theorem locate_txt (mm : Nat) {off : Nat} (h : 0x0800 ≤ off ∧ off < 0x0900) : locate mm off = .txt off := by
  rw [locate, if_neg (by omega), dif_neg (by omega), dif_neg (by omega), if_pos h]

theorem locate_msg {mm off : Nat} (h : 0x1000 ≤ off ∧ off < 0x1000 + mm) : locate mm off = .msg off := by
  rw [locate, if_neg (by omega), dif_neg (by omega), dif_neg (by omega), if_neg (by omega), if_pos h]

theorem locate_reserved {mm off : Nat} (h : isReservedOffset mm off) : locate mm off = .reserved := by
  rcases h with h | h | h | h | h | ⟨h1, h2, h3⟩
  iterate 5
    · rw [locate, if_neg (by omega), dif_neg (by omega), dif_neg (by omega), if_neg (by omega), if_neg (by omega)]
  rw [locate, if_neg (by omega), dif_neg (by omega), dif_pos ⟨h1, h2⟩, locatePoint, dif_neg (by omega),
    dif_neg (by omega), if_neg (by omega)]

/-- Every word-aligned offset of the window is one of these places. -/
theorem locate_cases (mm off : Nat) (hoff : off < 0x2000) (h4 : off % 4 = 0) :
    (off = 0x0000 ∧ locate mm off = .id) ∨ (off = 0x0004 ∧ locate mm off = .version) ∨
    (off = 0x0008 ∧ locate mm off = .ctrl) ∨ (off = 0x000C ∧ locate mm off = .status) ∨
    (off = 0x0010 ∧ locate mm off = .cmd) ∨ (off = 0x0014 ∧ locate mm off = .errcode) ∨
    (off = 0x0018 ∧ locate mm off = .msgLen) ∨ (off = 0x001C ∧ locate mm off = .txtLen) ∨
    (off = 0x0020 ∧ locate mm off = .msgMax) ∨ (off = 0x0024 ∧ locate mm off = .txtMax) ∨
    (∃ i w, off = 0x0100 + 0x20 * i.val + 4 * w.val ∧ locate mm off = .xWord i w) ∨
    (∃ i w, off = 0x0400 + 0x60 * i.val + 4 * w.val ∧ locate mm off = .pxWord i w) ∨
    (∃ i w, off = 0x0400 + 0x60 * i.val + 0x20 + 4 * w.val ∧ locate mm off = .pyWord i w) ∨
    (∃ i, off = 0x0400 + 0x60 * i.val + 0x40 ∧ locate mm off = .tag i) ∨
    ((0x0800 ≤ off ∧ off < 0x0900) ∧ locate mm off = .txt off) ∨
    ((0x1000 ≤ off ∧ off < 0x1000 + mm) ∧ locate mm off = .msg off) ∨
    (isReservedOffset mm off ∧ locate mm off = .reserved) := by
  by_cases h28 : off < 0x28
  · have : off = 0x0000 ∨ off = 0x0004 ∨ off = 0x0008 ∨ off = 0x000C ∨ off = 0x0010 ∨ off = 0x0014 ∨ off = 0x0018 ∨
        off = 0x001C ∨ off = 0x0020 ∨ off = 0x0024 := by omega
    rcases this with rfl | rfl | rfl | rfl | rfl | rfl | rfl | rfl | rfl | rfl <;> simp [locate, locateControl]
  by_cases hx : 0x0100 ≤ off ∧ off < 0x0300
  · refine .inr <| .inr <| .inr <| .inr <| .inr <| .inr <| .inr <| .inr <| .inr <| .inr <| .inl ?_
    let i : XReg := ⟨(off - 0x0100) / 0x20, by omega⟩
    let w : Fin 8 := ⟨(off - 0x0100) % 0x20 / 4, by omega⟩
    have : off = 0x0100 + 0x20 * i.val + 4 * w.val := by simp only [i, w]; omega
    exact ⟨i, w, this, this ▸ locate_xWord mm i w⟩
  by_cases hp : 0x0400 ≤ off ∧ off < 0x0700
  · let i : PReg := ⟨(off - 0x0400) / 0x60, by omega⟩
    have hi : off = 0x0400 + 0x60 * i.val + (off - 0x0400) % 0x60 := by simp only [i]; omega
    by_cases h1 : (off - 0x0400) % 0x60 < 0x20
    · refine .inr <| .inr <| .inr <| .inr <| .inr <| .inr <| .inr <| .inr <| .inr <| .inr <| .inr <| .inl ?_
      let w : Fin 8 := ⟨(off - 0x0400) % 0x60 / 4, by omega⟩
      have : off = 0x0400 + 0x60 * i.val + 4 * w.val := by simp only [w]; omega
      exact ⟨i, w, this, this ▸ locate_pxWord mm i w⟩
    by_cases h2 : (off - 0x0400) % 0x60 < 0x40
    · refine .inr <| .inr <| .inr <| .inr <| .inr <| .inr <| .inr <| .inr <| .inr <| .inr <| .inr <| .inr <| .inl ?_
      let w : Fin 8 := ⟨((off - 0x0400) % 0x60 - 0x20) / 4, by omega⟩
      have : off = 0x0400 + 0x60 * i.val + 0x20 + 4 * w.val := by simp only [w]; omega
      exact ⟨i, w, this, this ▸ locate_pyWord mm i w⟩
    by_cases h3 : (off - 0x0400) % 0x60 = 0x40
    · refine .inr <| .inr <| .inr <| .inr <| .inr <| .inr <| .inr <| .inr <| .inr <| .inr <| .inr <| .inr <| .inr <| .inl ?_
      have : off = 0x0400 + 0x60 * i.val + 0x40 := by omega
      exact ⟨i, this, this ▸ locate_tag mm i⟩
    have hr : isReservedOffset mm off := by unfold isReservedOffset; omega
    simp [hr, locate_reserved hr]
  by_cases ht : 0x0800 ≤ off ∧ off < 0x0900
  · simp [ht, locate_txt mm ht]
  by_cases hm : 0x1000 ≤ off ∧ off < 0x1000 + mm
  · simp [hm, locate_msg hm]
  have hr : isReservedOffset mm off := by unfold isReservedOffset; omega
  simp [hr, locate_reserved hr]

/-- A data window's place is a data place or reserved. -/
theorem locate_data {mm off : Nat} (h : inDataWindow off) (h4 : off % 4 = 0) :
    (locate mm off).isData = true ∨ locate mm off = .reserved := by
  have hoff : off < 0x2000 := by unfold inDataWindow at h; omega
  rcases locate_cases mm off hoff h4 with ⟨e, _⟩ | ⟨e, _⟩ | ⟨e, _⟩ | ⟨e, _⟩ | ⟨e, _⟩ | ⟨e, _⟩ | ⟨_, l⟩ | ⟨_, l⟩ | ⟨e, _⟩ |
    ⟨e, _⟩ | ⟨_, _, _, l⟩ | ⟨_, _, _, l⟩ | ⟨_, _, _, l⟩ | ⟨_, _, l⟩ | ⟨_, l⟩ | ⟨_, l⟩ | ⟨_, l⟩
  all_goals first
    | (exfalso; unfold inDataWindow at h; omega)
    | (rw [l]; simp [Location.isData])

/-! ### Accesses -/

/-- A turn of the host inside the window. -/
theorem step_access {s : State} {a : Access} {rest : List Event} (h : s.pending = .access a :: rest)
    (ha : a.offset < 0x2000) : step s = .next ({ s with pending := rest }.performAccess a) := by
  rw [step, stepBy, h]; exact if_pos ha

/-- A turn of the host outside the window. -/
theorem step_outside {s : State} {a : Access} {rest : List Event} (h : s.pending = .access a :: rest)
    (ha : 0x2000 ≤ a.offset) : step s = .fault .outsideWindow := by
  rw [step, stepBy, h]; exact if_neg (Nat.not_lt.2 ha)

/-- The access is answered without an error. -/
def accepted (s : State) (a : Access) : Bool :=
  a.wellSized && match a.kind with
    | .read => s.readable (s.target a)
    | .write _ => s.writable (s.target a)

/-- What an access does when it is refused: a bus error and nothing else (R87). -/
theorem performAccess_error {s : State} {a : Access} (rest : List Event) (h : accepted s a = false) :
    { s with pending := rest }.performAccess a = s.busErrorOnly a.kind rest := by
  obtain ⟨k, off, bytes⟩ := a
  cases k with
  | read =>
    have h' : ((⟨.read, off, bytes⟩ : Access).wellSized && s.readable (s.target ⟨.read, off, bytes⟩)) = false := h
    show (if ((⟨.read, off, bytes⟩ : Access).wellSized && s.readable (s.target ⟨.read, off, bytes⟩)) = true then _
      else _) = _
    rw [h']; rfl
  | write d =>
    have h' : ((⟨.write d, off, bytes⟩ : Access).wellSized && s.writable (s.target ⟨.write d, off, bytes⟩)) = false := h
    show (if ((⟨.write d, off, bytes⟩ : Access).wellSized && s.writable (s.target ⟨.write d, off, bytes⟩)) = true then _
      else _) = _
    rw [h']; rfl

/-- What a place holds does not depend on the turns to come. -/
theorem wordAt_pending (s : State) (rest : List Event) (l : Location) :
    ({ s with pending := rest } : State).wordAt l = s.wordAt l := by cases l <;> rfl

/-- What a read does when it is answered: the word of the place, and nothing else (R88). -/
theorem performAccess_read {s : State} {off bytes : Nat} (rest : List Event)
    (h : accepted s ⟨.read, off, bytes⟩ = true) :
    { s with pending := rest }.performAccess ⟨.read, off, bytes⟩ =
      s.answered (s.wordAt (s.target ⟨.read, off, bytes⟩)) rest := by
  have h' : ((⟨.read, off, bytes⟩ : Access).wellSized && s.readable (s.target ⟨.read, off, bytes⟩)) = true := h
  show (if ((⟨.read, off, bytes⟩ : Access).wellSized && s.readable (s.target ⟨.read, off, bytes⟩)) = true then _
    else _) = _
  rw [if_pos h', wordAt_pending]; rfl

/-- What a write does when it is answered: the place's own write (R88). -/
theorem performAccess_write {s : State} {d : Word32} {off bytes : Nat} (rest : List Event)
    (h : accepted s ⟨.write d, off, bytes⟩ = true) :
    { s with pending := rest }.performAccess ⟨.write d, off, bytes⟩ =
      { { s with pending := rest }.storeAt d (s.target ⟨.write d, off, bytes⟩) with response := some (.write false) } := by
  have h' : ((⟨.write d, off, bytes⟩ : Access).wellSized && s.writable (s.target ⟨.write d, off, bytes⟩)) = true := h
  show (if ((⟨.write d, off, bytes⟩ : Access).wellSized && s.writable (s.target ⟨.write d, off, bytes⟩)) = true then _
    else _) = _
  rw [if_pos h']; rfl

/-- The whole of a turn of the host: refused, answered with a word, or stored. -/
theorem access_cases {s : State} {a : Access} {rest : List Event} (h : s.pending = .access a :: rest) {t : State}
    (ht : step s = .next t) :
    a.offset < 0x2000 ∧
    ((accepted s a = false ∧ t = s.busErrorOnly a.kind rest) ∨
     (accepted s a = true ∧ a.kind = .read ∧ t = s.answered (s.wordAt (s.target a)) rest) ∨
     (∃ d, accepted s a = true ∧ a.kind = .write d ∧
       t = { { s with pending := rest }.storeAt d (s.target a) with response := some (.write false) })) := by
  by_cases ha : a.offset < 0x2000
  · rw [step_access h ha] at ht
    injection ht with ht
    refine ⟨ha, ?_⟩
    cases hacc : accepted s a with
    | false => exact .inl ⟨rfl, by rw [← ht, performAccess_error rest hacc]⟩
    | true =>
      obtain ⟨k, off, bytes⟩ := a
      cases k with
      | read => exact .inr (.inl ⟨rfl, rfl, by rw [← ht, performAccess_read rest hacc]⟩)
      | write d => exact .inr (.inr ⟨d, rfl, rfl, by rw [← ht, performAccess_write rest hacc]⟩)
  · rw [step_outside h (Nat.not_lt.1 ha)] at ht
    cases ht

theorem wellSized_of {k : AccessKind} {off : Nat} (h : off % 4 = 0) : (⟨k, off, 4⟩ : Access).wellSized = true := by
  simp [Access.wellSized, h]

/-- A word read of a place that can be read. -/
theorem step_read {s : State} {off : Nat} {rest : List Event} (h : s.pending = .access ⟨.read, off, 4⟩ :: rest)
    (hoff : off < 0x2000) (h4 : off % 4 = 0) {l : Location} (hl : locate s.msgMax.toNat off = l)
    (hr : s.readable l = true) : step s = .next (s.answered (s.wordAt l) rest) := by
  subst hl
  rw [step_access h hoff, performAccess_read rest (by
    rw [accepted, wellSized_of h4]; exact hr)]
  rfl

/-- A word write of a place that can be written. -/
theorem step_write {s : State} {off : Nat} {d : Word32} {rest : List Event}
    (h : s.pending = .access ⟨.write d, off, 4⟩ :: rest) (hoff : off < 0x2000) (h4 : off % 4 = 0) {l : Location}
    (hl : locate s.msgMax.toNat off = l) (hw : s.writable l = true) :
    step s = .next { { s with pending := rest }.storeAt d l with response := some (.write false) } := by
  subst hl
  rw [step_access h hoff, performAccess_write rest (by
    rw [accepted, wellSized_of h4]; exact hw)]
  rfl

/-- An access that is refused. -/
theorem step_refused {s : State} {a : Access} {rest : List Event} (h : s.pending = .access a :: rest)
    (hoff : a.offset < 0x2000) (hr : accepted s a = false) : step s = .next (s.busErrorOnly a.kind rest) := by
  rw [step_access h hoff, performAccess_error rest hr]

theorem accepted_of_illSized {s : State} {a : Access} (h : a.wellSized = false) : accepted s a = false := by
  rw [accepted, h]; rfl

theorem wellSized_iff (a : Access) : a.wellSized = true ↔ a.bytes = 4 ∧ a.offset % 4 = 0 := by
  simp [Access.wellSized]

/-- A place that can be neither read nor written refuses every access. -/
theorem accepted_of_closed {s : State} {a : Access} (hr : s.readable (s.target a) = false)
    (hw : s.writable (s.target a) = false) : accepted s a = false := by
  rw [accepted]
  cases a.kind <;> simp [hr, hw]

/-! ### Words -/

theorem getLsbD_wordOfVal (v : Val) (w : Fin 8) (j : Nat) :
    (wordOfVal v w).getLsbD j = (decide (j < 32) && v.getLsbD (32 * w.val + j)) := by
  simp [wordOfVal, BitVec.getLsbD_extractLsb']

/-- A word replaced: its own bits, and no other (R81). -/
theorem getLsbD_setWordOfVal (v : Val) (w : Fin 8) (d : Word32) {j : Nat} (hj : j < 256) :
    (setWordOfVal v w d).getLsbD j =
      if 32 * w.val ≤ j ∧ j < 32 * w.val + 32 then d.getLsbD (j - 32 * w.val) else v.getLsbD j := by
  have hones : ∀ k, (0xFFFFFFFF#256).getLsbD k = (decide (k < 256) && decide (k < 32)) := by
    intro k
    rw [show (0xFFFFFFFF#256) = BitVec.ofNat 256 (2 ^ 32 - 1) from rfl, BitVec.getLsbD_ofNat, Nat.testBit_two_pow_sub_one]
  simp only [setWordOfVal, BitVec.getLsbD_or, BitVec.getLsbD_and, BitVec.getLsbD_not, BitVec.getLsbD_shiftLeft,
    BitVec.getLsbD_setWidth, hones, hj, decide_true, Bool.true_and]
  by_cases h1 : j < 32 * w.val
  · rw [if_neg (by omega)]; simp [h1]
  · by_cases h2 : j - 32 * w.val < 32
    · rw [if_pos (by omega)]
      have : j - 32 * w.val < 256 := by omega
      simp [h1, h2, this]
    · rw [if_neg (by omega)]
      have : d.getLsbD (j - 32 * w.val) = false := BitVec.getLsbD_of_ge _ _ (by omega)
      simp [h1, h2, this]

theorem inBuffers_txt (s : State) {off : Nat} (h : 0x0800 ≤ off ∧ off < 0x0900) : s.inBuffers off = true := by
  simp only [State.inBuffers, Config.txtBase, Config.txtMax, Config.msgBase]; simp; omega

theorem inBuffers_msg (s : State) {off : Nat} (h : 0x1000 ≤ off ∧ off < 0x1000 + s.msgMax.toNat) :
    s.inBuffers off = true := by
  simp only [State.inBuffers, Config.txtBase, Config.txtMax, Config.msgBase]; simp; omega

theorem inBuffers_iff (s : State) (off : Nat) : s.inBuffers off = true ↔ s.bufferOffset off := by
  simp [State.inBuffers, State.bufferOffset, Config.txtBase, Config.txtMax, Config.msgBase]

/-- A word of a buffer, by its bytes (R82). -/
theorem toNat_bufferWord (s : State) (off : Nat) :
    (s.bufferWord off).toNat = (s.bufferByte off).toNat + 2 ^ 8 * (s.bufferByte (off + 1)).toNat +
      2 ^ 16 * (s.bufferByte (off + 2)).toNat + 2 ^ 24 * (s.bufferByte (off + 3)).toNat := by
  simp only [State.bufferWord, BitVec.toNat_append, Nat.shiftLeft_eq]
  have e : ∀ a b k : Nat, b < 2 ^ k → a * 2 ^ k ||| b = a * 2 ^ k + b := fun a b k hb => by
    rw [Nat.mul_comm, Nat.two_pow_add_eq_or_of_lt hb]
  rw [e _ _ 8 (s.bufferByte off).isLt, e _ _ 8 (s.bufferByte (off + 1)).isLt, e _ _ 8 (s.bufferByte (off + 2)).isLt]
  ring

/-- A byte of a buffer written by the bus touches the memory alone. -/
theorem writeBufferByte_eq (s : State) (off : Nat) (v : Byte) :
    s.writeBufferByte off v = { s with mem := (s.writeBufferByte off v).mem } := by
  unfold State.writeBufferByte; split <;> rfl

theorem writeBufferWord_eq (s : State) (off : Nat) (d : Word32) :
    s.writeBufferWord off d = { s with mem := (s.writeBufferWord off d).mem } := by
  unfold State.writeBufferWord
  rw [writeBufferByte_eq _ (off + 3), writeBufferByte_eq _ (off + 2), writeBufferByte_eq _ (off + 1),
    writeBufferByte_eq s off]

theorem writeBufferByte_wf {s : State} (h : s.mem.wf) (off : Nat) (v : Byte) : (s.writeBufferByte off v).mem.wf := by
  unfold State.writeBufferByte; split
  · exact write_wf h off v
  · exact h

theorem writeBufferWord_wf {s : State} (h : s.mem.wf) (off : Nat) (d : Word32) : (s.writeBufferWord off d).mem.wf :=
  writeBufferByte_wf (writeBufferByte_wf (writeBufferByte_wf (writeBufferByte_wf h _ _) _ _) _ _) _ _

theorem writeBufferByte_addrs {s : State} (h : AddrsIn s.bufferOffset s.mem) (off : Nat) (v : Byte) :
    AddrsIn s.bufferOffset (s.writeBufferByte off v).mem := by
  unfold State.writeBufferByte; split
  · rename_i hb
    exact write_addrsIn h ((inBuffers_iff s off).1 hb) v
  · exact h

theorem bufferOffset_congr {s t : State} (h : t.msgMax = s.msgMax) : t.bufferOffset = s.bufferOffset := by
  funext a; simp [State.bufferOffset, h]

theorem writeBufferByte_msgMax (s : State) (off : Nat) (v : Byte) : (s.writeBufferByte off v).msgMax = s.msgMax := by
  rw [writeBufferByte_eq]

theorem writeBufferWord_addrs {s : State} (h : AddrsIn s.bufferOffset s.mem) (off : Nat) (d : Word32) :
    AddrsIn s.bufferOffset (s.writeBufferWord off d).mem := by
  have key : ∀ (t : State), t.msgMax = s.msgMax → AddrsIn s.bufferOffset t.mem → ∀ off v,
      AddrsIn s.bufferOffset (t.writeBufferByte off v).mem ∧ (t.writeBufferByte off v).msgMax = s.msgMax := by
    intro t ht hin off v
    refine ⟨?_, by rw [writeBufferByte_msgMax, ht]⟩
    rw [← bufferOffset_congr ht] at hin ⊢
    exact writeBufferByte_addrs hin off v
  have h1 := key s rfl h off (d.extractLsb' 0 8)
  have h2 := key _ h1.2 h1.1 (off + 1) (d.extractLsb' 8 8)
  have h3 := key _ h2.2 h2.1 (off + 2) (d.extractLsb' 16 8)
  exact (key _ h3.2 h3.1 (off + 3) (d.extractLsb' 24 8)).1

/-! ### What a store leaves alone -/

/-- An accepted access is a word access at a multiple of 4 (R84). -/
theorem wellSized_of_accepted {s : State} {a : Access} (h : accepted s a = true) : a.bytes = 4 ∧ a.offset % 4 = 0 := by
  unfold accepted at h
  rw [Bool.and_eq_true] at h
  exact (wellSized_iff a).1 h.1

/-- The offsets of CTRL, STATUS and CMD (R49). -/
theorem target_iff {s : State} {a : Access} (h4 : a.offset % 4 = 0) (ho : a.offset < 0x2000) :
    (s.target a = .ctrl ↔ a.offset = 0x0008) ∧ (s.target a = .status ↔ a.offset = 0x000C) ∧
      (s.target a = .cmd ↔ a.offset = 0x0010) := by
  unfold State.target
  rcases locate_cases s.msgMax.toNat a.offset ho h4 with ⟨e, l⟩ | ⟨e, l⟩ | ⟨e, l⟩ | ⟨e, l⟩ | ⟨e, l⟩ | ⟨e, l⟩ | ⟨e, l⟩ |
    ⟨e, l⟩ | ⟨e, l⟩ | ⟨e, l⟩ | ⟨_, _, e, l⟩ | ⟨_, _, e, l⟩ | ⟨_, _, e, l⟩ | ⟨_, e, l⟩ | ⟨e, l⟩ | ⟨e, l⟩ | ⟨e, l⟩
  all_goals first
    | (rcases e with e | e <;> rw [l] <;> simp <;> omega)
    | (rw [l]; simp; omega)

/-- A store outside CTRL keeps FLAG (R48); outside CTRL, STATUS and CMD it keeps the interrupt line (R386). -/
theorem storeAt_frame (s : State) (d : Word32) (l : Location) :
    (l ≠ .ctrl → (s.storeAt d l).flag = s.flag) ∧
    (l ≠ .ctrl → l ≠ .status → l ≠ .cmd → (s.storeAt d l).irq = s.irq) := by
  cases l with
  | txt off | msg off =>
    exact ⟨fun _ => by rw [State.storeAt, writeBufferWord_eq], fun _ _ _ => by rw [State.storeAt, writeBufferWord_eq]; rfl⟩
  | _ => simp [State.storeAt, State.irq, State.writeStatus, State.accept, State.writeX, State.writePReg]

end Sys2Proof.Laws
end

