-- ==== Sys2Proof/Laws/Decode.lean ====
section
/-! SUPPORT. The command word's fields: packing and unpacking are inverse, and the operand fields are too. -/

namespace Sys2Proof.Laws

/-- Bit i of a packed word, field by field (R111). -/
theorem getLsbD_wordOfFields (f : Fields) (i : Nat) :
    (wordOfFields f).getLsbD i =
      if i < 8 then f.op.getLsbD i
      else if i - 8 < 4 then f.a.getLsbD (i - 8)
      else if i - 8 - 4 < 4 then f.b.getLsbD (i - 8 - 4)
      else if i - 8 - 4 - 4 < 4 then f.c.getLsbD (i - 8 - 4 - 4)
      else if i - 8 - 4 - 4 - 4 < 1 then f.m.getLsbD (i - 8 - 4 - 4 - 4)
      else f.rsv.getLsbD (i - 8 - 4 - 4 - 4 - 1) := by
  unfold wordOfFields
  rw [BitVec.getLsbD_append, BitVec.getLsbD_append, BitVec.getLsbD_append, BitVec.getLsbD_append, BitVec.getLsbD_append]

/-- Unpacking a packed word gives its fields. -/
@[simp] theorem fieldsOfWord_wordOfFields (f : Fields) : fieldsOfWord (wordOfFields f) = f := by
  obtain ⟨op, a, b, c, m, rsv⟩ := f
  simp only [fieldsOfWord, Fields.mk.injEq]
  refine ⟨?_, ?_, ?_, ?_, ?_, ?_⟩ <;> ext i hi <;>
    simp only [BitVec.getElem_extractLsb', getLsbD_wordOfFields]
  · rw [if_pos (by omega), Nat.zero_add, BitVec.getLsbD_eq_getElem hi]
  · rw [if_neg (by omega), if_pos (by omega), Nat.add_sub_cancel_left, BitVec.getLsbD_eq_getElem hi]
  · rw [if_neg (by omega), if_neg (by omega), if_pos (by omega), show 12 + i - 8 - 4 = i by omega,
      BitVec.getLsbD_eq_getElem hi]
  · rw [if_neg (by omega), if_neg (by omega), if_neg (by omega), if_pos (by omega),
      show 16 + i - 8 - 4 - 4 = i by omega, BitVec.getLsbD_eq_getElem hi]
  · rw [if_neg (by omega), if_neg (by omega), if_neg (by omega), if_neg (by omega), if_pos (by omega),
      show 20 + i - 8 - 4 - 4 - 4 = i by omega, BitVec.getLsbD_eq_getElem hi]
  · rw [if_neg (by omega), if_neg (by omega), if_neg (by omega), if_neg (by omega), if_neg (by omega),
      show 21 + i - 8 - 4 - 4 - 4 - 1 = i by omega, BitVec.getLsbD_eq_getElem hi]

/-- Packing the fields of a word gives the word. -/
@[simp] theorem wordOfFields_fieldsOfWord (w : Word32) : wordOfFields (fieldsOfWord w) = w := by
  refine BitVec.eq_of_getLsbD_eq fun i hi => ?_
  rw [getLsbD_wordOfFields]
  simp only [fieldsOfWord, BitVec.getLsbD_extractLsb']
  split
  · simp; omega
  split
  · rw [show 8 + (i - 8) = i by omega]; simp; omega
  split
  · rw [show 12 + (i - 8 - 4) = i by omega]; simp; omega
  split
  · rw [show 16 + (i - 8 - 4 - 4) = i by omega]; simp; omega
  split
  · rw [show 20 + (i - 8 - 4 - 4 - 4) = i by omega]; simp; omega
  · rw [show 21 + (i - 8 - 4 - 4 - 4 - 1) = i by omega]; simp; omega

theorem wordOfFields_injective {f g : Fields} (h : wordOfFields f = wordOfFields g) : f = g := by
  rw [← fieldsOfWord_wordOfFields f, h, fieldsOfWord_wordOfFields]

/-- AND of packed words is AND field by field. -/
theorem wordOfFields_and (f g : Fields) :
    wordOfFields f &&& wordOfFields g =
      wordOfFields ⟨f.op &&& g.op, f.a &&& g.a, f.b &&& g.b, f.c &&& g.c, f.m &&& g.m, f.rsv &&& g.rsv⟩ := by
  refine BitVec.eq_of_getLsbD_eq fun i hi => ?_
  rw [BitVec.getLsbD_and]
  simp only [getLsbD_wordOfFields, BitVec.getLsbD_and]
  split
  · rfl
  split
  · rfl
  split
  · rfl
  split
  · rfl
  split <;> rfl

/-- The reserved bits `decode` tests are those of the unpacked word. -/
theorem extract_rsv (w : Word32) : w.extractLsb' 21 11 = (fieldsOfWord w).rsv := rfl

theorem extract_op (w : Word32) : w.extractLsb' 0 8 = (fieldsOfWord w).op := rfl

/-! ### Operand fields -/

@[simp] theorem fieldX_xField (r : XReg) : fieldX (xField r) = r := rfl

@[simp] theorem xField_fieldX (v : BitVec 4) : xField (fieldX v) = v := rfl

@[simp] theorem fieldP_pField (r : PReg) : fieldP (pField r) = .ok r := by
  have h : (pField r).toNat = r.val := by simp [pField]; omega
  unfold fieldP
  simp only [h, r.isLt, dite_true]

theorem pField_of_fieldP {v : BitVec 4} {r : PReg} (h : fieldP v = .ok r) : pField r = v := by
  unfold fieldP at h; split at h
  · cases h; simp [pField]
  · cases h

@[simp] theorem fieldK_kField (k : RomIndex) : fieldK (kField k) = .ok k := by cases k <;> rfl

theorem kField_of_fieldK {v : BitVec 4} {k : RomIndex} (h : fieldK v = .ok k) : kField k = v := by
  unfold fieldK at h; split at h <;> cases h <;> rfl

@[simp] theorem unusedField_zero : unusedField 0#4 = .ok () := rfl

@[simp] theorem unusedM_zero : unusedM 0#1 = .ok () := rfl

theorem eq_zero_of_unusedField {v : BitVec 4} {u : Unit} (h : unusedField v = .ok u) : v = 0#4 := by
  unfold unusedField at h; split at h
  · assumption
  · cases h

theorem eq_zero_of_unusedM {v : BitVec 1} {u : Unit} (h : unusedM v = .ok u) : v = 0#1 := by
  unfold unusedM at h; split at h
  · assumption
  · cases h

@[simp] theorem fieldModulus_modulusBit (m : Modulus) : fieldModulus (modulusBit m) = m := by cases m <;> rfl

@[simp] theorem modulusBit_fieldModulus (v : BitVec 1) : modulusBit (fieldModulus v) = v := by revert v; decide

@[simp] theorem fieldSource_sourceBit (m : HashSource) : fieldSource (sourceBit m) = m := by cases m <;> rfl

@[simp] theorem sourceBit_fieldSource (v : BitVec 1) : sourceBit (fieldSource v) = v := by revert v; decide

theorem distinctDestinations_ok {a b : BitVec 4} (h : a ≠ b) : distinctDestinations a b = .ok () := if_neg h

/-- A check followed by more decoding succeeds when both do. -/
theorem bind_ok {ε α β : Type} {x : Except ε α} {f : α → Except ε β} {b : β} :
    (x >>= f) = .ok b ↔ ∃ a, x = .ok a ∧ f a = .ok b := by
  cases x with
  | error e => exact ⟨fun h => (by cases h), fun ⟨_, h, _⟩ => (by cases h)⟩
  | ok a => exact ⟨fun h => ⟨a, rfl, h⟩, fun ⟨_, h, h'⟩ => by cases h; exact h'⟩

theorem unusedField_iff {v : BitVec 4} {u : Unit} : unusedField v = .ok u ↔ v = 0#4 :=
  ⟨eq_zero_of_unusedField, fun h => by rw [h]; rfl⟩

theorem unusedM_iff {v : BitVec 1} {u : Unit} : unusedM v = .ok u ↔ v = 0#1 :=
  ⟨eq_zero_of_unusedM, fun h => by rw [h]; rfl⟩

theorem fieldP_iff {v : BitVec 4} {r : PReg} : fieldP v = .ok r ↔ v = pField r :=
  ⟨fun h => (pField_of_fieldP h).symm, fun h => by rw [h]; exact fieldP_pField r⟩

theorem fieldK_iff {v : BitVec 4} {k : RomIndex} : fieldK v = .ok k ↔ v = kField k :=
  ⟨fun h => (kField_of_fieldK h).symm, fun h => by rw [h]; exact fieldK_kField k⟩

theorem ne_of_distinctDestinations {a b : BitVec 4} {u : Unit} (h : distinctDestinations a b = .ok u) : a ≠ b := by
  unfold distinctDestinations at h; split at h
  · cases h
  · assumption

@[simp] theorem xField_inj {a b : XReg} : xField a = xField b ↔ a = b := by
  constructor
  · intro h; simpa using congrArg fieldX h
  · rintro rfl; rfl

end Sys2Proof.Laws
end

