-- ==== Sys2Proof/Laws/Digest.lean ====
section
/-! SUPPORT. The digest as an integer (44_digest.md R252), its length, and the padded message (R257). -/

namespace Sys2Proof.Laws

open Sys2Proof.Machine

/-- Reading left to right is reading big-endian (R252). -/
theorem intBE_eq (f : List Byte) : intBE f = bigEndianValue f := by
  have key : ∀ (f : List Byte) (acc : Nat),
      f.foldl (fun acc d => acc * 256 + d.toNat) acc = acc * 256 ^ f.length + bigEndianValue f := by
    intro f
    induction f with
    | nil => simp [bigEndianValue]
    | cons b bs ih => intro acc; simp only [List.foldl_cons, ih, bigEndianValue, List.length_cons, pow_succ]; ring
  simpa [intBE] using key f 0

theorem bigEndianValue_lt (f : List Byte) : bigEndianValue f < 256 ^ f.length := by
  induction f with
  | nil => simp [bigEndianValue]
  | cons b bs ih =>
    have hb := b.isLt
    simp only [bigEndianValue, List.length_cons, pow_succ]
    have : b.toNat * 256 ^ bs.length ≤ 255 * 256 ^ bs.length := Nat.mul_le_mul_right _ (by omega)
    omega

theorem bigEndianValue_append (f g : List Byte) :
    bigEndianValue (f ++ g) = bigEndianValue f * 256 ^ g.length + bigEndianValue g := by
  induction f with
  | nil => simp [bigEndianValue]
  | cons b bs ih => simp only [List.cons_append, bigEndianValue, List.length_append, ih]; ring

theorem length_bytesBE (count v : Nat) : (bytesBE count v).length = count := by simp [bytesBE]

theorem bytesBE_succ (count v : Nat) :
    bytesBE (count + 1) v = BitVec.ofNat 8 (v >>> (8 * count)) :: bytesBE count v := by
  simp only [bytesBE, List.range_succ_eq_map, List.map_cons, List.map_map]
  congr 1
  refine List.map_congr_left fun j hj => ?_
  simp only [Function.comp]
  congr 3
  omega

/-- The bytes of a number, read back (R257). -/
theorem bigEndianValue_bytesBE (count v : Nat) : bigEndianValue (bytesBE count v) = v % 256 ^ count := by
  induction count with
  | zero => simp [bytesBE, bigEndianValue, Nat.mod_one]
  | succ k ih =>
    have h256 : 2 ^ (8 * k) = 256 ^ k := by rw [pow_mul]; norm_num
    rw [bytesBE_succ, bigEndianValue, length_bytesBE, ih, BitVec.toNat_ofNat, Nat.shiftRight_eq_div_pow, h256,
      show 256 ^ (k + 1) = 256 ^ k * 256 from pow_succ _ _, Nat.mod_mul, show (2 : Nat) ^ 8 = 256 from rfl]
    ring

/-- Every compression gives eight words. -/
theorem length_compress {hash block : List Word32} (h : hash.length = 8) : (compress hash block).length = 8 := by
  match hash, h with
  | [_, _, _, _, _, _, _, _], _ => rfl

theorem length_compressBlocks (count : Nat) {hash : List Word32} (words : List Word32) (h : hash.length = 8) :
    (compressBlocks count hash words).length = 8 := by
  induction count generalizing hash words with
  | zero => exact h
  | succ k ih => exact ih _ (length_compress h)

/-- A digest has 32 bytes (R254, R260). -/
theorem length_hashH (bytes : List Byte) : (hashH bytes).length = 32 := by
  rw [hashH, sha256, List.length_flatMap]
  have h := length_compressBlocks ((wordsBE (shaPad bytes)).length / 16) (wordsBE (shaPad bytes)) (hash := shaInit) rfl
  have key : ∀ ws : List Word32, (ws.map fun w => (bytesOfWord w).length).sum = 4 * ws.length := by
    intro ws
    induction ws with
    | nil => rfl
    | cons w ws ih => rw [List.map_cons, List.sum_cons, ih, List.length_cons]; simp [bytesOfWord]; ring
  rw [key, h]

theorem bigEndianValue_hashH_lt (bytes : List Byte) : bigEndianValue (hashH bytes) < 2 ^ 256 := by
  have := bigEndianValue_lt (hashH bytes)
  rw [length_hashH] at this
  exact lt_of_lt_of_le this (by norm_num)

/-- The digest fits its register (R250). -/
theorem toNat_toVal_hash (bytes : List Byte) : (toVal (intBE (hashH bytes))).toNat = bigEndianValue (hashH bytes) := by
  rw [intBE_eq, toVal, BitVec.toNat_ofNat, Nat.mod_eq_of_lt (bigEndianValue_hashH_lt bytes)]

end Sys2Proof.Laws
end

