-- ==== Sys2Proof/Laws/Text.lean ====
section
/-! SUPPORT. The text codec's algebra (46_codec.md R310 to R316): what `dec` writes, what a split gives, what a token is
worth. -/

namespace Sys2Proof.Laws

open Sys2Proof.Machine

/-! ### Digits -/

theorem toNat_digitByte {d : Nat} (h : d < 10) : (digitByte d).toNat = 0x30 + d := by
  rw [digitByte, BitVec.toNat_ofNat]; omega

theorem isDigit_iff (b : Byte) : isDigit b = true ↔ 0x30 ≤ b.toNat ∧ b.toNat ≤ 0x39 := by
  simp [isDigit]

/-- A digit is no separator. -/
theorem ne_separator {b : Byte} (h : b.toNat ≤ 0x39) : b ≠ separator := by
  rintro rfl; revert h; decide

theorem separator_notMem {f : List Byte} (h : IsToken f) : separator ∉ f :=
  fun hm => ne_separator (h.2 _ hm).2 rfl

theorem textValue_append (f g : List Byte) : textValue (f ++ g) = textValue f * 10 ^ g.length + textValue g := by
  induction f with
  | nil => simp [textValue]
  | cons b bs ih => simp only [List.cons_append, textValue, List.length_append, ih]; ring

theorem textValue_lt {f : List Byte} (h : ∀ b ∈ f, b.toNat ≤ 0x39) : textValue f < 10 ^ f.length := by
  induction f with
  | nil => simp [textValue]
  | cons b bs ih =>
    have h1 := h b (by simp)
    have h2 := ih fun c hc => h c (by simp [hc])
    simp only [textValue, List.length_cons, pow_succ]
    have : (b.toNat - 0x30) * 10 ^ bs.length ≤ 9 * 10 ^ bs.length := Nat.mul_le_mul_right _ (by omega)
    omega

/-- The left-to-right evaluation of a token is its number. -/
theorem decimalValue_eq (f : List Byte) : decimalValue f = textValue f := by
  have key : ∀ (f : List Byte) (acc : Nat),
      f.foldl (fun acc b => acc * 10 + (b.toNat - 0x30)) acc = acc * 10 ^ f.length + textValue f := by
    intro f
    induction f with
    | nil => simp [textValue]
    | cons b bs ih => intro acc; simp only [List.foldl_cons, ih, textValue, List.length_cons, pow_succ]; ring
  simpa [decimalValue] using key f 0

/-! ### Canonical decimal text -/

theorem decDigits_length (fuel v : Nat) (acc : List Byte) :
    (decDigits fuel v acc).length ≤ fuel + acc.length := by
  induction fuel generalizing v acc with
  | zero => simp [decDigits]
  | succ k ih =>
    simp only [decDigits, force_eq]
    split
    · simp
    · have := ih (v / 10) (digitByte (v % 10) :: acc)
      simp only [List.length_cons] at this
      omega

theorem decDigits_spec (fuel : Nat) {v : Nat} (acc : List Byte) (h : v < 10 ^ (fuel + 1)) :
    ∃ f, decDigits (fuel + 1) v acc = f ++ acc ∧ IsDecimalText v f := by
  induction fuel generalizing v acc with
  | zero =>
    have hv : v < 10 := by simpa using h
    have h10 : v / 10 = 0 := by omega
    have hm : v % 10 = v := by omega
    refine ⟨[digitByte v], by simp [decDigits, h10, hm], ⟨⟨by simp, ?_⟩, ?_, ?_⟩⟩
    · intro b hb
      rw [List.mem_singleton] at hb
      rw [hb, toNat_digitByte hv]; omega
    · simp [textValue, toNat_digitByte hv]
    · intro hh; simpa using hh
  | succ k ih =>
    rw [decDigits, force_eq]
    have hd := toNat_digitByte (Nat.mod_lt v (by decide : 10 > 0))
    by_cases h10 : v / 10 = 0
    · have hm : v % 10 = v := by omega
      rw [if_pos h10]
      refine ⟨[digitByte v], by simp [hm], ⟨⟨by simp, ?_⟩, ?_, ?_⟩⟩
      · intro b hb
        rw [List.mem_singleton] at hb
        rw [hb, ← hm, hd]; omega
      · rw [hm] at hd; simp [textValue, hd]
      · intro hh; simpa using hh
    · rw [if_neg h10]
      obtain ⟨f, hf, ⟨⟨hne, hdig⟩, hval, hlead⟩⟩ := ih (v := v / 10) (digitByte (v % 10) :: acc) (by
        rw [pow_succ] at h; omega)
      refine ⟨f ++ [digitByte (v % 10)], by rw [hf]; simp, ⟨⟨by simp, ?_⟩, ?_, ?_⟩⟩
      · intro b hb
        rcases List.mem_append.1 hb with hb | hb
        · exact hdig b hb
        · rw [List.mem_singleton] at hb
          rw [hb, hd]; omega
      · rw [textValue_append, hval]; simp [textValue, hd]; omega
      · intro hh
        exfalso
        cases f with
        | nil => exact hne rfl
        | cons c cs =>
          have := hlead (by simpa using hh)
          rw [this] at hval
          exact h10 (by rw [← hval]; decide)

/-- `dec` writes the canonical text (R311). -/
theorem dec_spec (v : Val) : IsDecimalText v.toNat (dec v) := by
  obtain ⟨f, hf, h⟩ := decDigits_spec 77 (v := v.toNat) []
    (lt_of_lt_of_le v.isLt (by norm_num))
  rw [dec, hf, List.append_nil]
  exact h

/-- It has at most 78 bytes (R311). -/
theorem dec_length (v : Val) : (dec v).length ≤ 78 := by simpa [dec] using decDigits_length 78 v.toNat []

/-! ### Fields -/

/-- One more field than separators (R313). -/
theorem length_splitFields (t : List Byte) : (splitFields t).length = t.count separator + 1 := by
  induction t with
  | nil => rfl
  | cons b rest ih =>
    rw [splitFields]
    by_cases hb : b = separator
    · rw [if_pos hb, hb, List.count_cons_self, List.length_cons, ih]
    · rw [if_neg hb, List.count_cons_of_ne hb]
      cases h : splitFields rest with
      | nil => rw [h] at ih; simp at ih
      | cons f fs => rw [h] at ih; simpa using ih

theorem splitFields_nosep {f : List Byte} (h : separator ∉ f) : splitFields f = [f] := by
  induction f with
  | nil => rfl
  | cons b bs ih =>
    rw [List.mem_cons, not_or] at h
    rw [splitFields, if_neg (Ne.symm h.1), ih h.2]

theorem splitFields_append {f : List Byte} (h : separator ∉ f) (rest : List Byte) :
    splitFields (f ++ separator :: rest) = f :: splitFields rest := by
  induction f with
  | nil => rw [List.nil_append, splitFields, if_pos rfl]
  | cons b bs ih =>
    rw [List.mem_cons, not_or] at h
    rw [List.cons_append, splitFields, if_neg (Ne.symm h.1), ih h.2]

theorem intercalate_cons (f : List Byte) {fs : List (List Byte)} (h : fs ≠ []) :
    [separator].intercalate (f :: fs) = f ++ separator :: [separator].intercalate fs := by
  cases fs with
  | nil => exact absurd rfl h
  | cons g gs => simp [List.intercalate]

/-- Splitting undoes joining, for fields without a separator. -/
theorem splitFields_intercalate {fs : List (List Byte)} (hne : fs ≠ []) (h : ∀ f ∈ fs, separator ∉ f) :
    splitFields ([separator].intercalate fs) = fs := by
  induction fs with
  | nil => exact absurd rfl hne
  | cons f fs ih =>
    cases fs with
    | nil => simpa [List.intercalate] using splitFields_nosep (h f (by simp))
    | cons g gs =>
      rw [intercalate_cons f (by simp), splitFields_append (h f (by simp)), ih (by simp)]
      intro f' hf'
      exact h f' (by simp [hf'])

/-! ### Tokens -/

theorem isToken_iff (f : List Byte) : (f.isEmpty || !f.all isDigit) = false ↔ IsToken f := by
  simp only [Bool.or_eq_false_iff, Bool.not_eq_false', List.all_eq_true, isDigit_iff, IsToken, ne_eq,
    List.isEmpty_eq_false_iff]

theorem parseToken_ok {f : List Byte} (h : IsToken f) (hv : textValue f < 2 ^ 256) :
    parseToken f = .ok (toVal (textValue f)) := by
  rw [parseToken, (isToken_iff f).2 h, decimalValue_eq]
  simp only [Bool.false_eq_true, if_false]
  rw [if_neg (by omega)]

theorem parseToken_overflow {f : List Byte} (h : IsToken f) (hv : 2 ^ 256 ≤ textValue f) :
    parseToken f = .error .overflow := by
  rw [parseToken, (isToken_iff f).2 h, decimalValue_eq]
  simp only [Bool.false_eq_true, if_false]
  rw [if_pos hv]

theorem parseToken_bad {f : List Byte} (h : ¬IsToken f) : parseToken f = .error .badToken := by
  have : (f.isEmpty || !f.all isDigit) = true := by
    rw [← Bool.not_eq_false, isToken_iff]
    exact h
  rw [parseToken, if_pos this]

/-- A value's own text is worth the value. -/
theorem parseToken_dec (v : Val) : parseToken (dec v) = .ok v := by
  have h := dec_spec v
  rw [parseToken_ok h.1 (by rw [h.2.1]; exact v.isLt), h.2.1]
  simp [toVal]

end Sys2Proof.Laws
end

