-- ==== Sys2Proof/Laws/Ops.lean ====
section
/-! SUPPORT. What the shared operations can do: the loop that draws, the completion of a command that draws, the buffers
as a command reads them, and an encoder's commit. -/

namespace Sys2Proof.Laws

open Sys2Proof.Machine

/-! ### Draws -/

/-- An answer the loop turns away: a word that is 0 modulo n, or one whose attempt asks for another draw. -/
def TurnedAway {α : Type} (attempt : Nat → Except Err (Option α)) : Draw → Prop
  | .word b => b.toNat % Config.n = 0 ∨ attempt (b.toNat % Config.n) = .ok none
  | .fail => False

/-- A rejected word is turned away by every command that draws (R292). -/
theorem turnedAway_of_rejected {α : Type} {attempt : Nat → Except Err (Option α)} {d : Draw} (h : d.rejected) :
    TurnedAway attempt d := by
  cases d with
  | fail => exact h.elim
  | word b => exact .inl h

variable {α : Type} {attempt : Nat → Except Err (Option α)}

/-- Answers turned away are skipped (45_rng.md R292, 47_protocol.md R352). -/
theorem drawUntil_append {turned : List Draw} (h : ∀ d ∈ turned, TurnedAway attempt d) (rest : List Draw) :
    drawUntil attempt (turned ++ rest) = drawUntil attempt rest := by
  induction turned with
  | nil => rfl
  | cons d ds ih =>
    have hd := h d (by simp)
    have ih' := ih fun e he => h e (by simp [he])
    cases d with
    | fail => exact hd.elim
    | word b =>
      rw [List.cons_append, drawUntil]
      rcases hd with h0 | h1
      · rw [if_pos h0, ih']
      · rw [h1, ih']
        split <;> rfl

theorem drawUntil_waiting {turned : List Draw} (h : ∀ d ∈ turned, TurnedAway attempt d) :
    drawUntil attempt turned = .waiting := by
  have := drawUntil_append h []
  rwa [List.append_nil] at this

theorem drawUntil_fail {turned : List Draw} (h : ∀ d ∈ turned, TurnedAway attempt d) (rest : List Draw) :
    drawUntil attempt (turned ++ .fail :: rest) = .raised .entropy rest := drawUntil_append h _

theorem drawUntil_got {turned : List Draw} (h : ∀ d ∈ turned, TurnedAway attempt d) {b : Val} (rest : List Draw) {a : α}
    (hb : b.toNat % Config.n ≠ 0) (ha : attempt (b.toNat % Config.n) = .ok (some a)) :
    drawUntil attempt (turned ++ .word b :: rest) = .got a rest := by
  rw [drawUntil_append h, drawUntil, if_neg hb, ha]

/-- The ends of the loop: every one consumes a prefix; a result comes of a word not 0 modulo n; only FAIL and an attempt's
own error raise; waiting means that no answer was FAIL. -/
theorem drawUntil_cases (attempt : Nat → Except Err (Option α)) (draws : List Draw) :
    (∃ a b pre rest, drawUntil attempt draws = .got a rest ∧ draws = pre ++ .word b :: rest ∧ b.toNat % Config.n ≠ 0 ∧
      attempt (b.toNat % Config.n) = .ok (some a)) ∨
    (∃ e pre d rest, drawUntil attempt draws = .raised e rest ∧ draws = pre ++ d :: rest ∧
      (e = .entropy ∨ ∃ b : Val, b.toNat % Config.n ≠ 0 ∧ attempt (b.toNat % Config.n) = .error e)) ∨
    (drawUntil attempt draws = .waiting ∧ ∀ d ∈ draws, d ≠ .fail) := by
  induction draws with
  | nil => exact .inr (.inr ⟨rfl, by simp⟩)
  | cons d ds ih =>
    have lift (hstep : drawUntil attempt (d :: ds) = drawUntil attempt ds) (hd : d ≠ .fail) :
        (∃ a b pre rest, drawUntil attempt (d :: ds) = .got a rest ∧ d :: ds = pre ++ .word b :: rest ∧
          b.toNat % Config.n ≠ 0 ∧ attempt (b.toNat % Config.n) = .ok (some a)) ∨
        (∃ e pre d' rest, drawUntil attempt (d :: ds) = .raised e rest ∧ d :: ds = pre ++ d' :: rest ∧
          (e = .entropy ∨ ∃ b : Val, b.toNat % Config.n ≠ 0 ∧ attempt (b.toNat % Config.n) = .error e)) ∨
        (drawUntil attempt (d :: ds) = .waiting ∧ ∀ x ∈ d :: ds, x ≠ .fail) := by
      rcases ih with ⟨a, b, pre, rest, h, rfl, hb⟩ | ⟨e, pre, d', rest, h, rfl, he⟩ | ⟨h, hf⟩
      · exact Or.inl ⟨a, b, d :: pre, rest, hstep.trans h, rfl, hb⟩
      · exact Or.inr (.inl ⟨e, d :: pre, d', rest, hstep.trans h, rfl, he⟩)
      · refine Or.inr (.inr ⟨hstep.trans h, ?_⟩)
        intro x hx
        rcases List.mem_cons.1 hx with rfl | hx
        · exact hd
        · exact hf x hx
    cases d with
    | fail => exact .inr (.inl ⟨.entropy, [], .fail, ds, rfl, rfl, .inl rfl⟩)
    | word b =>
      by_cases hb : b.toNat % Config.n = 0
      · exact lift (by rw [drawUntil, if_pos hb]) (by simp)
      · cases ha : attempt (b.toNat % Config.n) with
        | error e => exact .inr (.inl ⟨e, [], .word b, ds, by rw [drawUntil, if_neg hb, ha], rfl, .inr ⟨b, hb, ha⟩⟩)
        | ok o =>
          cases o with
          | none => exact lift (by rw [drawUntil, if_neg hb, ha]) (by simp)
          | some a => exact .inl ⟨a, b, [], ds, by rw [drawUntil, if_neg hb, ha], rfl, hb, ha⟩

@[simp] theorem finishDrawn_got (s : State) (a : α) (rest : List Draw) (commit : State → α → State) :
    finishDrawn s (.got a rest) commit = .next ((commit { s with draws := rest } a).completeWith okCode) := rfl

@[simp] theorem finishDrawn_raised (s : State) (e : Err) (rest : List Draw) (commit : State → α → State) :
    finishDrawn s (.raised e rest) commit = .next ({ s with draws := rest }.completeWith e.code) := rfl

@[simp] theorem finishDrawn_waiting (s : State) (commit : State → α → State) :
    finishDrawn s .waiting commit = .next { s with draws := [] } := rfl

/-! ### Completion -/

theorem completedOnly_eq (s : State) (code : BitVec 8) : s.completedOnly code = s.completeWith code := rfl

/-- Every error code is one of R390's. -/
theorem code_mem (e : Err) : e.code ∈ errorCodes := by cases e <;> decide

theorem code_ne_ok (e : Err) : e.code ≠ 0#8 := by cases e <;> decide

/-! ### Buffers -/

theorem text_ok {s : State} {t : List Byte} (h : s.textIs t) : s.text = .ok t := by
  rw [State.text, if_neg (by have := h.1; simp only [Config.txtMax]; omega)]
  exact congrArg Except.ok h.2

theorem text_error {s : State} (h : 256 < s.txtLen.toNat) : s.text = .error .length := if_pos h

theorem message_ok {s : State} {t : List Byte} (h : s.messageIs t) : s.message = .ok t := by
  rw [State.message, if_neg (by have := h.1; omega)]
  exact congrArg Except.ok h.2

theorem messageIs_of_ok {s : State} {t : List Byte} (h : s.message = .ok t) : s.messageIs t := by
  unfold State.message at h
  split at h
  · cases h
  · injection h with h
    exact ⟨by omega, h⟩

theorem message_error {s : State} (h : s.msgMax.toNat < s.msgLen.toNat) : s.message = .error .length := if_pos h

/-- The message, where there is one. -/
theorem messageIs_bytes {s : State} (h : s.msgLen.toNat ≤ s.msgMax.toNat) :
    s.messageIs (s.mem.readBytes 0x1000 s.msgLen.toNat) := ⟨h, rfl⟩

/-! ### An encoder's commit -/

theorem commitText_bytes_length {t : List Byte} (h : t.length ≤ 256) :
    (t ++ List.replicate (Config.txtMax - t.length) (0#8 : Byte)).length = 256 := by
  simp [Config.txtMax]; omega

/-- The committed memory (46_codec.md R312). -/
theorem commitText_written {s : State} (hwf : s.mem.wf) {t : List Byte} (h : t.length ≤ 256) :
    TextWritten s.mem (s.commitText t).mem t := by
  refine ⟨writeBytes_wf hwf _ _, fun a => ?_⟩
  show Memory.read (Memory.writeBytes s.mem 0x0800 _) a = _
  rw [read_writeBytes hwf, commitText_bytes_length h]
  by_cases ha : 0x0800 ≤ a ∧ a < 0x0900
  · rw [if_pos (by omega), if_pos ha]
    simp only [List.getD_eq_getElem?_getD, List.getElem?_append, List.getElem?_replicate]
    split
    · rfl
    · rename_i hlt
      rw [List.getElem?_eq_none (by omega)]
      split <;> rfl
  · rw [if_neg (by omega), if_neg ha]

/-- The commit writes no byte outside TXT, whatever the form of the memory. -/
theorem commitText_outside (s : State) {t : List Byte} (h : t.length ≤ 256) {a : Nat} (ha : ¬(0x0800 ≤ a ∧ a < 0x0900)) :
    (s.commitText t).mem.read a = s.mem.read a := by
  refine read_writeBytes_outside _ 0x0800 _ ?_
  rw [commitText_bytes_length h]
  omega

/-- The committed text is the text the next decoder reads. -/
theorem commitText_textIs {s : State} (hwf : s.mem.wf) {t : List Byte} (h : t.length ≤ 256) :
    (s.commitText t).textIs t := by
  have hlen : (BitVec.ofNat 32 t.length).toNat = t.length := by rw [BitVec.toNat_ofNat]; omega
  refine ⟨by show (BitVec.ofNat 32 t.length).toNat ≤ 256; omega, ?_⟩
  show Memory.readBytes (Memory.writeBytes s.mem Config.txtBase _) 0x0800 (BitVec.ofNat 32 t.length).toNat = t
  rw [hlen]
  exact readBytes_writeBytes hwf _ _ _

/-- A text of up to three values fits (R312). -/
theorem joinFields_length1 (u : Val) : (joinFields [dec u]).length ≤ 256 := by
  have := dec_length u
  simp only [joinFields]; omega

theorem joinFields_length2 (u v : Val) : (joinFields [dec u, dec v]).length ≤ 256 := by
  have := dec_length u; have := dec_length v
  simp only [joinFields, List.length_append, List.length_cons]; omega

theorem joinFields_length3 (u v w : Val) : (joinFields [dec u, dec v, dec w]).length ≤ 256 := by
  have := dec_length u; have := dec_length v; have := dec_length w
  simp only [joinFields, List.length_append, List.length_cons]; omega

end Sys2Proof.Laws
end

