-- ==== Sys2Proof/Laws/Exec.lean ====
section
/-! SUPPORT. What a command can do, said once (60_exceptions.md R382 to R384): it commits its writes and completes, or it
raises and completes with nothing written, or it draws and waits. The frames, the completion rules and the invariant
follow from this. -/

namespace Sys2Proof.Laws

open Sys2Proof.Machine

/-- What a command that completes without error has written, before its completion. -/
structure Wrote (i : Instr) (s s' : State) : Prop extends CommandFrame i s s' where
  wf     : s.mem.wf → s'.mem.wf
  addrs  : ∀ ok : Nat → Prop, (∀ a, 0x0800 ≤ a → a < 0x0900 → ok a) → AddrsIn ok s.mem → AddrsIn ok s'.mem
  suffix : s'.draws <:+ s.draws
  fresh  : consumesDraws i = true → s'.draws.length < s.draws.length

theorem Wrote.refl {i : Instr} (s : State) (h : consumesDraws i = false) : Wrote i s s where
  x := fun _ _ => rfl
  p := fun _ _ => rfl
  mem := fun _ _ => rfl
  txtLen := fun _ => rfl
  flag := fun _ => rfl
  draws := fun _ => rfl
  msgLen := rfl
  ie := rfl
  busErr := rfl
  cmd := rfl
  msgMax := rfl
  pending := rfl
  response := rfl
  wf := id
  addrs := fun _ _ h => h
  suffix := List.suffix_refl _
  fresh := fun h' => by rw [h] at h'; cases h'

/-- Answers consumed, nothing written yet. -/
theorem Wrote.consumed {i : Instr} {s : State} {pre rest : List Draw} (h : consumesDraws i = true)
    (hd : s.draws = pre ++ rest) (hpre : pre ≠ []) : Wrote i s { s with draws := rest } where
  x := fun _ _ => rfl
  p := fun _ _ => rfl
  mem := fun _ _ => rfl
  txtLen := fun _ => rfl
  flag := fun _ => rfl
  draws := fun h' => by rw [h] at h'; cases h'
  msgLen := rfl
  ie := rfl
  busErr := rfl
  cmd := rfl
  msgMax := rfl
  pending := rfl
  response := rfl
  wf := id
  addrs := fun _ _ h => h
  suffix := ⟨pre, hd.symm⟩
  fresh := fun _ => by
    show rest.length < s.draws.length
    rw [hd, List.length_append]
    have := List.length_pos_of_ne_nil hpre
    omega

variable {i : Instr} {s s' : State}

theorem Wrote.writeX (h : Wrote i s s') {a : XReg} (ha : a ∈ xDests i) (v : Val) : Wrote i s (s'.writeX a v) :=
  { h with x := fun r hr => (readX_writeX_of_ne s' v (by rintro rfl; exact hr ha)).trans (h.x r hr) }

theorem Wrote.writePReg (h : Wrote i s s') {a : PReg} (ha : a ∈ pDests i) (r : PointReg) :
    Wrote i s (s'.writePReg a r) :=
  { h with p := fun q hq => (readPReg_writePReg_of_ne s' r (by rintro rfl; exact hq ha)).trans (h.p q hq) }

theorem Wrote.writeP (h : Wrote i s s') {a : PReg} (ha : a ∈ pDests i) (pt : Point) : Wrote i s (s'.writeP a pt) :=
  h.writePReg ha pt.stored

theorem Wrote.writeFlag (h : Wrote i s s') (hf : writesFlag i = true) (b : Bool) : Wrote i s (s'.writeFlag b) :=
  { h with flag := fun h' => by rw [hf] at h'; cases h' }

theorem Wrote.commitText (h : Wrote i s s') (ht : writesText i = true) {t : List Byte} (hlen : t.length ≤ 256) :
    Wrote i s (s'.commitText t) :=
  { h with
    txtLen := fun h' => by rw [ht] at h'; cases h'
    mem := fun a ha => (commitText_outside s' hlen (ha ht)).trans (h.mem a ha)
    wf := fun hw => writeBytes_wf (h.wf hw) _ _
    addrs := fun ok hok hin => by
      refine writeBytes_addrsIn (h.addrs ok hok hin) (a := 0x0800) fun j hj => ?_
      rw [commitText_bytes_length hlen] at hj
      exact hok _ (by omega) (by omega) }

/-- The three ends of a command. -/
def Ends (i : Instr) (s : State) (o : Host.Outcome State Fault Refusal) : Prop :=
  (∃ s', Wrote i s s' ∧ o = .next (s'.completeWith okCode)) ∨
  (∃ (e : Err) (rest : List Draw), rest <:+ s.draws ∧ (consumesDraws i = false → rest = s.draws) ∧
    o = .next ({ s with draws := rest }.completeWith e.code)) ∨
  (consumesDraws i = true ∧ (∀ d ∈ s.draws, d ≠ .fail) ∧ o = .next { s with draws := [] })

/-- A command that does not draw ends by its result. -/
theorem Ends.finish {r : Except Err State} (h : ∀ s', r = .ok s' → Wrote i s s') : Ends i s (finish s r) := by
  cases r with
  | ok s' => exact .inl ⟨s', h s' rfl, rfl⟩
  | error e => exact .inr (.inl ⟨e, s.draws, List.suffix_refl _, fun _ => rfl, rfl⟩)

theorem Ends.finish_map {α : Type} {r : Except Err α} {f : α → State} (h : ∀ a, Wrote i s (f a)) :
    Ends i s (Machine.finish s (r.map f)) := by
  refine Ends.finish fun s' hs' => ?_
  cases r with
  | ok a => injection hs' with hs'; exact hs' ▸ h a
  | error e => cases hs'

/-- A command that draws ends by its loop. -/
theorem Ends.drawn {α : Type} (hi : consumesDraws i = true) (attempt : Nat → Except Err (Option α))
    {commit : State → α → State} (h : ∀ s' a, Wrote i s s' → Wrote i s (commit s' a)) :
    Ends i s (finishDrawn s (drawUntil attempt s.draws) commit) := by
  rcases drawUntil_cases attempt s.draws with ⟨a, b, pre, rest, hd, hs, -⟩ | ⟨e, pre, d, rest, hd, hs, -⟩ | ⟨hd, hf⟩
  · rw [hd]
    refine .inl ⟨_, h _ a (Wrote.consumed (pre := pre ++ [.word b]) hi (by simp [hs]) (by simp)), rfl⟩
  · rw [hd]
    refine .inr (.inl ⟨e, rest, ⟨pre ++ [d], by simp [hs]⟩, ?_, rfl⟩)
    intro h'
    rw [hi] at h'; cases h'
  · rw [hd]
    exact .inr (.inr ⟨hi, hf, rfl⟩)

/-! The commands that hash end so for every H (44_digest.md R254). -/

theorem execHashWith_ends (h : HashFunction) (a : XReg) (m : HashSource) (s : State) :
    Ends (.hash a m) s (execHashWith h a m s) :=
  Ends.finish_map fun _ => (Wrote.refl s rfl).writeX (by simp [xDests]) _

theorem execSignWith_ends (h : HashFunction) (a b c : XReg) (s : State) :
    Ends (.sign a b c) s (execSignWith h a b c s) := by
  unfold execSignWith
  split
  · exact Ends.finish fun s' h => by cases h
  · split
    · exact Ends.finish fun s' h => by cases h
    · exact Ends.drawn rfl _ fun s' v h => (h.writeX (by simp [xDests]) _).writeX (by simp [xDests]) _

theorem execVerifyWith_ends (h : HashFunction) (a b : XReg) (c : PReg) (s : State) :
    Ends (.verify a b c) s (execVerifyWith h a b c s) :=
  Ends.finish_map fun _ => (Wrote.refl s rfl).writeFlag rfl _

/-- Every command, in every state, ends in one of the three ways. -/
theorem exec_ends (i : Instr) (s : State) : Ends i s (exec i s) := by
  cases i with
  | nop => exact Ends.finish fun s' h => by injection h with h; exact h ▸ Wrote.refl s rfl
  | madd a b c m | msub a b c m | mmul a b c m | mred a b m | mov a b | ldc a k =>
    exact Ends.finish fun s' h => by injection h with h; exact h ▸ (Wrote.refl s rfl).writeX (by simp [xDests]) _
  | minv a b m =>
    refine Ends.finish fun s' h => ?_
    split at h
    · cases h
    · injection h with h; exact h ▸ (Wrote.refl s rfl).writeX (by simp [xDests]) _
  | pmov a b =>
    exact Ends.finish fun s' h => by injection h with h; exact h ▸ (Wrote.refl s rfl).writePReg (by simp [pDests]) _
  | pset a b c | pinf a | pgen a =>
    exact Ends.finish fun s' h => by injection h with h; exact h ▸ (Wrote.refl s rfl).writeP (by simp [pDests]) _
  | pgetx a b | pgety a b =>
    refine Ends.finish fun s' h => ?_
    split at h
    · cases h
    · injection h with h; exact h ▸ (Wrote.refl s rfl).writeX (by simp [xDests]) _
  | padd a b c | pdbl a b => exact Ends.finish_map fun r => (Wrote.refl s rfl).writeP (by simp [pDests]) _
  | pchk b => exact Ends.finish fun s' h => by injection h with h; exact h ▸ (Wrote.refl s rfl).writeFlag rfl _
  | pmul a b c =>
    refine Ends.finish fun s' h => ?_
    split at h
    · injection h with h; exact h ▸ (Wrote.refl s rfl).writeP (by simp [pDests]) _
    · split at h
      · cases h
      · cases hr : scalarMult (s.readX b).toNat (s.readP c) with
        | error e => rw [hr] at h; cases h
        | ok r => rw [hr] at h; injection h with h; exact h ▸ (Wrote.refl s rfl).writeP (by simp [pDests]) _
  | hash a m => exact execHashWith_ends hashH a m s
  | rand a =>
    show Ends _ s (execRand a s)
    unfold execRand randScalar
    exact Ends.drawn rfl _ fun s' v h => h.writeX (by simp [xDests]) _
  | encd b =>
    exact Ends.finish fun s' h => by
      injection h with h; exact h ▸ (Wrote.refl s rfl).commitText rfl (joinFields_length1 _)
  | encsig b c =>
    exact Ends.finish fun s' h => by
      injection h with h; exact h ▸ (Wrote.refl s rfl).commitText rfl (joinFields_length2 _ _)
  | encq b =>
    refine Ends.finish fun s' h => ?_
    split at h
    · cases h
    · injection h with h; exact h ▸ (Wrote.refl s rfl).commitText rfl (joinFields_length2 _ _)
  | enckp b c =>
    refine Ends.finish fun s' h => ?_
    split at h
    · cases h
    · injection h with h; exact h ▸ (Wrote.refl s rfl).commitText rfl (joinFields_length3 _ _ _)
  | decd a => exact Ends.finish_map fun r => (Wrote.refl s rfl).writeX (by simp [xDests]) _
  | decq a => exact Ends.finish_map fun r => (Wrote.refl s rfl).writeP (by simp [pDests]) _
  | deckp a b =>
    exact Ends.finish_map fun r => ((Wrote.refl s rfl).writeX (by simp [xDests]) _).writeP (by simp [pDests]) _
  | decsig a b =>
    refine Ends.finish fun s' h => ?_
    split at h
    · cases h
    · cases hr : s.text.bind parse2 with
      | error e => rw [hr] at h; cases h
      | ok r =>
        rw [hr] at h; injection h with h
        exact h ▸ ((Wrote.refl s rfl).writeX (by simp [xDests]) _).writeX (by simp [xDests]) _
  | keygen a b =>
    show Ends _ s (execKeygen a b s)
    unfold execKeygen
    exact Ends.drawn rfl _ fun s' v h => (h.writeX (by simp [xDests]) _).writeP (by simp [pDests]) _
  | sign a b c => exact execSignWith_ends hashH a b c s
  | verify a b c => exact execVerifyWith_ends hashH a b c s

/-- The inversion every statement about a command's next state starts from. -/
theorem exec_cases {i : Instr} {s t : State} (h : exec i s = .next t) :
    (∃ s', Wrote i s s' ∧ t = s'.completeWith okCode) ∨
    (∃ (e : Err) (rest : List Draw), rest <:+ s.draws ∧ (consumesDraws i = false → rest = s.draws) ∧
      t = { s with draws := rest }.completeWith e.code) ∨
    (consumesDraws i = true ∧ (∀ d ∈ s.draws, d ≠ .fail) ∧ t = { s with draws := [] }) := by
  rcases exec_ends i s with ⟨s', hw, ho⟩ | ⟨e, rest, hs, hc, ho⟩ | ⟨hi, hf, ho⟩
  · exact .inl ⟨s', hw, by rw [h] at ho; injection ho⟩
  · exact .inr (.inl ⟨e, rest, hs, hc, by rw [h] at ho; injection ho⟩)
  · exact .inr (.inr ⟨hi, hf, by rw [h] at ho; injection ho⟩)

end Sys2Proof.Laws
end

