-- ==== Sys2Proof/Laws/Group.lean ====
section
/-! SUPPORT. The bridge from the core's point algebra to the group of a Weierstrass curve over the field of p elements:
on valid points `pointAdd` is that group's addition (42_point.md R204), and `scalarMult` and `kFoldSum` its multiples. -/

namespace Sys2Proof.Laws

open Sys2Proof.Machine

/-- The field of p elements. -/
abbrev Fp := ZMod Config.p

/-- The curve y^2 = x^3 + 7 (00_scope.md R3, R4). -/
def curve : WeierstrassCurve.Affine Fp := ⟨0, 0, 0, 0, 7⟩

theorem fact_p : Fact (Nat.Prime Config.p) := ⟨p_prime⟩

/-- A natural number below p is 0 in the field only if it is 0. -/
theorem cast_eq_zero {a : Nat} (h : a < Config.p) : (a : Fp) = 0 ↔ a = 0 := by
  rw [ZMod.natCast_eq_zero_iff]
  exact ⟨fun hd => Nat.eq_zero_of_dvd_of_lt hd h, fun ha => ha ▸ dvd_zero _⟩

/-- Numbers below p are determined by their residues. -/
theorem cast_inj {a b : Nat} (ha : a < Config.p) (hb : b < Config.p) : (a : Fp) = b ↔ a = b := by
  rw [ZMod.natCast_eq_natCast_iff, Nat.ModEq, Nat.mod_eq_of_lt ha, Nat.mod_eq_of_lt hb]

theorem residue_p_zmod (a : Int) : ((residue a Config.p : Nat) : Fp) = (a : Fp) := residue_zmod a p_prime.pos

theorem residue_p_lt (a : Int) : residue a Config.p < Config.p := residue_lt a p_prime.pos

theorem p_lt : Config.p < 2 ^ 256 := by decide

/-- The curve's equation, as `onCurve` computes it. -/
theorem onCurve_iff (x y : Nat) :
    onCurve x y = true ↔ x < Config.p ∧ y < Config.p ∧ ((y : Fp) ^ 2 = (x : Fp) ^ 3 + 7) := by
  simp only [onCurve, Bool.and_eq_true, decide_eq_true_eq, beq_iff_eq, and_assoc]
  refine and_congr_right fun _ => and_congr_right fun _ => ?_
  rw [← cast_eq_zero (residue_p_lt _), residue_p_zmod]
  have : ((Config.b : Nat) : Fp) = 7 := by norm_num [Config.b]
  push_cast
  rw [this, sub_sub, sub_eq_zero]

theorem equation_iff (x y : Fp) : curve.Equation x y ↔ y ^ 2 = x ^ 3 + 7 := by
  rw [WeierstrassCurve.Affine.equation_iff]
  simp [curve]

/-- -7 is not a cube modulo p, so no point of the curve has y = 0 (R4, R203). -/
theorem y_ne_zero {x y : Fp} (h : y ^ 2 = x ^ 3 + 7) : y ≠ 0 := by
  have := fact_p
  rintro rfl
  have hx3 : x ^ 3 = -7 := by linear_combination -h
  have hx : x ≠ 0 := by
    rintro rfl
    have h7 : ((7 : Nat) : Fp) = 0 := by push_cast; linear_combination -h
    exact absurd ((cast_eq_zero (by decide)).1 h7) (by decide)
  have hone : x ^ (Config.p - 1) = 1 := ZMod.pow_card_sub_one_eq_one hx
  have hsplit : Config.p - 1 = 3 * ((Config.p - 1) / 3) := by decide
  rw [hsplit, pow_mul, hx3] at hone
  have hneg : ((Config.p - 7 : Nat) : Fp) = -7 := by
    rw [Nat.cast_sub (by decide)]; simp
  have hmod : ((Config.p - 7 : Nat) : Fp) ^ ((Config.p - 1) / 3) = ((1 : Nat) : Fp) := by
    rw [hneg, hone, Nat.cast_one]
  rw [← Nat.cast_pow, ZMod.natCast_eq_natCast_iff, Nat.ModEq, ← powMod_eq Config.p _ (by decide)] at hmod
  exact absurd hmod (by decide +kernel)

theorem nonsingular_iff (x y : Fp) : curve.Nonsingular x y ↔ y ^ 2 = x ^ 3 + 7 := by
  have := fact_p
  rw [WeierstrassCurve.Affine.nonsingular_iff, equation_iff]
  refine and_iff_left_of_imp fun h => .inr ?_
  simp only [curve, zero_mul, sub_zero]
  intro hy
  have h2 : (2 : Fp) * y = 0 := by linear_combination hy
  rcases mul_eq_zero.1 h2 with h2 | h2
  · have : ((2 : Nat) : Fp) = 0 := by exact_mod_cast h2
    exact absurd ((cast_eq_zero (by decide)).1 this) (by decide)
  · exact y_ne_zero h h2

/-- A point value stands for a point of the curve. -/
def Reps : Point → curve.Point → Prop
  | .inf, P => P = 0
  | .aff x y, P => x.toNat < Config.p ∧ y.toNat < Config.p ∧ ∃ h, P = .some (x.toNat : Fp) (y.toNat : Fp) h

/-- The valid point values are those that stand for a point. -/
theorem valid_iff_reps (u : Point) : u.valid = true ↔ ∃ P, Reps u P := by
  cases u with
  | inf => simp [Point.valid, Reps]
  | aff x y =>
    rw [Point.valid, onCurve_iff, ← nonsingular_iff]
    constructor
    · rintro ⟨hx, hy, h⟩
      exact ⟨_, hx, hy, h, rfl⟩
    · rintro ⟨_, hx, hy, h, -⟩
      exact ⟨hx, hy, h⟩

theorem Reps.valid {u : Point} {P : curve.Point} (h : Reps u P) : u.valid = true := (valid_iff_reps u).2 ⟨P, h⟩

/-- A value stands for one point only. -/
theorem Reps.point_unique {u : Point} {P Q : curve.Point} (hP : Reps u P) (hQ : Reps u Q) : P = Q := by
  cases u with
  | inf => exact Eq.trans hP (Eq.symm hQ)
  | aff x y =>
    obtain ⟨_, _, h, rfl⟩ := hP
    obtain ⟨_, _, h', rfl⟩ := hQ
    rfl

/-- A point has one value only. -/
theorem Reps.value_unique {u v : Point} {P : curve.Point} (hu : Reps u P) (hv : Reps v P) : u = v := by
  cases u with
  | inf =>
    obtain rfl : P = 0 := hu
    cases v with
    | inf => rfl
    | aff x y => obtain ⟨_, _, h, hP⟩ := hv; cases hP
  | aff x y =>
    obtain ⟨hx, hy, h, rfl⟩ := hu
    cases v with
    | inf => cases hv
    | aff x' y' =>
      obtain ⟨hx', hy', h', hP⟩ := hv
      injection hP with h1 h2
      rw [cast_inj hx hx'] at h1
      rw [cast_inj hy hy'] at h2
      rw [BitVec.eq_of_toNat_eq h1, BitVec.eq_of_toNat_eq h2]

theorem Reps.inField {u : Point} {P : curve.Point} (h : Reps u P) : u.outOfField = false := by
  cases u with
  | inf => rfl
  | aff x y =>
    obtain ⟨hx, hy, _⟩ := h
    simp [Point.outOfField, hx, hy]

/-- The inverse modulo p is the field's inverse. -/
theorem invMod_p {a : Nat} (ha : (a : Fp) ≠ 0) : ((invMod Config.p a : Nat) : Fp) = (a : Fp)⁻¹ := by
  have := fact_p
  have hmod : a % modulusValue .p ≠ 0 := fun h =>
    ha ((ZMod.natCast_eq_zero_iff a Config.p).2 (Nat.dvd_of_mod_eq_zero h))
  have h1 := (invMod_modulus .p hmod).1
  have h2 : ((a * invMod Config.p a : Nat) : Fp) = ((1 : Nat) : Fp) := by
    rw [ZMod.natCast_eq_natCast_iff, Nat.ModEq, Nat.mod_eq_of_lt p_prime.one_lt]
    exact h1
  push_cast at h2
  exact (inv_eq_of_mul_eq_one_right h2).symm

/-- The line's third point, for the slope the field gives. -/
theorem chordResult_reps {lam x1 y1 x2 : Nat} {l : Fp} (hl : (lam : Fp) = l)
    (h : curve.Nonsingular (curve.addX x1 x2 l) (curve.addY x1 x2 y1 l)) :
    Reps (chordResult lam x1 y1 x2) (.some _ _ h) := by
  have hx : ((residue ((lam : Int) ^ 2 - x1 - x2) Config.p : Nat) : Fp) = curve.addX x1 x2 l := by
    rw [residue_p_zmod]; push_cast; rw [hl]; simp [WeierstrassCurve.Affine.addX, curve]
  have hy : ((residue ((lam : Int) * ((x1 : Int) - (residue ((lam : Int) ^ 2 - x1 - x2) Config.p : Nat)) - y1) Config.p
      : Nat) : Fp) = curve.addY x1 x2 y1 l := by
    rw [residue_p_zmod]; push_cast
    rw [hl, hx]
    simp only [WeierstrassCurve.Affine.addY, WeierstrassCurve.Affine.negY, WeierstrassCurve.Affine.negAddY, curve]
    ring
  have lt1 : residue ((lam : Int) ^ 2 - x1 - x2) Config.p < 2 ^ 256 := lt_trans (residue_p_lt _) p_lt
  have lt2 : residue ((lam : Int) * ((x1 : Int) - (residue ((lam : Int) ^ 2 - x1 - x2) Config.p : Nat)) - y1) Config.p
      < 2 ^ 256 := lt_trans (residue_p_lt _) p_lt
  simp only [chordResult, force_eq, Reps, toNat_toVal lt1, toNat_toVal lt2]
  refine ⟨residue_p_lt _, residue_p_lt _, ?_⟩
  simp only [hx, hy]
  exact ⟨h, trivial⟩

/-- On valid points `add` raises nothing and is the group's addition (R204). -/
theorem pointAdd_reps {u v : Point} {P Q : curve.Point} (hu : Reps u P) (hv : Reps v Q) :
    haveI := fact_p
    ∃ w, pointAdd u v = .ok w ∧ Reps w (P + Q) := by
  have := fact_p
  unfold pointAdd
  rw [hu.inField, hv.inField]
  simp only [Bool.or_self, Bool.false_eq_true, if_false]
  cases u with
  | inf =>
    obtain rfl : P = 0 := hu
    exact ⟨v, rfl, by rwa [zero_add]⟩
  | aff x1 y1 =>
    cases v with
    | inf =>
      obtain rfl : Q = 0 := hv
      exact ⟨_, rfl, by rwa [add_zero]⟩
    | aff x2 y2 =>
      obtain ⟨hx1, hy1, h1, rfl⟩ := hu
      obtain ⟨hx2, hy2, h2, rfl⟩ := hv
      dsimp only
      have e1 := (nonsingular_iff _ _).1 h1
      have e2 := (nonsingular_iff _ _).1 h2
      have hyne := y_ne_zero e1
      have hneg : ∀ x y : Fp, curve.negY x y = -y := fun x y => by simp [WeierstrassCurve.Affine.negY, curve]
      have hxcast : x1 = x2 ↔ (x1.toNat : Fp) = x2.toNat := by
        rw [cast_inj hx1 hx2, BitVec.toNat_inj]
      have hsum : (y1.toNat + y2.toNat) % Config.p = 0 ↔ (y1.toNat : Fp) = -(y2.toNat : Fp) := by
        rw [← Nat.dvd_iff_mod_eq_zero, ← ZMod.natCast_eq_zero_iff]
        push_cast
        exact add_eq_zero_iff_eq_neg
      by_cases hx : x1 = x2
      · by_cases hy : (y1.toNat : Fp) = -(y2.toNat : Fp)
        · have hne : Point.aff x1 y1 ≠ .aff x2 y2 := by
            intro heq
            injection heq with _ h
            rw [h] at hy hyne
            have h2y : (2 : Fp) * y2.toNat = 0 := by linear_combination hy
            rcases mul_eq_zero.1 h2y with h | h
            · have : ((2 : Nat) : Fp) = 0 := by exact_mod_cast h
              exact absurd ((cast_eq_zero (by decide)).1 this) (by decide)
            · exact hyne h
          rw [if_pos ⟨hne, hx, hsum.2 hy⟩]
          refine ⟨.inf, rfl, ?_⟩
          exact WeierstrassCurve.Affine.Point.add_of_Y_eq (hxcast.1 hx) (by rw [hneg]; exact hy)
        · have hyy : y1 = y2 := by
            have hsq : (y1.toNat : Fp) ^ 2 = (y2.toNat : Fp) ^ 2 := by rw [e1, e2, hxcast.1 hx]
            rcases sq_eq_sq_iff_eq_or_eq_neg.1 hsq with h | h
            · rw [cast_inj hy1 hy2] at h; exact BitVec.eq_of_toNat_eq h
            · exact absurd h hy
          subst hx hyy
          have hy0 : y1.toNat ≠ 0 := fun h => hyne (by rw [h]; simp)
          rw [if_neg (fun h => h.1 rfl), if_pos rfl, if_neg hy0]
          have hynegY : (y1.toNat : Fp) ≠ curve.negY x1.toNat y1.toNat := by rw [hneg]; exact hy
          refine ⟨_, rfl, ?_⟩
          rw [WeierstrassCurve.Affine.Point.add_self_of_Y_ne hynegY]
          refine chordResult_reps ?_ _
          rw [WeierstrassCurve.Affine.slope_of_Y_ne rfl hynegY, residue_p_zmod, hneg]
          have h2y : ((2 * y1.toNat : Nat) : Fp) ≠ 0 := by
            intro h; push_cast at h
            exact hy (by linear_combination h)
          push_cast
          rw [invMod_p h2y]
          push_cast
          simp only [curve, div_eq_mul_inv]
          ring
      · have hne : Point.aff x1 y1 ≠ .aff x2 y2 := fun h => hx (by injection h)
        rw [if_neg (fun h => hx h.2.1), if_neg hne, if_neg hx]
        have hxF : (x1.toNat : Fp) ≠ x2.toNat := fun h => hx (hxcast.2 h)
        refine ⟨_, rfl, ?_⟩
        rw [WeierstrassCurve.Affine.Point.add_of_X_ne hxF]
        refine chordResult_reps ?_ _
        rw [WeierstrassCurve.Affine.slope_of_X_ne hxF, residue_p_zmod]
        have hd : ((residue ((x2.toNat : Int) - x1.toNat) Config.p : Nat) : Fp) = (x2.toNat : Fp) - x1.toNat := by
          rw [residue_p_zmod]; push_cast; rfl
        have hd0 : ((residue ((x2.toNat : Int) - x1.toNat) Config.p : Nat) : Fp) ≠ 0 := by
          rw [hd]; exact sub_ne_zero.2 (Ne.symm hxF)
        push_cast
        rw [invMod_p hd0, hd, ← neg_sub (x2.toNat : Fp), ← neg_sub (y2.toNat : Fp), neg_div_neg_eq, div_eq_mul_inv]

/-! ### Multiples -/

/-- Double-and-add over the low `bits` bits of k, from any accumulator (R232). -/
theorem doubleAndAdd_reps {q : Point} {Q : curve.Point} (hq : Reps q Q) (k bits : Nat) {acc : Point} {A : curve.Point}
    (ha : Reps acc A) :
    haveI := fact_p
    ∃ w, doubleAndAdd q k bits acc = .ok w ∧ Reps w (2 ^ bits • A + (k % 2 ^ bits) • Q) := by
  have := fact_p
  induction bits generalizing acc A with
  | zero => exact ⟨acc, rfl, by simpa [Nat.mod_one] using ha⟩
  | succ b ih =>
    obtain ⟨twice, h2, r2⟩ := pointAdd_reps ha ha
    rw [doubleAndAdd, h2]
    have hmod : k % 2 ^ (b + 1) = k % 2 ^ b + 2 ^ b * (k.testBit b).toNat := by
      rw [Nat.mod_pow_succ, Nat.testBit_eq_decide_div_mod_eq]
      rcases Nat.mod_two_eq_zero_or_one (k / 2 ^ b) with h | h <;> simp [h]
    dsimp only
    cases hk : k.testBit b with
    | false =>
      obtain ⟨w, hw, rw'⟩ := ih r2
      refine ⟨w, by simpa using hw, ?_⟩
      rw [hmod, hk]
      convert rw' using 1
      rw [pow_succ, mul_smul, two_smul]
      simp
    | true =>
      obtain ⟨sum, h3, r3⟩ := pointAdd_reps r2 hq
      obtain ⟨w, hw, rw'⟩ := ih r3
      refine ⟨w, by simpa [h3] using hw, ?_⟩
      rw [hmod, hk]
      convert rw' using 1
      rw [pow_succ, mul_smul, two_smul, add_smul, Bool.toNat_true, mul_one, nsmul_add, nsmul_add, nsmul_add]
      abel

/-- On a valid point the scalar multiple never raises and is the group's (R231). -/
theorem scalarMult_reps {q : Point} {Q : curve.Point} (hq : Reps q Q) {k : Nat} (hk : k < 2 ^ 256) :
    haveI := fact_p
    ∃ w, scalarMult k q = .ok w ∧ Reps w (k • Q) := by
  have := fact_p
  obtain ⟨w, h, r⟩ := doubleAndAdd_reps hq k 256 (acc := .inf) (A := 0) rfl
  rw [Nat.mod_eq_of_lt hk, nsmul_zero, zero_add] at r
  exact ⟨w, h, r⟩

/-- So is the k-fold sum, for every k (R231). -/
theorem kFoldSum_reps {q : Point} {Q : curve.Point} (hq : Reps q Q) (k : Nat) :
    haveI := fact_p
    ∃ w, kFoldSum q k = .ok w ∧ Reps w (k • Q) := by
  have := fact_p
  induction k with
  | zero => exact ⟨.inf, rfl, by simp [Reps]⟩
  | succ k ih =>
    obtain ⟨w, hw, rw'⟩ := ih
    obtain ⟨v, hv, rv⟩ := pointAdd_reps rw' hq
    refine ⟨v, by simp only [kFoldSum, hw, Except.bind]; exact hv, ?_⟩
    rwa [succ_nsmul]

/-- G is a valid point (R4). -/
theorem generator_valid : generator.valid = true := by decide +kernel

/-- The inverse of a valid value stands for the inverse of its point (00_scope.md R16). -/
theorem neg_reps {u : Point} {U : curve.Point} (h : Reps u U) : haveI := fact_p; Reps u.neg (-U) := by
  have := fact_p
  cases u with
  | inf => obtain rfl : U = 0 := h; exact neg_zero
  | aff x y =>
    obtain ⟨hx, hy, hns, rfl⟩ := h
    rw [WeierstrassCurve.Affine.Point.neg_some]
    have e := (nonsingular_iff _ _).1 hns
    have hy0 := y_ne_zero e
    have hyn : y.toNat ≠ 0 := by intro h0; rw [h0] at hy0; exact hy0 (by simp)
    have hv : (toVal (residue ((Config.p : Int) - y.toNat) Config.p)).toNat = Config.p - y.toNat := by
      rw [toNat_toVal (lt_trans (residue_p_lt _) p_lt), residue, ← Nat.cast_sub hy.le, ← Int.natCast_emod, Int.toNat_natCast]
      exact Nat.mod_eq_of_lt (by omega)
    have hneg : curve.negY (x.toNat : Fp) (y.toNat : Fp) = ((Config.p - y.toNat : Nat) : Fp) := by
      rw [Nat.cast_sub hy.le]; simp [WeierstrassCurve.Affine.negY, curve]
    refine ⟨hx, by rw [hv]; omega, ?_⟩
    have hns' := (WeierstrassCurve.Affine.nonsingular_neg (W' := curve) _ _).2 hns
    rw [hneg] at hns'
    refine ⟨by rw [hv]; exact hns', ?_⟩
    congr 1; rw [hv]; exact hneg

/-- The line's third point, by its congruences (42_point.md R201). -/
theorem chordResult_spec (lam x1 y1 x2 : Nat) :
    ∃ x3 y3 : Val, chordResult lam x1 y1 x2 = .aff x3 y3 ∧ x3.toNat < Config.p ∧ y3.toNat < Config.p ∧
      (x3.toNat : Int) = ((lam : Int) ^ 2 - x1 - x2) % Config.p ∧
      (y3.toNat : Int) = ((lam : Int) * (x1 - x3.toNat) - y1) % Config.p := by
  have lt (a : Int) : (toVal (residue a Config.p)).toNat = residue a Config.p := toNat_toVal (lt_trans (residue_p_lt a) p_lt)
  simp only [chordResult, force_eq]
  refine ⟨_, _, rfl, ?_, ?_, ?_, ?_⟩
  · rw [lt]; exact residue_p_lt _
  · rw [lt]; exact residue_p_lt _
  · rw [lt]; exact residue_cast _ p_prime.pos
  · rw [lt, lt]; exact residue_cast _ p_prime.pos

end Sys2Proof.Laws
end

