-- ==== Sys2Proof/Laws/Order.lean ====
section
/-! SUPPORT. G has order n: n·G = O (00_scope.md R4), computed by the model's own scalar multiple, and n is prime. And the
whole group is the multiples of G (42_point.md R204): it has at most 2p + 1 points, so n or 2n of them; and not 2n, since
no point has order 2, for none has y = 0. -/

set_option Elab.async false

namespace Sys2Proof.Laws

open Sys2Proof.Machine

/-- A value is O. -/
def isInf : Except Err Point → Bool
  | .ok .inf => true
  | _ => false

theorem isInf_scalarMult_n : isInf (scalarMult Config.n generator) = true := by decide +kernel

/-- n·G = O (R4). -/
theorem n_smul_generator {G : curve.Point} (h : Reps generator G) :
    haveI := fact_p
    Config.n • G = 0 := by
  have := fact_p
  obtain ⟨w, hw, r⟩ := scalarMult_reps h (k := Config.n) (by decide)
  have hinf := isInf_scalarMult_n
  rw [hw] at hinf
  cases w with
  | inf => exact r
  | aff x y => cases hinf

theorem generator_ne_zero {G : curve.Point} (h : Reps generator G) : G ≠ 0 := by
  rintro rfl
  exact Point.noConfusion (h.value_unique (v := .inf) rfl)

/-- The order of G is n exactly. -/
theorem addOrderOf_generator {G : curve.Point} (h : Reps generator G) :
    haveI := fact_p
    addOrderOf G = Config.n := by
  have := fact_p
  have : Fact (Nat.Prime Config.n) := ⟨n_prime⟩
  exact addOrderOf_eq_prime (n_smul_generator h) (generator_ne_zero h)

/-! ### The whole group -/

/-- A point as its abscissa and the parity of its ordinate. -/
def compressed : curve.Point → Option (Fp × Bool)
  | .zero => none
  | .some x y _ => some (x, decide (y.val % 2 = 0))

theorem compressed_injective : Function.Injective compressed := by
  have := fact_p
  intro P Q h
  cases P with
  | zero =>
    cases Q with
    | zero => rfl
    | some x y hq => cases h
  | some x y hp =>
    cases Q with
    | zero => cases h
    | some x' y' hq =>
      injection h with h
      injection h with hx hpar
      subst hx
      have e := (nonsingular_iff _ _).1 hp
      have e' := (nonsingular_iff _ _).1 hq
      have hsq : y ^ 2 = y' ^ 2 := e.trans e'.symm
      have hy : y = y' := by
        rcases sq_eq_sq_iff_eq_or_eq_neg.1 hsq with h | h
        · exact h
        · exfalso
          have hy0 : y' ≠ 0 := y_ne_zero e'
          have hval : y.val = Config.p - y'.val := by
            rw [h, ZMod.neg_val, if_neg hy0]
          have hlt := ZMod.val_lt y'
          have hp2 : Config.p % 2 = 1 := by decide
          rw [decide_eq_decide] at hpar
          omega
      subst hy
      rfl

theorem finite_points : Finite curve.Point := by
  have := fact_p
  exact Finite.of_injective _ compressed_injective

theorem card_le : Nat.card curve.Point ≤ 2 * Config.p + 1 := by
  have := fact_p
  have h := Nat.card_le_card_of_injective _ compressed_injective
  rw [Nat.card_eq_fintype_card (α := Option (Fp × Bool)), Fintype.card_option, Fintype.card_prod, ZMod.card,
    Fintype.card_bool] at h
  omega

/-- No point has order 2. -/
theorem two_smul_ne_zero {P : curve.Point} (h : P ≠ 0) :
    haveI := fact_p
    2 • P ≠ 0 := by
  have := fact_p
  intro h2
  rw [two_nsmul, add_eq_zero_iff_eq_neg] at h2
  cases P with
  | zero => exact h rfl
  | some x y hp =>
    rw [WeierstrassCurve.Affine.Point.neg_some] at h2
    injection h2 with _ hy
    have hneg : curve.negY x y = -y := by simp [WeierstrassCurve.Affine.negY, curve]
    rw [hneg] at hy
    have hy2 : (2 : Fp) * y = 0 := by linear_combination hy
    rcases mul_eq_zero.1 hy2 with h2 | h2
    · have : ((2 : Nat) : Fp) = 0 := by exact_mod_cast h2
      exact absurd ((cast_eq_zero (by decide)).1 this) (by decide)
    · exact y_ne_zero ((nonsingular_iff _ _).1 hp) h2

/-- The group has exactly n points: the cofactor is 1 (R204). -/
theorem card_points : Nat.card curve.Point = Config.n := by
  have := fact_p
  have := finite_points
  have : Fact (Nat.Prime 2) := ⟨Nat.prime_two⟩
  obtain ⟨G, hG⟩ := (valid_iff_reps generator).1 generator_valid
  have hdvd : Config.n ∣ Nat.card curve.Point := by
    rw [← addOrderOf_generator hG]
    exact addOrderOf_dvd_natCard G
  obtain ⟨c, hc⟩ := hdvd
  have hpos : 0 < Nat.card curve.Point := Nat.card_pos
  have hle := card_le
  have hbound : 2 * Config.p + 1 < Config.n * 3 := by decide
  have hc3 : c < 3 := by
    by_contra hge
    have : Config.n * 3 ≤ Config.n * c := Nat.mul_le_mul_left _ (by omega)
    omega
  have hc0 : c ≠ 0 := by
    rintro rfl
    omega
  have hc2 : c ≠ 2 := by
    rintro rfl
    obtain ⟨P, hP⟩ := exists_prime_addOrderOf_dvd_card' 2 (hc ▸ Dvd.intro_left _ rfl)
    have h2 : 2 • P = 0 := by rw [← hP]; exact addOrderOf_nsmul_eq_zero P
    refine two_smul_ne_zero ?_ h2
    rintro rfl
    rw [addOrderOf_zero] at hP
    omega
  have : c = 1 := by omega
  rw [hc, this, mul_one]

/-- n·Q = O for every point Q. -/
theorem n_smul (Q : curve.Point) :
    haveI := fact_p
    Config.n • Q = 0 := by
  have := fact_p
  rw [← card_points]
  exact card_nsmul_eq_zero'

/-- Multiples of every point depend on k modulo n alone (43_scalar_mult.md R231). -/
theorem smul_mod (k : Nat) (Q : curve.Point) :
    haveI := fact_p
    (k % Config.n) • Q = k • Q := by
  have := fact_p
  conv_rhs => rw [← Nat.div_add_mod k Config.n, add_smul, mul_comm, mul_smul, n_smul, nsmul_zero, zero_add]

/-- Every point is a multiple of G (R204). -/
theorem exists_smul_generator {G : curve.Point} (h : Reps generator G) (Q : curve.Point) :
    haveI := fact_p
    ∃ k, k < Config.n ∧ k • G = Q := by
  have := fact_p
  have := finite_points
  have : Fact (Nat.Prime (Nat.card curve.Point)) := ⟨card_points ▸ n_prime⟩
  have htop := AddSubgroup.mem_zmultiples_iff.1 (mem_zmultiples_of_prime_card (p := Nat.card curve.Point) rfl
    (generator_ne_zero h) (g' := Q))
  obtain ⟨z, hz⟩ := htop
  refine ⟨(z % Config.n).toNat, ?_, ?_⟩
  · have := Int.emod_lt_of_pos z (by have := n_prime.pos; omega : (0 : Int) < Config.n)
    have := Int.emod_nonneg z (by have := n_prime.pos; omega : (Config.n : Int) ≠ 0)
    omega
  · have hnn := Int.emod_nonneg z (by have := n_prime.pos; omega : (Config.n : Int) ≠ 0)
    rw [← natCast_zsmul, Int.toNat_of_nonneg hnn, ← hz]
    conv_rhs => rw [← Int.emod_add_mul_ediv z Config.n, add_zsmul, mul_comm, mul_zsmul, natCast_zsmul, n_smul, zsmul_zero, add_zero]

end Sys2Proof.Laws
end

