-- ==== Sys2Proof/Machine/Parameter.lean ====
section
/-! DEFINITION. The machine with the hash function H as its argument (44_digest.md R254): `exec` and `step` are these at
H = SHA-256 (log 1). -/

namespace Sys2Proof.Machine

/-- A command under a given H (R254): HASH, SIGN and VERIFY take it, no other command hashes. -/
def execWith (h : HashFunction) (i : Instr) (s : State) : Host.Outcome State Fault Refusal :=
  match i with
  | .hash a m => execHashWith h a m s
  | .sign a b c => execSignWith h a b c s
  | .verify a b c => execVerifyWith h a b c s
  | .nop | .madd .. | .msub .. | .mmul .. | .mred .. | .minv .. | .mov .. | .ldc .. | .pmov .. | .pset .. | .pinf _
  | .pgen _ | .pgetx .. | .pgety .. | .padd .. | .pdbl .. | .pchk _ | .pmul .. | .rand _ | .encd _ | .encq _ | .enckp ..
  | .encsig .. | .decd _ | .decq _ | .deckp .. | .decsig .. | .keygen .. => exec i s

/-- One step under a given H (R254). -/
def stepWith (h : HashFunction) (s : State) : Host.Outcome State Fault Refusal := stepBy (execWith h) s

end Sys2Proof.Machine
end

