-- ==== Sys2Proof/Laws/Parameter.lean ====
section
/-! SUPPORT. The hash function H as an argument of the machine (44_digest.md R254): at SHA-256 it is the machine of `exec`
and `step`, SHA-256 is a value H may take, and for every H a command ends as `Ends` says and HASH gives H's digest. -/

namespace Sys2Proof.Laws

open Sys2Proof.Machine

/-- SHA-256 is a value the parameter H may take (R254, R260). -/
theorem isDigest_hashH : HashFunction.IsDigest hashH := length_hashH

/-- The conforming core's commands are those of the parameter at SHA-256 (log 1). -/
theorem execWith_hashH : execWith hashH = exec := by
  funext i s
  cases i <;> rfl

/-- So are its steps. -/
theorem stepWith_hashH : stepWith hashH = step := by
  funext s
  rw [stepWith, execWith_hashH, step]

/-- For every H, every command ends in one of the three ways. -/
theorem execWith_ends (h : HashFunction) (i : Instr) (s : State) : Ends i s (execWith h i s) := by
  cases i with
  | hash a m => exact execHashWith_ends h a m s
  | sign a b c => exact execSignWith_ends h a b c s
  | verify a b c => exact execVerifyWith_ends h a b c s
  | _ => exact exec_ends _ s

/-- For every H, HASH of a buffer within its length writes the digest as a big-endian integer (R250, R252). -/
theorem execWith_hash {h : HashFunction} (hh : h.IsDigest) {s : State} {a : XReg} {m : HashSource} {bytes : List Byte}
    (hb : s.hashInput m = .ok bytes) :
    ∃ v : Val, v.toNat = bigEndianValue (h bytes) ∧
      execWith h (.hash a m) s = .next ((s.writeX a v).completeWith okCode) := by
  refine ⟨toVal (intBE (h bytes)), ?_, ?_⟩
  · have := bigEndianValue_lt (h bytes)
    rw [hh bytes] at this
    rw [intBE_eq, toNat_toVal (lt_of_lt_of_le this (by norm_num))]
  · simp only [execWith, execHashWith, hb]
    rfl

end Sys2Proof.Laws
end

