-- ==== Sys2Proof/Laws/PerInstr.lean ====
section
/-! SUPPORT. Per instruction: the word the encoder writes selects the instruction's own row of the opcode table, by match
and mask (30_encoding.md R117), and its reserved bits are 0 (R111). -/

namespace Sys2Proof.Laws

/-- The fields of a row's mask (R117). -/
def rowFields (r : OpRow) : Fields :=
  ⟨0xFF#8, classMask r.a, classMask r.b, classMask r.c, if r.usesM then 0#1 else 1#1, 0x7FF#11⟩

@[simp] theorem xField_mask (r : XReg) : xField r &&& classMask .x = 0#4 := by simp [classMask]

@[simp] theorem pField_mask (r : PReg) : pField r &&& classMask .p = 0#4 := by revert r; decide

@[simp] theorem kField_mask (k : RomIndex) : kField k &&& classMask .k = 0#4 := by simp [classMask]

@[simp] theorem unused_mask : 0#4 &&& classMask .unused = 0#4 := rfl

/-- What the encoder owes every instruction: its row, its match and mask, its reserved bits. -/
def Encoding.Statement (i : Instr) : Prop :=
  ∃ r, opRow? (fieldsOfWord (encode i)).op = some r ∧ encode i &&& r.mask = r.matchValue ∧
    (fieldsOfWord (encode i)).rsv = 0#11

/-- The statement from the row, field by field. -/
theorem statement_of_row {i : Instr} {r : OpRow} (hr : opRow? (fieldsOfInstr i).op = some r)
    (hv : (fieldsOfInstr i).rsv = 0#11)
    (h : (⟨(fieldsOfInstr i).op &&& (rowFields r).op, (fieldsOfInstr i).a &&& (rowFields r).a,
        (fieldsOfInstr i).b &&& (rowFields r).b, (fieldsOfInstr i).c &&& (rowFields r).c,
        (fieldsOfInstr i).m &&& (rowFields r).m, (fieldsOfInstr i).rsv &&& (rowFields r).rsv⟩ : Fields) =
      ⟨r.op, 0#4, 0#4, 0#4, 0#1, 0#11⟩) : Encoding.Statement i := by
  refine ⟨r, by simpa [encode] using hr, ?_, by simpa [encode] using hv⟩
  show wordOfFields (fieldsOfInstr i) &&& wordOfFields (rowFields r) = _
  rw [wordOfFields_and, h]
  rfl

theorem Encoding.nop : Encoding.Statement .nop :=
  statement_of_row (r := ⟨0x00#8, "NOP", .unused, .unused, .unused, false⟩) rfl rfl (by simp [fieldsOfInstr, rowFields])

theorem Encoding.madd (a : XReg) (b : XReg) (c : XReg) (m : Modulus) : Encoding.Statement (.madd a b c m) :=
  statement_of_row (r := ⟨0x10#8, "MADD", .x, .x, .x, true⟩) rfl rfl (by simp [fieldsOfInstr, rowFields])

theorem Encoding.msub (a : XReg) (b : XReg) (c : XReg) (m : Modulus) : Encoding.Statement (.msub a b c m) :=
  statement_of_row (r := ⟨0x11#8, "MSUB", .x, .x, .x, true⟩) rfl rfl (by simp [fieldsOfInstr, rowFields])

theorem Encoding.mmul (a : XReg) (b : XReg) (c : XReg) (m : Modulus) : Encoding.Statement (.mmul a b c m) :=
  statement_of_row (r := ⟨0x12#8, "MMUL", .x, .x, .x, true⟩) rfl rfl (by simp [fieldsOfInstr, rowFields])

theorem Encoding.mred (a : XReg) (b : XReg) (m : Modulus) : Encoding.Statement (.mred a b m) :=
  statement_of_row (r := ⟨0x13#8, "MRED", .x, .x, .unused, true⟩) rfl rfl (by simp [fieldsOfInstr, rowFields])

theorem Encoding.minv (a : XReg) (b : XReg) (m : Modulus) : Encoding.Statement (.minv a b m) :=
  statement_of_row (r := ⟨0x14#8, "MINV", .x, .x, .unused, true⟩) rfl rfl (by simp [fieldsOfInstr, rowFields])

theorem Encoding.mov (a : XReg) (b : XReg) : Encoding.Statement (.mov a b) :=
  statement_of_row (r := ⟨0x20#8, "MOV", .x, .x, .unused, false⟩) rfl rfl (by simp [fieldsOfInstr, rowFields])

theorem Encoding.ldc (a : XReg) (b : RomIndex) : Encoding.Statement (.ldc a b) :=
  statement_of_row (r := ⟨0x21#8, "LDC", .x, .k, .unused, false⟩) rfl rfl (by simp [fieldsOfInstr, rowFields])

theorem Encoding.pmov (a : PReg) (b : PReg) : Encoding.Statement (.pmov a b) :=
  statement_of_row (r := ⟨0x22#8, "PMOV", .p, .p, .unused, false⟩) rfl rfl (by simp [fieldsOfInstr, rowFields])

theorem Encoding.pset (a : PReg) (b : XReg) (c : XReg) : Encoding.Statement (.pset a b c) :=
  statement_of_row (r := ⟨0x23#8, "PSET", .p, .x, .x, false⟩) rfl rfl (by simp [fieldsOfInstr, rowFields])

theorem Encoding.pinf (a : PReg) : Encoding.Statement (.pinf a) :=
  statement_of_row (r := ⟨0x24#8, "PINF", .p, .unused, .unused, false⟩) rfl rfl (by simp [fieldsOfInstr, rowFields])

theorem Encoding.pgen (a : PReg) : Encoding.Statement (.pgen a) :=
  statement_of_row (r := ⟨0x25#8, "PGEN", .p, .unused, .unused, false⟩) rfl rfl (by simp [fieldsOfInstr, rowFields])

theorem Encoding.pgetx (a : XReg) (b : PReg) : Encoding.Statement (.pgetx a b) :=
  statement_of_row (r := ⟨0x26#8, "PGETX", .x, .p, .unused, false⟩) rfl rfl (by simp [fieldsOfInstr, rowFields])

theorem Encoding.pgety (a : XReg) (b : PReg) : Encoding.Statement (.pgety a b) :=
  statement_of_row (r := ⟨0x27#8, "PGETY", .x, .p, .unused, false⟩) rfl rfl (by simp [fieldsOfInstr, rowFields])

theorem Encoding.padd (a : PReg) (b : PReg) (c : PReg) : Encoding.Statement (.padd a b c) :=
  statement_of_row (r := ⟨0x30#8, "PADD", .p, .p, .p, false⟩) rfl rfl (by simp [fieldsOfInstr, rowFields])

theorem Encoding.pdbl (a : PReg) (b : PReg) : Encoding.Statement (.pdbl a b) :=
  statement_of_row (r := ⟨0x31#8, "PDBL", .p, .p, .unused, false⟩) rfl rfl (by simp [fieldsOfInstr, rowFields])

theorem Encoding.pchk (b : PReg) : Encoding.Statement (.pchk b) :=
  statement_of_row (r := ⟨0x32#8, "PCHK", .unused, .p, .unused, false⟩) rfl rfl (by simp [fieldsOfInstr, rowFields])

theorem Encoding.pmul (a : PReg) (b : XReg) (c : PReg) : Encoding.Statement (.pmul a b c) :=
  statement_of_row (r := ⟨0x38#8, "PMUL", .p, .x, .p, false⟩) rfl rfl (by simp [fieldsOfInstr, rowFields])

theorem Encoding.hash (a : XReg) (m : HashSource) : Encoding.Statement (.hash a m) :=
  statement_of_row (r := ⟨0x40#8, "HASH", .x, .unused, .unused, true⟩) rfl rfl (by simp [fieldsOfInstr, rowFields])

theorem Encoding.rand (a : XReg) : Encoding.Statement (.rand a) :=
  statement_of_row (r := ⟨0x50#8, "RAND", .x, .unused, .unused, false⟩) rfl rfl (by simp [fieldsOfInstr, rowFields])

theorem Encoding.encd (b : XReg) : Encoding.Statement (.encd b) :=
  statement_of_row (r := ⟨0x60#8, "ENCD", .unused, .x, .unused, false⟩) rfl rfl (by simp [fieldsOfInstr, rowFields])

theorem Encoding.encq (b : PReg) : Encoding.Statement (.encq b) :=
  statement_of_row (r := ⟨0x61#8, "ENCQ", .unused, .p, .unused, false⟩) rfl rfl (by simp [fieldsOfInstr, rowFields])

theorem Encoding.enckp (b : XReg) (c : PReg) : Encoding.Statement (.enckp b c) :=
  statement_of_row (r := ⟨0x62#8, "ENCKP", .unused, .x, .p, false⟩) rfl rfl (by simp [fieldsOfInstr, rowFields])

theorem Encoding.encsig (b : XReg) (c : XReg) : Encoding.Statement (.encsig b c) :=
  statement_of_row (r := ⟨0x63#8, "ENCSIG", .unused, .x, .x, false⟩) rfl rfl (by simp [fieldsOfInstr, rowFields])

theorem Encoding.decd (a : XReg) : Encoding.Statement (.decd a) :=
  statement_of_row (r := ⟨0x68#8, "DECD", .x, .unused, .unused, false⟩) rfl rfl (by simp [fieldsOfInstr, rowFields])

theorem Encoding.decq (a : PReg) : Encoding.Statement (.decq a) :=
  statement_of_row (r := ⟨0x69#8, "DECQ", .p, .unused, .unused, false⟩) rfl rfl (by simp [fieldsOfInstr, rowFields])

theorem Encoding.deckp (a : XReg) (b : PReg) : Encoding.Statement (.deckp a b) :=
  statement_of_row (r := ⟨0x6A#8, "DECKP", .x, .p, .unused, false⟩) rfl rfl (by simp [fieldsOfInstr, rowFields])

theorem Encoding.decsig (a : XReg) (b : XReg) : Encoding.Statement (.decsig a b) :=
  statement_of_row (r := ⟨0x6B#8, "DECSIG", .x, .x, .unused, false⟩) rfl rfl (by simp [fieldsOfInstr, rowFields])

theorem Encoding.keygen (a : XReg) (b : PReg) : Encoding.Statement (.keygen a b) :=
  statement_of_row (r := ⟨0x70#8, "KEYGEN", .x, .p, .unused, false⟩) rfl rfl (by simp [fieldsOfInstr, rowFields])

theorem Encoding.sign (a : XReg) (b : XReg) (c : XReg) : Encoding.Statement (.sign a b c) :=
  statement_of_row (r := ⟨0x71#8, "SIGN", .x, .x, .x, false⟩) rfl rfl (by simp [fieldsOfInstr, rowFields])

theorem Encoding.verify (a : XReg) (b : XReg) (c : PReg) : Encoding.Statement (.verify a b c) :=
  statement_of_row (r := ⟨0x72#8, "VERIFY", .x, .x, .p, false⟩) rfl rfl (by simp [fieldsOfInstr, rowFields])

end Sys2Proof.Laws
end

