-- ==== Sys2Proof/Laws/Protocol.lean ====
section
/-! SUPPORT. The scalar multiple as the k-fold sum, an attempt of SIGN, and the core of VERIFY, in the group
(43_scalar_mult.md R231, 47_protocol.md R351, R360). -/

namespace Sys2Proof.Laws

open Sys2Proof.Machine

/-- The fast multiple is the k-fold sum, for a valid point and every 256-bit k (R231, R232). -/
theorem scalarMult_eq_kFoldSum {q : Point} (hq : q.valid = true) {k : Nat} (hk : k < 2 ^ 256) :
    ∃ w, scalarMult k q = .ok w ∧ kFoldSum q k = .ok w ∧ w.valid = true := by
  have := fact_p
  obtain ⟨Q, hQ⟩ := (valid_iff_reps q).1 hq
  obtain ⟨w, h, r⟩ := scalarMult_reps hQ hk
  obtain ⟨w', h', r'⟩ := kFoldSum_reps hQ k
  rw [r'.value_unique r] at h'
  exact ⟨w, h, h', r.valid⟩

/-- Multiples of a valid point by k-fold sum never raise. -/
theorem kFoldSum_valid {q : Point} (hq : q.valid = true) (k : Nat) : ∃ w, kFoldSum q k = .ok w ∧ w.valid = true := by
  have := fact_p
  obtain ⟨Q, hQ⟩ := (valid_iff_reps q).1 hq
  obtain ⟨w, h, r⟩ := kFoldSum_reps hQ k
  exact ⟨w, h, r.valid⟩

/-- G, as a point of the group. -/
theorem exists_generator : ∃ G, Reps generator G := (valid_iff_reps generator).1 generator_valid

theorem n_lt : Config.n < 2 ^ 256 := by decide

/-- A multiple of G is O only for multiples of n. -/
theorem smul_generator_eq_zero {G : curve.Point} (h : Reps generator G) (k : Nat) :
    haveI := fact_p
    k • G = 0 ↔ k % Config.n = 0 := by
  have := fact_p
  rw [← addOrderOf_dvd_iff_nsmul_eq_zero, addOrderOf_generator h, Nat.dvd_iff_mod_eq_zero]

/-- k·G is an affine point for 1 ≤ k < n (R350, R351: never O). -/
theorem scalarMult_generator_aff {k : Nat} (h1 : k % Config.n ≠ 0) (hk : k < 2 ^ 256) :
    ∃ x y, scalarMult k generator = .ok (.aff x y) ∧ kFoldSum generator k = .ok (.aff x y) ∧
      (Point.aff x y).valid = true := by
  have := fact_p
  obtain ⟨G, hG⟩ := exists_generator
  obtain ⟨w, h, r⟩ := scalarMult_reps hG hk
  obtain ⟨w', h', hk', hv⟩ := scalarMult_eq_kFoldSum generator_valid hk
  rw [h] at h'
  injection h' with h'
  subst h'
  cases w with
  | inf => exact absurd ((smul_generator_eq_zero hG k).1 r) h1
  | aff x y => exact ⟨x, y, h, hk', hv⟩

/-- The inverse modulo n. -/
theorem invMod_n {k : Nat} (h : k % Config.n ≠ 0) :
    k * invMod Config.n k % Config.n = 1 ∧ 0 < invMod Config.n k ∧ invMod Config.n k < Config.n := invMod_modulus .n h

theorem mod_n_ne_zero {k : Nat} (h1 : 1 ≤ k) (h2 : k < Config.n) : k % Config.n ≠ 0 := by
  rw [Nat.mod_eq_of_lt h2]; omega

/-- k can be cancelled modulo n. -/
theorem cancel_n {k a b : Nat} (hk : k % Config.n ≠ 0) (h : k * a ≡ k * b [MOD Config.n]) : a ≡ b [MOD Config.n] := by
  have hc : Nat.Coprime Config.n k := by
    rw [Nat.Prime.coprime_iff_not_dvd n_prime, Nat.dvd_iff_mod_eq_zero]
    exact hk
  exact Nat.ModEq.cancel_left_of_coprime hc h

/-- One attempt of SIGN (R351, R352): its r and s, and whether it is turned away. -/
theorem signAttempt_spec (e d : Nat) {k : Nat} (h1 : 1 ≤ k) (h2 : k < Config.n) :
    ∃ r sg, Attempt e d k r sg ∧ signAttempt e d k = if r ≠ 0 ∧ sg ≠ 0 then .ok (some (r, sg)) else .ok none := by
  have hk := mod_n_ne_zero h1 h2
  obtain ⟨x, y, hs, hf, -⟩ := scalarMult_generator_aff hk (lt_trans h2 n_lt)
  refine ⟨x.toNat % Config.n, invMod Config.n k * (e + x.toNat % Config.n * d) % Config.n,
    ⟨⟨x, y, hf, rfl⟩, Nat.mod_lt _ n_prime.pos, ?_⟩, ?_⟩
  · rw [Nat.mul_mod_mod, ← mul_assoc, Nat.mul_mod, (invMod_n hk).1, one_mul, Nat.mod_mod]
  · rw [signAttempt, hs]

/-- An attempt's r and s are determined. -/
theorem attempt_unique {e d k r sg r' sg' : Nat} (hk : k % Config.n ≠ 0) (h : Attempt e d k r sg)
    (h' : Attempt e d k r' sg') : r = r' ∧ sg = sg' := by
  obtain ⟨x, y, hf, rfl⟩ := h.r_eq
  obtain ⟨x', y', hf', rfl⟩ := h'.r_eq
  rw [hf] at hf'
  injection hf' with hf'
  injection hf' with hx hy
  subst hx
  refine ⟨rfl, ?_⟩
  have := cancel_n hk (h.s_eq.trans h'.s_eq.symm : k * sg ≡ k * sg' [MOD Config.n])
  rwa [Nat.ModEq, Nat.mod_eq_of_lt h.s_lt, Nat.mod_eq_of_lt h'.s_lt] at this

/-- VERIFY's accept condition on the point T (R360). -/
def acceptsPoint (r : Nat) : Point → Bool
  | .inf => false
  | .aff x _ => x.toNat % Config.n == r

/-- The core of VERIFY (R360): T = u1·G + u2·Q, computed without an error, and tested. -/
theorem verifyCore_spec (e r : Nat) {sg : Nat} {q : Point} (hq : q.valid = true) :
    ∃ t1 t2 t, kFoldSum generator (e * invMod Config.n sg % Config.n) = .ok t1 ∧
      kFoldSum q (r * invMod Config.n sg % Config.n) = .ok t2 ∧ pointAdd t1 t2 = .ok t ∧
      verifyCore e r sg q = .ok (acceptsPoint r t) := by
  have := fact_p
  have lt (a : Nat) : a % Config.n < 2 ^ 256 := lt_trans (Nat.mod_lt a n_prime.pos) n_lt
  obtain ⟨t1, s1, f1, v1⟩ := scalarMult_eq_kFoldSum generator_valid (lt (e * invMod Config.n sg))
  obtain ⟨t2, s2, f2, v2⟩ := scalarMult_eq_kFoldSum hq (lt (r * invMod Config.n sg))
  obtain ⟨T1, r1⟩ := (valid_iff_reps t1).1 v1
  obtain ⟨T2, r2⟩ := (valid_iff_reps t2).1 v2
  obtain ⟨t, h, -⟩ := pointAdd_reps r1 r2
  refine ⟨t1, t2, t, f1, f2, h, ?_⟩
  simp only [verifyCore, s1, s2, h, bind, Except.bind, pure, Except.pure]
  cases t <;> rfl

/-- The same, in the group: T stands for (e·w)·G + (r·w)·Q. -/
theorem verifyCore_reps (e r : Nat) {sg : Nat} {q : Point} {G Q : curve.Point} (hG : Reps generator G) (hQ : Reps q Q) :
    haveI := fact_p
    ∃ t, Reps t ((e * invMod Config.n sg % Config.n) • G + (r * invMod Config.n sg % Config.n) • Q) ∧
      verifyCore e r sg q = .ok (acceptsPoint r t) := by
  have := fact_p
  obtain ⟨t1, t2, t, f1, f2, h, hv⟩ := verifyCore_spec e r (sg := sg) hQ.valid
  obtain ⟨w1, g1, r1⟩ := kFoldSum_reps hG (e * invMod Config.n sg % Config.n)
  obtain ⟨w2, g2, r2⟩ := kFoldSum_reps hQ (r * invMod Config.n sg % Config.n)
  rw [f1] at g1; rw [f2] at g2
  injection g1 with g1; injection g2 with g2
  subst g1 g2
  obtain ⟨w, g, rw'⟩ := pointAdd_reps r1 r2
  rw [h] at g
  injection g with g
  subst g
  exact ⟨t, rw', hv⟩

/-- VERIFY past its checks (R360). -/
theorem verify_exec {s : State} {a b : XReg} {q : PReg} {bytes : List Byte} (hm : s.messageIs bytes)
    (h1 : 1 ≤ (s.readX a).toNat) (h2 : (s.readX a).toNat < Config.n) (h3 : 1 ≤ (s.readX b).toNat)
    (h4 : (s.readX b).toNat < Config.n) (hq : s.readP q ≠ .inf) (hv : (s.readP q).valid = true) :
    exec (.verify a b q) s = finish s
      ((verifyCore (bigEndianValue (hashH bytes)) (s.readX a).toNat (s.readX b).toNat (s.readP q)).map
        fun ok => s.writeFlag ok) := by
  simp only [exec, execVerify, execVerifyWith]
  rw [State.verdict, message_ok hm]
  dsimp only
  rw [if_neg, if_neg, intBE_eq]
  · rw [hv]; simp [hq]
  · simp only [inScalarRange, Bool.not_eq_true', Bool.and_eq_false_iff, decide_eq_false_iff_not]; omega

end Sys2Proof.Laws
end

