-- ==== Sys2Proof/Laws/Step.lean ====
section
/-! SUPPORT. What one step can do, said once: the engine's turn, the host's, the reset input's and the oracle's. -/

namespace Sys2Proof.Laws

open Sys2Proof.Machine

/-- The engine's turn: idle it holds its state; busy it runs the command, or completes an illegal word. -/
theorem engine_cases {s t : State} (h : engineStepBy exec s = .next t) :
    (s.phase = .idle ∧ t = s) ∨
    (s.phase = .busy ∧ ∃ i, decode s.cmd = .ok i ∧ exec i s = .next t) ∨
    (s.phase = .busy ∧ ∃ e, decode s.cmd = .error e ∧ t = s.completeWith 0x01#8) := by
  unfold engineStepBy at h
  split at h
  · injection h with h
    exact .inl ⟨‹_›, h.symm⟩
  · unfold engineTurnBy State.fetch at h
    split at h
    · exact .inr (.inl ⟨‹_›, _, ‹_›, h⟩)
    · injection h with h
      exact .inr (.inr ⟨‹_›, _, ‹_›, h.symm⟩)

/-- One step, by the agent whose turn it is. -/
theorem step_cases {s t : State} (h : step s = .next t) :
    (s.pending = [] ∧ engineStepBy exec s = .next t) ∨
    (∃ rest, s.pending = .engine :: rest ∧ engineStepBy exec { s with pending := rest } = .next t) ∨
    (∃ a rest, s.pending = .access a :: rest) ∨
    (∃ rest, s.pending = .hardReset :: rest ∧ t = { s with pending := rest }.hardReset) ∨
    (∃ d rest, s.pending = .oracle d :: rest ∧ t = { s with pending := rest }.addDraw d) := by
  unfold step stepBy at h
  split at h
  · exact .inl ⟨‹_›, h⟩
  · exact .inr (.inl ⟨_, ‹_›, h⟩)
  · exact .inr (.inr (.inl ⟨_, _, ‹_›⟩))
  · injection h with h
    exact .inr (.inr (.inr (.inl ⟨_, ‹_›, h.symm⟩)))
  · injection h with h
    exact .inr (.inr (.inr (.inr ⟨_, _, ‹_›, h.symm⟩)))

end Sys2Proof.Laws
end

