-- ==== Sys2Proof/Tests/Slice0.lean ====
section
/-! SUPPORT. The model's own tests: ill-formed terms, words written out from the encoding tables, one step of each command
on the spec's own examples, the bus, and a witness for the hypotheses of every obligation. Every expected value is the
spec's (the rule's example, or spec/95_test_vectors.md) or a hand calculation said in the test's comment. -/

set_option Elab.async false

namespace Sys2Proof.Tests

open Sys2Proof.Machine

/-! ### Helpers -/

/-- The state after a command, and a state no command leaves where it does not complete. -/
def run (i : Instr) (s : State) : State :=
  match exec i s with
  | .next t => t
  | .fault _ | .refused _ => { s with errcode := 0xEE#8 }

/-- The state after one step. -/
def turn (s : State) : State :=
  match step s with
  | .next t => t
  | .fault _ | .refused _ => { s with errcode := 0xEE#8 }

/-- The reset state, with the first scalar registers holding these numbers. -/
def xs (vals : List Nat) : State :=
  (vals.zipIdx).foldl (fun s vi => s.writeX (Fin.ofNat 16 vi.2) (toVal vi.1)) State.reset

/-- An affine point of two numbers. -/
def pt (x y : Nat) : Point := .aff (toVal x) (toVal y)

/-- 2G and 3G (42_point.md R205, R200). -/
def twoG : Point :=
  pt 0xC6047F9441ED7D6D3045406E95C07CD85C778E4B8CEF3CA7ABAC09B95C709EE5
    0x1AE168FEA63DC339A3C58419466CEAEEF7F632653266D0E1236431A950CFE52A

def threeG : Point :=
  pt 0xF9308A019258C31049344F85F89D5229B531C845836F99B08601F113BCE036F9
    0x388F7B0F632DE8140FE337E62A37F3566500A99934C2231B6CB9FD7584B8E672

/-- A text placed in TXT, and a message placed in MSG. -/
def withText (s : State) (t : List Byte) : State :=
  { s with mem := s.mem.writeBytes 0x0800 t, txtLen := BitVec.ofNat 32 t.length }

def withMessage (s : State) (t : List Byte) : State :=
  { s with mem := s.mem.writeBytes 0x1000 t, msgLen := BitVec.ofNat 32 t.length }

/-- "abc". -/
def abc : List Byte := [0x61#8, 0x62#8, 0x63#8]

/-- A busy engine holding a word. -/
def busyWith (w : Word32) : State := { State.reset with cmd := w, phase := .busy }

/-- The host's turn next, then the engine's. -/
def hostTurn (s : State) (a : Access) : State := { s with pending := [.access a, .engine] }

/-- The oracle's answers. -/
def answers (ds : List Draw) : State := { State.reset with draws := ds, phase := .busy }

/-! ### Well-formed terms (30_encoding.md R114, R119) -/

theorem test_wf_sign_same : ¬(Instr.sign 3 3 1).WellFormed := by decide
theorem test_wf_decsig_same : ¬(Instr.decsig 0 0).WellFormed := by decide
theorem test_wf_sign : (Instr.sign 3 4 3).WellFormed := by decide
theorem test_wf_decsig : (Instr.decsig 0 15).WellFormed := by decide
theorem test_wf_verify_same : (Instr.verify 2 2 0).WellFormed := by decide

/-! ### Words written out field by field: RSV, M, C, B, A, OP (R111, R116) -/

theorem test_decode_nop : decode (0b00000000000#11 ++ 0b0#1 ++ 0x0#4 ++ 0x0#4 ++ 0x0#4 ++ 0x00#8) = .ok .nop := by rfl
theorem test_decode_madd :
    decode (0b00000000000#11 ++ 0b1#1 ++ 0x3#4 ++ 0x2#4 ++ 0xF#4 ++ 0x10#8) = .ok (.madd 15 2 3 .n) := by rfl
theorem test_decode_msub :
    decode (0b00000000000#11 ++ 0b0#1 ++ 0xC#4 ++ 0xB#4 ++ 0xA#4 ++ 0x11#8) = .ok (.msub 10 11 12 .p) := by rfl
theorem test_decode_mmul :
    decode (0b00000000000#11 ++ 0b0#1 ++ 0x2#4 ++ 0x1#4 ++ 0x3#4 ++ 0x12#8) = .ok (.mmul 3 1 2 .p) := by rfl
theorem test_decode_mred :
    decode (0b00000000000#11 ++ 0b1#1 ++ 0x0#4 ++ 0x8#4 ++ 0x7#4 ++ 0x13#8) = .ok (.mred 7 8 .n) := by rfl
theorem test_decode_minv :
    decode (0b00000000000#11 ++ 0b0#1 ++ 0x0#4 ++ 0x1#4 ++ 0xE#4 ++ 0x14#8) = .ok (.minv 14 1 .p) := by rfl
theorem test_decode_mov :
    decode (0b00000000000#11 ++ 0b0#1 ++ 0x0#4 ++ 0x1#4 ++ 0x0#4 ++ 0x20#8) = .ok (.mov 0 1) := by rfl
theorem test_decode_ldc :
    decode (0b00000000000#11 ++ 0b0#1 ++ 0x0#4 ++ 0x6#4 ++ 0x4#4 ++ 0x21#8) = .ok (.ldc 4 .coeffB) := by rfl
theorem test_decode_pmov :
    decode (0b00000000000#11 ++ 0b0#1 ++ 0x0#4 ++ 0x0#4 ++ 0x3#4 ++ 0x22#8) = .ok (.pmov 3 0) := by rfl
theorem test_decode_pset :
    decode (0b00000000000#11 ++ 0b0#1 ++ 0x9#4 ++ 0x8#4 ++ 0x7#4 ++ 0x23#8) = .ok (.pset 7 8 9) := by rfl
theorem test_decode_pinf :
    decode (0b00000000000#11 ++ 0b0#1 ++ 0x0#4 ++ 0x0#4 ++ 0x7#4 ++ 0x24#8) = .ok (.pinf 7) := by rfl
theorem test_decode_pgen :
    decode (0b00000000000#11 ++ 0b0#1 ++ 0x0#4 ++ 0x0#4 ++ 0x5#4 ++ 0x25#8) = .ok (.pgen 5) := by rfl
theorem test_decode_pgetx :
    decode (0b00000000000#11 ++ 0b0#1 ++ 0x0#4 ++ 0x1#4 ++ 0xC#4 ++ 0x26#8) = .ok (.pgetx 12 1) := by rfl
theorem test_decode_pgety :
    decode (0b00000000000#11 ++ 0b0#1 ++ 0x0#4 ++ 0x7#4 ++ 0x5#4 ++ 0x27#8) = .ok (.pgety 5 7) := by rfl
theorem test_decode_padd :
    decode (0b00000000000#11 ++ 0b0#1 ++ 0x6#4 ++ 0x5#4 ++ 0x4#4 ++ 0x30#8) = .ok (.padd 4 5 6) := by rfl
theorem test_decode_pdbl :
    decode (0b00000000000#11 ++ 0b0#1 ++ 0x0#4 ++ 0x0#4 ++ 0x1#4 ++ 0x31#8) = .ok (.pdbl 1 0) := by rfl
theorem test_decode_pchk :
    decode (0b00000000000#11 ++ 0b0#1 ++ 0x0#4 ++ 0x6#4 ++ 0x0#4 ++ 0x32#8) = .ok (.pchk 6) := by rfl
theorem test_decode_pmul :
    decode (0b00000000000#11 ++ 0b0#1 ++ 0x2#4 ++ 0xE#4 ++ 0x1#4 ++ 0x38#8) = .ok (.pmul 1 14 2) := by rfl
theorem test_decode_hash :
    decode (0b00000000000#11 ++ 0b1#1 ++ 0x0#4 ++ 0x0#4 ++ 0x5#4 ++ 0x40#8) = .ok (.hash 5 .txt) := by rfl
theorem test_decode_rand :
    decode (0b00000000000#11 ++ 0b0#1 ++ 0x0#4 ++ 0x0#4 ++ 0x3#4 ++ 0x50#8) = .ok (.rand 3) := by rfl
theorem test_decode_encd :
    decode (0b00000000000#11 ++ 0b0#1 ++ 0x0#4 ++ 0xD#4 ++ 0x0#4 ++ 0x60#8) = .ok (.encd 13) := by rfl
theorem test_decode_encq :
    decode (0b00000000000#11 ++ 0b0#1 ++ 0x0#4 ++ 0x7#4 ++ 0x0#4 ++ 0x61#8) = .ok (.encq 7) := by rfl
theorem test_decode_enckp :
    decode (0b00000000000#11 ++ 0b0#1 ++ 0x6#4 ++ 0x9#4 ++ 0x0#4 ++ 0x62#8) = .ok (.enckp 9 6) := by rfl
theorem test_decode_encsig :
    decode (0b00000000000#11 ++ 0b0#1 ++ 0xB#4 ++ 0xA#4 ++ 0x0#4 ++ 0x63#8) = .ok (.encsig 10 11) := by rfl
theorem test_decode_decd :
    decode (0b00000000000#11 ++ 0b0#1 ++ 0x0#4 ++ 0x0#4 ++ 0x9#4 ++ 0x68#8) = .ok (.decd 9) := by rfl
theorem test_decode_decq :
    decode (0b00000000000#11 ++ 0b0#1 ++ 0x0#4 ++ 0x0#4 ++ 0x2#4 ++ 0x69#8) = .ok (.decq 2) := by rfl
theorem test_decode_deckp :
    decode (0b00000000000#11 ++ 0b0#1 ++ 0x0#4 ++ 0x7#4 ++ 0x8#4 ++ 0x6A#8) = .ok (.deckp 8 7) := by rfl
theorem test_decode_decsig :
    decode (0b00000000000#11 ++ 0b0#1 ++ 0x0#4 ++ 0x2#4 ++ 0x1#4 ++ 0x6B#8) = .ok (.decsig 1 2) := by rfl
theorem test_decode_keygen :
    decode (0b00000000000#11 ++ 0b0#1 ++ 0x0#4 ++ 0x3#4 ++ 0xB#4 ++ 0x70#8) = .ok (.keygen 11 3) := by rfl
theorem test_decode_sign :
    decode (0b00000000000#11 ++ 0b0#1 ++ 0x8#4 ++ 0x7#4 ++ 0x6#4 ++ 0x71#8) = .ok (.sign 6 7 8) := by rfl
theorem test_decode_verify :
    decode (0b00000000000#11 ++ 0b0#1 ++ 0x3#4 ++ 0x2#4 ++ 0x1#4 ++ 0x72#8) = .ok (.verify 1 2 3) := by rfl

/-! ### Illegal words, by name (R118, R119) -/

theorem test_illegal_op : decode 0x00000001#32 = .error .reservedOp := by rfl
theorem test_illegal_rsv : decode 0x00200000#32 = .error .reservedBits := by rfl
theorem test_illegal_rsv_top : decode 0x80000010#32 = .error .reservedBits := by rfl
theorem test_illegal_unused : decode 0x00010020#32 = .error .unusedField := by rfl
theorem test_illegal_m : decode 0x00100020#32 = .error .unusedM := by rfl
theorem test_illegal_point : decode 0x00000822#32 = .error .pointIndex := by rfl
theorem test_illegal_rom : decode 0x00007021#32 = .error .romIndex := by rfl
theorem test_illegal_same : decode 0x00001171#32 = .error .sameDestination := by rfl
theorem test_illegal_decsig : decode 0x0000336B#32 = .error .sameDestination := by rfl

/-- The host's view of the decoder: NOP, and a word with a reserved bit. -/
theorem test_table_word : decodeTableWord 32 0x00021312 = some (.mmul 3 1 2 .p) ∧ decodeTableWord 32 0x00200000 = none := by
  decide

/-- R120's own example of the syntax, and R121's first expansion. -/
theorem test_assembly : assembly (.mmul 3 1 2 .p) = "MMUL.P X3, X1, X2" ∧ expand (.msqr 1 2 .n) = [.mmul 1 2 2 .n] := by
  decide

/-! ### Field commands -/

/-- R141's example: (p - 1) + (p - 1) = p - 2. -/
theorem test_madd : (run (.madd 2 0 0 .p) (xs [Config.p - 1])).readX 2 =
    0xFFFFFFFFFFFFFFFFFFFFFFFFFFFFFFFFFFFFFFFFFFFFFFFFFFFFFFFEFFFFFC2D#256 := by decide +kernel
/-- No wrap at 2^256: (n - 1) + 2 = 1 mod n. -/
theorem test_madd_n : (run (.madd 0 0 1 .n) (xs [Config.n - 1, 2])).readX 0 = 1#256 := by decide +kernel
/-- R142's example: 0 - 1 = p - 1. -/
theorem test_msub : (run (.msub 2 0 1 .p) (xs [0, 1])).readX 2 =
    0xFFFFFFFFFFFFFFFFFFFFFFFFFFFFFFFFFFFFFFFFFFFFFFFFFFFFFFFEFFFFFC2E#256 := by decide +kernel
/-- B is the minuend: 7 - 2 = 5. -/
theorem test_msub_order : (run (.msub 0 0 1 .n) (xs [7, 2])).readX 0 = 5#256 := by decide +kernel
/-- R143's example: Gx · Gy. -/
theorem test_mmul : (run (.mmul 2 0 1 .p) (xs [Config.gx, Config.gy])).readX 2 =
    0xFD3DC529C6EB60FB9D166034CF3C1A5A72324AA9DFD3428A56D7E1CE0179FD9B#256 := by decide +kernel
/-- R143's corner: (n - 1)·(n - 1) = 1. -/
theorem test_mmul_n : (run (.mmul 0 0 0 .n) (xs [Config.n - 1])).readX 0 = 1#256 := by decide +kernel
/-- R144's two examples. -/
theorem test_mred : (run (.mred 1 0 .p) (xs [2 ^ 256 - 1])).readX 1 = 0x1000003D0#256 := by decide +kernel
theorem test_mred_n : (run (.mred 0 0 .n) (xs [2 ^ 256 - 1])).readX 0 =
    0x14551231950B75FC4402DA1732FC9BEBE#256 := by decide +kernel
/-- R145's two examples. -/
theorem test_minv : (run (.minv 1 0 .p) (xs [2])).readX 1 =
    0x7FFFFFFFFFFFFFFFFFFFFFFFFFFFFFFFFFFFFFFFFFFFFFFFFFFFFFFF7FFFFE18#256 := by decide +kernel
theorem test_minv_none : run (.minv 1 0 .n) (xs [0, 9]) = (xs [0, 9]).completedOnly 0x20#8 := by decide +kernel

/-- Both reductions of R148 on R143's operands. -/
theorem test_reductions : barrett .p (Config.gx * Config.gy) = montgomeryMul .p Config.gx Config.gy ∧
    barrett .p (Config.gx * Config.gy) = 0xFD3DC529C6EB60FB9D166034CF3C1A5A72324AA9DFD3428A56D7E1CE0179FD9B := by
  decide +kernel

/-! ### Transfers -/

/-- R170's example. -/
theorem test_nop : run .nop (busyWith 0#32) = { State.reset with done := true } := by decide +kernel
/-- R171's example. -/
theorem test_mov : (run (.mov 0 1) (xs [0, 5])).readX 0 = 5#256 := by decide +kernel
/-- R172's example. -/
theorem test_ldc : (run (.ldc 2 .p) State.reset).readX 2 =
    0xFFFFFFFFFFFFFFFFFFFFFFFFFFFFFFFFFFFFFFFFFFFFFFFFFFFFFFFEFFFFFC2F#256 := by decide +kernel
/-- R173's corner: the coordinates kept under a set tag are copied too. -/
theorem test_pmov : (run (.pmov 3 0) (State.reset.writePReg 0 ⟨true, 1#256, 2#256⟩)).readPReg 3 = ⟨true, 1#256, 2#256⟩ := by
  decide +kernel
/-- R174: x of B, y of C, unreduced. -/
theorem test_pset : (run (.pset 2 0 1) (xs [Config.p, 7])).readPReg 2 = ⟨false, toVal Config.p, 7#256⟩ := by decide +kernel
/-- R175's example. -/
theorem test_pinf : (run (.pinf 7) (State.reset.writeP 7 generator)).readPReg 7 = ⟨true, 0#256, 0#256⟩ := by decide +kernel
/-- R176's example. -/
theorem test_pgen : ((run (.pgen 0) State.reset).readPReg 0).x =
    0x79BE667EF9DCBBAC55A06295CE870B07029BFCDB2DCE28D959F2815B16F81798#256 := by decide +kernel
/-- R177's two examples. -/
theorem test_pgetx : (run (.pgetx 4 1) (State.reset.writeP 1 generator)).readX 4 = toVal Config.gx := by decide +kernel
theorem test_pgetx_inf : run (.pgetx 4 1) (xs [1, 2, 3, 4, 5]) = (xs [1, 2, 3, 4, 5]).completedOnly 0x23#8 := by
  decide +kernel
/-- R178's example. -/
theorem test_pgety : (run (.pgety 5 1) (State.reset.writeP 1 generator)).readX 5 =
    0x483ADA7726A3C4655DA4FBFC0E1108A8FD17B448A68554199C47D08FFB10D4B8#256 := by decide +kernel

/-! ### Points -/

/-- R200's example: G + 2G = 3G. -/
theorem test_padd : (run (.padd 3 1 2) ((State.reset.writeP 1 generator).writeP 2 twoG)).readP 3 = threeG := by
  decide +kernel
/-- R202: the range check comes before the cases of O. -/
theorem test_padd_range : (run (.padd 0 1 2) (State.reset.writeP 2 (pt Config.p 0))).errcode = 0x22#8 := by decide +kernel
/-- R205's example: 2G. -/
theorem test_pdbl : (run (.pdbl 1 0) (State.reset.writeP 0 generator)).readP 1 = twoG := by decide +kernel
/-- R203: doubling AFF(x, 0). -/
theorem test_pdbl_zero : (run (.pdbl 1 0) (State.reset.writeP 0 (pt 5 0))).errcode = 0x20#8 := by decide +kernel
/-- R206's two examples. -/
theorem test_pchk : (run (.pchk 0) (State.reset.writeP 0 generator)).flag = true := by decide +kernel
theorem test_pchk_off : (run (.pchk 0) { State.reset.writeP 0 (pt Config.gx (Config.gy + 1)) with flag := true }).flag = false := by
  decide +kernel
/-- R230's example: 2·G. -/
theorem test_pmul : (run (.pmul 1 1 0) ((xs [0, 2]).writeP 0 generator)).readP 1 = twoG := by decide +kernel
/-- R230, C7: k = 0 gives O, whatever the point. -/
theorem test_pmul_zero : run (.pmul 1 0 0) (State.reset.writeP 0 (pt 1 1)) =
    { State.reset.writeP 0 (pt 1 1) with done := true } := by decide +kernel

/-! ### Digest and randomness -/

/-- R250's example: "abc". -/
theorem test_hash : (run (.hash 0 .msg) (withMessage State.reset abc)).readX 0 =
    0xBA7816BF8F01CFEA414140DE5DAE2223B00361A396177A9CB410FF61F20015AD#256 := by decide +kernel
/-- R250: TXT_LEN above 256. -/
theorem test_hash_length : (run (.hash 0 .txt) { State.reset with txtLen := 257#32 }).errcode = 0x02#8 := by decide +kernel
/-- R254: HASH under another H, which answers 32 bytes that are 0x01 each: R252's big-endian number of them. -/
theorem test_hash_parameter : execWith (fun _ => List.replicate 32 0x01#8) (.hash 2 .msg) State.reset = .next
    ((State.reset.writeX 2 0x0101010101010101010101010101010101010101010101010101010101010101#256).completedOnly 0x00#8) := by rfl
/-- R16, R13: -AFF(1, p + 1) has y = (p - (p + 1)) mod p = p - 1, calculated by hand. -/
theorem test_neg_above_p : (pt 1 (Config.p + 1)).neg =
    pt 1 0xFFFFFFFFFFFFFFFFFFFFFFFFFFFFFFFFFFFFFFFFFFFFFFFFFFFFFFFEFFFFFC2E := by decide +kernel
/-- R291's example: 0, then 5. -/
theorem test_rand : (run (.rand 3) (answers [.word 0#256, .word 5#256])).readX 3 = 5#256 := by decide +kernel
/-- R291's corner: n is rejected; then FAIL. -/
theorem test_rand_fail : (run (.rand 3) (answers [.word (toVal Config.n), .fail, .word 1#256])).errcode = 0x30#8 := by
  decide +kernel

/-! ### Text -/

/-- R320's example; the rest of TXT becomes 0 (R312). -/
theorem test_encd : run (.encd 2) (withText (xs [0, 0, 7]) [0x31#8, 0x32#8]) =
    { xs [0, 0, 7] with mem := [(0x0800, 0x37#8)], txtLen := 1#32, done := true } := by decide +kernel
/-- R321's example has 155 characters, "|" after the first 77. -/
theorem test_encq : (run (.encq 0) (State.reset.writeP 0 generator)).txtLen = 155#32 ∧
    (run (.encq 0) (State.reset.writeP 0 generator)).mem.read (0x0800 + 77) = 0x7C#8 := by decide +kernel
/-- R321: O has no text. -/
theorem test_encq_inf : (run (.encq 0) State.reset).errcode = 0x23#8 := by decide +kernel
/-- R322's example begins "1|5". -/
theorem test_enckp : (run (.enckp 1 0) ((xs [0, 1]).writeP 0 generator)).mem.readBytes 0x0800 3 = [0x31#8, 0x7C#8, 0x35#8] := by
  decide +kernel
/-- R323's example: "12|345". -/
theorem test_encsig : (run (.encsig 1 2) (xs [0, 12, 345])).mem.readBytes 0x0800 7 =
    [0x31#8, 0x32#8, 0x7C#8, 0x33#8, 0x34#8, 0x35#8, 0x00#8] := by decide +kernel
/-- R324's corner: "007" is 7. -/
theorem test_decd : (run (.decd 5) (withText State.reset [0x30#8, 0x30#8, 0x37#8])).readX 5 = 7#256 := by decide +kernel
/-- R324's corner: the empty text. -/
theorem test_decd_empty : (run (.decd 5) State.reset).errcode = 0x11#8 := by decide +kernel
/-- "1|2" as a point. -/
theorem test_decq : (run (.decq 0) (withText State.reset [0x31#8, 0x7C#8, 0x32#8])).readPReg 0 = ⟨false, 1#256, 2#256⟩ := by
  decide +kernel
/-- R325's example: "1|2|3" is FIELD_COUNT. -/
theorem test_decq_count : (run (.decq 0) (withText State.reset [0x31#8, 0x7C#8, 0x32#8, 0x7C#8, 0x33#8])).errcode = 0x10#8 := by
  decide +kernel
/-- "1|2|3" as a key pair. -/
theorem test_deckp : (run (.deckp 4 6) (withText State.reset [0x31#8, 0x7C#8, 0x32#8, 0x7C#8, 0x33#8])).readX 4 = 1#256 ∧
    (run (.deckp 4 6) (withText State.reset [0x31#8, 0x7C#8, 0x32#8, 0x7C#8, 0x33#8])).readPReg 6 = ⟨false, 2#256, 3#256⟩ := by
  decide +kernel
/-- R326's example: "1|2" is FIELD_COUNT. -/
theorem test_deckp_count : (run (.deckp 0 0) (withText State.reset [0x31#8, 0x7C#8, 0x32#8])).errcode = 0x10#8 := by
  decide +kernel
/-- R327's example: "12|345". -/
theorem test_decsig :
    run (.decsig 1 2) (withText State.reset [0x31#8, 0x32#8, 0x7C#8, 0x33#8, 0x34#8, 0x35#8]) =
      { withText (xs [0, 12, 345]) [0x31#8, 0x32#8, 0x7C#8, 0x33#8, 0x34#8, 0x35#8] with done := true } := by
  decide +kernel

/-! ### Protocols -/

/-- R350 with the oracle answering n, then n + 2: d = 2, Q = 2G. -/
theorem test_keygen : (run (.keygen 0 1) (answers [.word (toVal Config.n), .word (toVal (Config.n + 2))])).readX 0 = 2#256 ∧
    (run (.keygen 0 1) (answers [.word (toVal Config.n), .word (toVal (Config.n + 2))])).readP 1 = twoG := by decide +kernel
/-- R351's example. -/
theorem test_sign :
    (run (.sign 0 1 2) { withMessage (xs [0, 0, 1]) abc with draws := [.word 1#256] }).readX 0 =
      0x79BE667EF9DCBBAC55A06295CE870B07029BFCDB2DCE28D959F2815B16F81798#256 ∧
    (run (.sign 0 1 2) { withMessage (xs [0, 0, 1]) abc with draws := [.word 1#256] }).readX 1 =
      0x34367D3E88DE8B9696E1A3742C352D2BF7F08198149D033A4E31223038C1EC04#256 := by decide +kernel
/-- R351: the range check of d makes no draw. -/
theorem test_sign_range :
    run (.sign 0 1 2) { xs [0, 0, Config.n] with draws := [.word 1#256] } =
      { xs [0, 0, Config.n] with draws := [.word 1#256], errcode := 0x21#8, done := true } := by decide +kernel

/-- A signature of the empty message, found by hand: with e the digest of R260 (it is below n), r = s = e gives
u1 = u2 = 1, so that VERIFY accepts under the Q for which G + Q has the abscissa e. -/
def selfSigned : State :=
  (xs [0xe3b0c44298fc1c149afbf4c8996fb92427ae41e4649b934ca495991b7852b855,
    0xe3b0c44298fc1c149afbf4c8996fb92427ae41e4649b934ca495991b7852b855]).writeP 3
    (pt 0x70e71a4251f5d9b308cc8634ab249411381e8574634abf05c53090e78b4db966
      0x1a15dcf4c65eae1bbff4724e0902b860ba593fdf5a375ace10eecebb2a67171)

/-- R360: accepted. -/
theorem test_verify : run (.verify 0 1 3) selfSigned = { selfSigned with flag := true, done := true } := by decide +kernel
/-- R361: r = 0 rejects without an error, before the look at Q = O. -/
theorem test_verify_range : run (.verify 0 1 3) { xs [0, 1] with flag := true } = { xs [0, 1] with done := true } := by
  decide +kernel

/-! ### Placing a word, the turns, the bus -/

/-- `withFetchWord` from reset: `LDC X2, #P` runs at the next step. -/
theorem test_fetch_word : step (State.reset.withFetchWord 32 0x00002221) =
    .next { (State.reset.writeX 2 (toVal Config.p)) with cmd := 0x00002221#32, done := true } := by rfl
/-- With turns laid down, the engine's comes first. -/
theorem test_fetch_turns :
    (turn (({ State.reset with pending := [.hardReset] } : State).withFetchWord 32 0x00000000)).pending = [.hardReset] := by
  decide
/-- An illegal word completes with ILLEGAL (R119). -/
theorem test_illegal_step : turn (busyWith 0x00007021#32) =
    { State.reset with cmd := 0x00007021#32, errcode := 0x01#8, done := true } := by decide
/-- From reset, with nothing laid down, the core holds its state (R400). -/
theorem test_idle : step State.reset = .next State.reset := by rfl

/-- A read of ID (R33). -/
theorem test_read_id : (turn (hostTurn State.reset ⟨.read, 0x0000, 4⟩)).response = some (.read 0x45434453#32 false) := by
  decide
/-- R81: word 7 of X15 is its most significant. -/
theorem test_write_x : (turn (hostTurn State.reset ⟨.write 0xDEADBEEF#32, 0x02FC, 4⟩)).readX 15 =
    0xDEADBEEF00000000000000000000000000000000000000000000000000000000#256 := by decide +kernel
/-- R82: little-endian packing. -/
theorem test_write_msg : (turn (hostTurn State.reset ⟨.write 0x64636261#32, 0x1000, 4⟩)).mem =
    [(0x1000, 0x61#8), (0x1001, 0x62#8), (0x1002, 0x63#8), (0x1003, 0x64#8)] := by decide
/-- R50: TAG takes bit 0 alone. -/
theorem test_write_tag : ((turn (hostTurn State.reset ⟨.write 0xFFFFFFFE#32, 0x0440, 4⟩)).readPReg 0).inf = false := by decide
/-- R37: a CMD write while busy is dropped with a bus error. -/
theorem test_write_cmd_busy : turn (hostTurn (busyWith 0x00000010#32) ⟨.write 0x00000000#32, 0x0010, 4⟩) =
    { busyWith 0x00000010#32 with pending := [.engine], busErr := true, response := some (.write true) } := by decide
/-- R85: a data window while busy. -/
theorem test_locked : (turn (hostTurn (busyWith 0#32) ⟨.read, 0x0100, 4⟩)).response = some (.read 0#32 true) := by decide
/-- R84: a byte access. -/
theorem test_byte_access : (turn (hostTurn State.reset ⟨.write 1#32, 0x1000, 1⟩)).busErr = true := by decide
/-- R36: writing 1s clears DONE and BUSERR. -/
theorem test_status_w1c :
    (turn (hostTurn { State.reset with done := true, busErr := true, flag := true } ⟨.write 0x1F#32, 0x000C, 4⟩)).statusWord =
      0x08#32 := by decide
/-- R422: soft reset while busy. -/
theorem test_soft_reset : turn (hostTurn (busyWith 0x00000050#32) ⟨.write 0x3#32, 0x0008, 4⟩) =
    { State.reset with pending := [.engine], response := some (.write false) } := by decide
/-- R386: IE set while DONE is 1. -/
theorem test_irq : (turn (hostTurn { State.reset with done := true } ⟨.write 0x1#32, 0x0008, 4⟩)).irq = true := by decide
/-- Log 6: with MSG_MAX = 5, the word at 0x1004 has one byte. -/
theorem test_partial_word :
    (turn (hostTurn { State.reset with msgMax := 5#32 } ⟨.write 0x01020304#32, 0x1004, 4⟩)).mem = [(0x1004, 0x04#8)] := by decide
/-- Log 7: an access outside the window. -/
theorem test_outside : step (hostTurn State.reset ⟨.read, 0x2000, 4⟩) = .fault .outsideWindow := by rfl

/-! ### Witnesses: a state and operands that meet the hypotheses of each obligation, each clause at a boundary -/

/-- The command answers a next state. -/
def answersNext (i : Instr) (s : State) : Bool :=
  match exec i s with
  | .next _ => true
  | .fault _ | .refused _ => false

theorem exists_next {i : Instr} {s : State} (h : answersNext i s = true) : ∃ t, exec i s = .next t := by
  unfold answersNext at h
  split at h
  · exact ⟨_, ‹_›⟩
  · cases h
  · cases h

/-- A host's turn of this access is next. -/
def isTurnOf (s : State) (a : Access) : Prop := s.pending = .access a :: [.engine]

theorem hostTurn_isTurnOf (s : State) (a : Access) : isTurnOf (hostTurn s a) a := rfl

theorem witness_DecodeOfEncode : (Instr.sign 15 14 15).WellFormed ∧ (Instr.decsig 0 15).WellFormed ∧ Instr.nop.WellFormed := by
  decide
theorem witness_EncodeOfDecode : decode 0x000FEF71#32 = .ok (.sign 15 14 15) ∧ decode 0x00000000#32 = .ok .nop :=
  ⟨by rfl, by rfl⟩
theorem witness_IllegalWords_reserved :
    ∀ op ∈ [0x01#8, 0x0F#8, 0x15#8, 0x1F#8, 0x28#8, 0x2F#8, 0x33#8, 0x37#8, 0x39#8, 0x3F#8, 0x41#8, 0x4F#8, 0x51#8, 0x5F#8,
      0x64#8, 0x67#8, 0x6C#8, 0x6F#8, 0x73#8, 0xFF#8], opRow? op = none := by decide
theorem witness_IllegalWords_rows :
    ∀ op ∈ [0x00#8, 0x10#8, 0x14#8, 0x20#8, 0x27#8, 0x30#8, 0x32#8, 0x38#8, 0x40#8, 0x50#8, 0x60#8, 0x63#8, 0x68#8, 0x6B#8,
      0x70#8, 0x72#8], (opRow? op).isSome = true := by decide
theorem witness_IllegalWords_step : legalByTable 0x00007021#32 = false ∧ (busyWith 0x00007021#32).phase = .busy ∧
    (busyWith 0x00007021#32).cmd = 0x00007021#32 ∧ (busyWith 0x00007021#32).pending = [] := by decide
theorem witness_RowsByMatchAndMask : ∃ r ∈ opcodeTable, 0x00032172#32 &&& r.mask = r.matchValue := by decide

theorem witness_StepRunsDecodedInstruction_busy : (busyWith 0x00001020#32).phase = .busy ∧
    decode (busyWith 0x00001020#32).cmd = .ok (.mov 0 1) ∧ (busyWith 0x00001020#32).pending = [] ∧
    ({ busyWith 0x00001020#32 with pending := [.engine, .hardReset] } : State).pending = .engine :: [.hardReset] :=
  ⟨rfl, rfl, rfl, rfl⟩
theorem witness_StepRunsDecodedInstruction_idle : State.reset.phase = .idle ∧ State.reset.pending = [] ∧
    ({ State.reset with pending := [.engine] } : State).pending = .engine :: [] := ⟨rfl, rfl, rfl⟩
theorem witness_StepRunsDecodedInstruction_word : 0x000FFF72 < 2 ^ 32 ∧
    decode (BitVec.ofNat 32 0x0007FF72) = .ok (.verify 15 15 7) := ⟨by decide, by rfl⟩
theorem witness_CmdRegister_idle : (hostTurn State.reset ⟨.write 0x00000000#32, 0x0010, 4⟩).phase = .idle ∧
    isTurnOf (hostTurn State.reset ⟨.write 0x00000000#32, 0x0010, 4⟩) ⟨.write 0x00000000#32, 0x0010, 4⟩ ∧
    decode 0x00000000#32 = .ok .nop ∧ decode 0xFFFFFFFF#32 = .error .reservedBits := ⟨rfl, rfl, rfl, rfl⟩
theorem witness_CmdRegister_busy : (hostTurn (busyWith 0#32) ⟨.write 0#32, 0x0010, 4⟩).phase = .busy ∧
    isTurnOf (hostTurn (busyWith 0#32) ⟨.read, 0x0010, 4⟩) ⟨.read, 0x0010, 4⟩ := ⟨rfl, rfl⟩
theorem witness_EnginePhases_start : (hostTurn State.reset ⟨.write 0#32, 0x0010, 4⟩).phase = .idle ∧
    ∃ t, step (hostTurn State.reset ⟨.write 0#32, 0x0010, 4⟩) = .next t ∧ t.phase = .busy := ⟨rfl, _, rfl, rfl⟩
theorem witness_EnginePhases_end :
    (∃ t, step (busyWith 0#32) = .next t ∧ t.phase = .idle) ∧
    (∃ t, step { busyWith 0#32 with pending := [.hardReset] } = .next t ∧ t.phase = .idle) ∧
    (∃ t, step (hostTurn (busyWith 0#32) ⟨.write 2#32, 0x0008, 4⟩) = .next t ∧ t.phase = .idle) :=
  ⟨⟨_, rfl, rfl⟩, ⟨_, rfl, rfl⟩, ⟨_, rfl, rfl⟩⟩

/-- A state that meets the invariant at its edges: the smallest build, its one byte of MSG and the last of TXT listed. -/
def edge : State :=
  { State.reset with msgMax := 1#32, mem := [(0x08FF, 0xFF#8), (0x1000, 0x01#8)], phase := .busy, pending := [.engine] }

theorem edge_inv : edge.Inv where
  canonical := by decide
  inBuffers := by
    intro c hc
    simp only [edge, List.mem_cons, List.not_mem_nil, or_false] at hc
    rcases hc with rfl | rfl
    · exact .inl (by decide)
    · exact .inr (by decide)
  build := by decide
  busyClear := by decide
  code := by decide
theorem witness_StepKeepsInvariant : edge.Inv ∧ ∃ t, step edge = .next t := ⟨edge_inv, _, rfl⟩
theorem witness_NoCommandStops : (∀ e ∈ (hostTurn State.reset ⟨.read, 0x1FFF, 4⟩).pending, e.insideWindow) ∧
    isTurnOf (hostTurn State.reset ⟨.read, 0x2000, 4⟩) ⟨.read, 0x2000, 4⟩ := by
  refine ⟨?_, rfl⟩
  intro e he
  simp only [hostTurn, List.mem_cons, List.not_mem_nil, or_false] at he
  rcases he with rfl | rfl
  · show 0x1FFF < 0x2000; decide
  · exact trivial
theorem witness_CommandsLeaveTheRest : (∃ t, exec (.encd 15) edge = .next t) ∧ ∃ t, exec (.keygen 0 7) edge = .next t :=
  ⟨⟨_, rfl⟩, ⟨_, rfl⟩⟩
theorem witness_CommandEndsOrWaits : (∃ t, exec (.pchk 0) edge = .next t ∧ t.done = true) ∧
    ∃ t, exec (.rand 0) (answers [.word 0#256]) = .next t ∧ t = { answers [.word 0#256] with draws := [] } :=
  ⟨⟨_, rfl, rfl⟩, ⟨_, rfl, by decide +kernel⟩⟩
theorem witness_ErrorsWriteNothing : (xs [0]).errcode = 0#8 ∧ (run (.minv 0 0 .p) (xs [0])).errcode ≠ 0#8 := by
  decide +kernel
theorem witness_FlagHasTwoWriters_command : step (busyWith 0x00000032#32) = .next (turn (busyWith 0x00000032#32)) ∧
    (turn (busyWith 0x00000032#32)).flag ≠ (busyWith 0x00000032#32).flag := ⟨by rfl, by decide⟩
theorem witness_FlagHasTwoWriters_resets :
    (∃ t, step { State.reset with flag := true, pending := [.hardReset] } = .next t) ∧
    ∃ t, step (hostTurn { State.reset with flag := true } ⟨.write 2#32, 0x0008, 4⟩) = .next t := ⟨⟨_, rfl⟩, ⟨_, rfl⟩⟩
theorem witness_DrawsConsumedInOrder : (answers [.word 1#256]).phase = .busy ∧
    (run (.rand 0) (answers [.word 1#256])).phase = .idle ∧ (run (.rand 0) (answers [.word 1#256])).errcode = 0#8 := by
  decide +kernel
/-- Two states that differ in a coordinate under a set tag, in CTRL, and in CMD. -/
def hidden : State := { State.reset.writePReg 3 ⟨true, 1#256, 2#256⟩ with ie := true, cmd := 5#32 }
theorem witness_CommandsSeeValuesOnly : hidden.x = State.reset.x ∧ (∀ q, hidden.readP q = State.reset.readP q) ∧
    hidden.readPReg 3 ≠ State.reset.readPReg 3 ∧ hidden.mem = State.reset.mem ∧ hidden.msgLen = State.reset.msgLen ∧
    hidden.txtLen = State.reset.txtLen ∧ hidden.msgMax = State.reset.msgMax ∧ hidden.draws = State.reset.draws := by
  decide
theorem witness_IllSizedAccess : ∀ a ∈ [(⟨.read, 0x1FFF, 4⟩ : Access), ⟨.read, 0x0000, 1⟩, ⟨.write 0#32, 0x0010, 8⟩],
    a.offset < 0x2000 ∧ (a.bytes ≠ 4 ∨ a.offset % 4 ≠ 0) ∧ isTurnOf (hostTurn State.reset a) a := by
  simp [isTurnOf, hostTurn]

/-- The first and the last word of every data window. -/
def dataEdges : List Nat := [0x0018, 0x001C, 0x0100, 0x02FC, 0x0400, 0x06FC, 0x0800, 0x08FC, 0x1000, 0x1FFC]
theorem witness_DataWindowsLockedWhileBusy : (∀ off ∈ dataEdges, inDataWindow off) ∧ (busyWith 0#32).phase = .busy ∧
    isTurnOf (hostTurn (busyWith 0#32) ⟨.read, 0x1FFC, 4⟩) ⟨.read, 0x1FFC, 4⟩ := by
  refine ⟨?_, rfl, rfl⟩
  unfold inDataWindow dataEdges
  decide
theorem witness_DataWindowsLockedWhileBusy_idle : State.reset.phase = .idle ∧ inDataWindow 0x1FFC ∧ ¬isReservedOffset State.reset.msgMax.toNat 0x1FFC ∧
    ¬isReservedOffset State.reset.msgMax.toNat 0x0440 := by
  refine ⟨rfl, ?_, ?_, ?_⟩
  · unfold inDataWindow; decide
  · unfold isReservedOffset; decide
  · unfold isReservedOffset; decide
theorem witness_ReservedAndReadOnly :
    (∀ off ∈ [0x0028, 0x00FC, 0x0300, 0x03FC, 0x0444, 0x045C, 0x0700, 0x07FC, 0x0900, 0x0FFC, 0x1001, 0x1FFC],
      isReservedOffset 1 off) ∧ isTurnOf (hostTurn edge ⟨.read, 0x1004, 4⟩) ⟨.read, 0x1004, 4⟩ := by
  refine ⟨?_, rfl⟩
  unfold isReservedOffset
  decide
theorem witness_BusErrorOnlySetsBusErr :
    ∃ t, step (hostTurn State.reset ⟨.read, 0x0028, 4⟩) = .next t ∧ t.response = some (.read 0#32 true) ∧
      (BusAnswer.read 0#32 true).isError = true := ⟨_, rfl, rfl, rfl⟩
theorem witness_ReadsHaveNoSideEffect :
    isTurnOf (hostTurn State.reset ⟨.read, 0x1FFC, 4⟩) ⟨.read, 0x1FFC, 4⟩ ∧
    (∃ t, step (hostTurn State.reset ⟨.write 1#32, 0x0008, 4⟩) = .next t ∧ t.response = some (.write false)) ∧
    ∃ t, step (hostTurn State.reset ⟨.write 1#32, 0x1FFC, 4⟩) = .next t ∧ t.response = some (.write false) :=
  ⟨rfl, ⟨_, rfl, rfl⟩, ⟨_, rfl, rfl⟩⟩
theorem witness_ControlRegisterReads : ∀ off ∈ [0x0000, 0x0004, 0x0008, 0x000C, 0x0014, 0x0020, 0x0024],
    isTurnOf (hostTurn (busyWith 0#32) ⟨.read, off, 4⟩) ⟨.read, off, 4⟩ := fun _ _ => rfl
theorem witness_WideValueWords : State.reset.phase = .idle ∧
    isTurnOf (hostTurn State.reset ⟨.read, 0x0100 + 0x20 * (15 : XReg).val + 4 * (7 : Fin 8).val, 4⟩) ⟨.read, 0x02FC, 4⟩ ∧
    isTurnOf (hostTurn State.reset ⟨.write 1#32, 0x0400 + 0x60 * (7 : PReg).val + 0x20 + 4 * (7 : Fin 8).val, 4⟩)
      ⟨.write 1#32, 0x06DC, 4⟩ := ⟨rfl, rfl, rfl⟩
theorem witness_TagWord : State.reset.phase = .idle ∧
    isTurnOf (hostTurn State.reset ⟨.write 1#32, 0x06E0, 4⟩) ⟨.write 1#32, 0x0400 + 0x60 * (7 : PReg).val + 0x40, 4⟩ ∧
    isTurnOf (hostTurn State.reset ⟨.read, 0x06FF, 4⟩) ⟨.read, 0x0400 + 0x60 * (7 : PReg).val + 0x5F, 4⟩ := ⟨rfl, rfl, rfl⟩
theorem witness_BufferWords : State.reset.phase = .idle ∧ State.reset.mem.wf ∧ (0x08FC : Nat) % 4 = 0 ∧
    (0x0800 ≤ 0x08FC ∧ 0x08FC < 0x0900) ∧ (0x1000 ≤ 0x1FFC ∧ 0x1FFC + 3 < 0x1000 + State.reset.msgMax.toNat ∧ 0x1FFC < 0x2000) ∧
    isTurnOf (hostTurn State.reset ⟨.write 1#32, 0x1FFC, 4⟩) ⟨.write 1#32, 0x1FFC, 4⟩ := by
  refine ⟨rfl, by decide, by decide, by decide, by decide, rfl⟩
theorem witness_LengthRegisters : State.reset.phase = .idle ∧
    (∀ a ∈ [(⟨.write 0xFFFFFFFF#32, 0x0018, 4⟩ : Access), ⟨.read, 0x0018, 4⟩, ⟨.write 0xFFFFFFFF#32, 0x001C, 4⟩,
      ⟨.read, 0x001C, 4⟩], isTurnOf (hostTurn State.reset a) a) := ⟨rfl, fun _ _ => rfl⟩
theorem witness_StatusWriteClears :
    isTurnOf (hostTurn (busyWith 0#32) ⟨.write 0x12#32, 0x000C, 4⟩) ⟨.write 0x12#32, 0x000C, 4⟩ := rfl
theorem witness_CtrlWriteAndSoftReset :
    isTurnOf (hostTurn (busyWith 0#32) ⟨.write 0x2#32, 0x0008, 4⟩) ⟨.write 0x2#32, 0x0008, 4⟩ ∧
    (0x2#32).getLsbD 1 = true ∧ (0x1#32).getLsbD 1 = false := ⟨rfl, by decide, by decide⟩
theorem witness_ResetState : step { edge with pending := [.hardReset] } = .next (turn { edge with pending := [.hardReset] }) := by
  rfl
theorem witness_InterruptLine_engine : (busyWith 0#32).pending = [] ∧
    (∃ t, step (busyWith 0#32) = .next t ∧ t.phase = .idle) ∧
    (∃ t, step { answers [.word 0#256] with pending := [.engine], cmd := 0x00000050#32 } = .next t ∧ t.phase = .busy) ∧
    ∃ t, step State.reset = .next t := ⟨rfl, ⟨_, rfl, rfl⟩, ⟨_, rfl, rfl⟩, ⟨_, rfl⟩⟩
theorem witness_InterruptLine_others :
    (∃ t, step (hostTurn State.reset ⟨.write 2#32, 0x000C, 4⟩) = .next t) ∧
    (∃ t, step (hostTurn State.reset ⟨.write 0#32, 0x0010, 4⟩) = .next t) ∧
    (∃ t, step (hostTurn State.reset ⟨.write 1#32, 0x0008, 4⟩) = .next t) ∧
    (∃ t, step (hostTurn State.reset ⟨.write 2#32, 0x0008, 4⟩) = .next t) ∧
    (∃ t, step { edge with pending := [.hardReset] } = .next t) ∧
    (∃ t, step { edge with pending := [.oracle .fail] } = .next t) ∧
    (∃ t, step (hostTurn State.reset ⟨.read, 0x0010, 4⟩) = .next t) ∧
    (∃ t, step (hostTurn State.reset ⟨.write 0#32, 0x0010, 8⟩) = .next t) ∧
    ∃ t, step (hostTurn (busyWith 0#32) ⟨.write 0#32, 0x0010, 4⟩) = .next t :=
  ⟨⟨_, rfl⟩, ⟨_, rfl⟩, ⟨_, rfl⟩, ⟨_, rfl⟩, ⟨_, rfl⟩, ⟨_, rfl⟩, ⟨_, rfl⟩, ⟨_, rfl⟩, ⟨_, rfl⟩⟩
theorem witness_InverseResult : ((xs [2 ^ 256 - 1]).readX 0).toNat % modulusValue .p ≠ 0 ∧
    ((xs [Config.n]).readX 0).toNat % modulusValue .n = 0 := by decide +kernel
theorem witness_BarrettIsExact : 2 ^ 512 - 1 < 2 ^ 512 := by decide +kernel
theorem witness_MontgomeryIsExact : modulusValue .n * 2 ^ 256 - 1 < modulusValue .n * 2 ^ 256 := by decide +kernel
theorem witness_CoordinateReads : ((State.reset.writeP 7 generator).readPReg 7).inf = false ∧
    (State.reset.readPReg 7).inf = true := by decide +kernel
theorem witness_AdditionCases : (pt Config.p 0).outOfField = true ∧ Point.inf.outOfField = false ∧
    (toVal (Config.p - 1)).toNat < Config.p ∧ ((toVal 1).toNat + (toVal (Config.p - 1)).toNat) % Config.p = 0 ∧
    ((toVal 1).toNat + (toVal 1).toNat) % Config.p ≠ 0 ∧ (toVal 0).toNat = 0 ∧ (toVal 1, toVal 1) ≠ (toVal 1, toVal 2) ∧
    ((toVal 1).toNat + (toVal 2).toNat) % Config.p ≠ 0 := by decide +kernel
theorem witness_AdditionIsAGroupLaw : generator.valid = true ∧ twoG.valid = true ∧ Point.inf.valid = true ∧
    kFoldSum generator 0 = kFoldSum generator 0 ∧ 0 < Config.n := ⟨by decide +kernel, by decide +kernel, rfl, rfl, by decide⟩
theorem witness_PointAdditionCommands :
    (∃ r, pointAdd ((State.reset.writeP 1 generator).readP 1) ((State.reset.writeP 1 generator).readP 2) = .ok r) ∧
    pointAdd ((State.reset.writeP 1 (pt 5 0)).readP 1) ((State.reset.writeP 1 (pt 5 0)).readP 1) = .error .noInverse ∧
    ((State.reset.writeP 1 generator).readP 1).valid = true ∧ ((State.reset.writeP 1 generator).readP 2).valid = true :=
  ⟨⟨_, rfl⟩, rfl, by decide +kernel, by decide +kernel⟩
theorem witness_ScalarMultipleIsTheSum : ((xs [0]).readX 0).toNat = 0 ∧
    ((xs [2 ^ 256 - 1]).readX 0).toNat ≠ 0 ∧ ((xs [2 ^ 256 - 1]).writeP 0 (pt 1 1)).readP 0 = pt 1 1 ∧
    (pt 1 1).valid = false ∧ (((xs [2 ^ 256 - 1]).writeP 0 generator).readP 0).valid = true := by decide +kernel
theorem witness_MultiplesModuloTheOrder : 2 ^ 256 - 1 < 2 ^ 256 ∧ twoG.valid = true := by decide +kernel
theorem witness_HashResults : (withMessage State.reset abc).messageIs abc ∧ (withText State.reset abc).textIs abc ∧
    State.reset.msgMax.toNat < (4097#32).toNat ∧ 256 < (257#32).toNat := by
  unfold State.messageIs State.textIs
  decide
theorem witness_ShaPadding : 8 * abc.length < 2 ^ 64 := by decide
theorem witness_RandResults : (Draw.word 0#256).rejected ∧ (Draw.word (toVal Config.n)).rejected ∧
    (answers [.word 0#256, .word 1#256]).draws = [.word 0#256] ++ .word 1#256 :: [] ∧ (1#256).toNat % Config.n ≠ 0 ∧
    (answers [.word 0#256, .fail]).draws = [.word 0#256] ++ .fail :: [] := by
  unfold Draw.rejected
  decide +kernel
theorem witness_EncoderResults : (State.reset.writeP 0 generator).mem.wf ∧
    ((State.reset.writeP 0 generator).readPReg 0).inf = false ∧ (State.reset.readPReg 0).inf = true := by decide +kernel
/-- The 78 digits of 2^256 - 1 and of 2^256 (46_codec.md R316). -/
def largest : List Byte := decDigits 78 (2 ^ 256 - 1) []
def tooLarge : List Byte := decDigits 78 (2 ^ 256) []
theorem witness_DecoderResults : IsToken [0x30#8] ∧ IsToken largest ∧ textValue largest = 2 ^ 256 - 1 ∧
    (withText State.reset (largest ++ 0x7C#8 :: ([0x30#8] ++ 0x7C#8 :: [0x30#8]))).textIs
      (largest ++ 0x7C#8 :: ([0x30#8] ++ 0x7C#8 :: [0x30#8])) ∧ (0 : XReg) ≠ 15 := by
  unfold IsToken State.textIs
  decide +kernel
theorem witness_DecoderErrors_fields : 256 < (257#32).toNat ∧ (withText State.reset [0x7C#8]).textIs [0x7C#8] ∧
    [0x7C#8].count (0x7C#8 : Byte) ≠ 0 ∧ [0x7C#8].count (0x7C#8 : Byte) ≠ 2 ∧ (0 : XReg) ≠ 1 := by
  unfold State.textIs
  decide
theorem witness_DecoderErrors_tokens : ¬IsToken [] ∧ ¬IsToken [0x3A#8] ∧ IsToken tooLarge ∧ textValue tooLarge = 2 ^ 256 ∧
    IsToken largest ∧ (0x7C#8 : Byte) ∉ largest ∧
    (withText State.reset ([0x7C#8].intercalate ([largest] ++ [] :: [[0x2F#8]]))).textIs
      ([0x7C#8].intercalate ([largest] ++ [] :: [[0x2F#8]])) := by
  unfold IsToken State.textIs
  decide +kernel
theorem witness_CodecRoundTrip : (State.reset.writeP 0 generator).mem.wf ∧ (0 : XReg) ≠ 1 ∧
    ((State.reset.writeP 0 generator).readPReg 0).inf = false := by decide +kernel
theorem witness_KeygenResults : (Draw.word (toVal Config.n)).rejected ∧
    (answers [.word (toVal Config.n), .word (toVal (Config.n + 1))]).draws =
      [.word (toVal Config.n)] ++ .word (toVal (Config.n + 1)) :: [] ∧ (toVal (Config.n + 1)).toNat % Config.n ≠ 0 := by
  unfold Draw.rejected
  decide +kernel
/-- The clauses of FAIL and of no answer left. -/
theorem witness_KeygenResults_without : (Draw.word 0#256).rejected ∧
    (answers [.word 0#256, .fail]).draws = [.word 0#256] ++ .fail :: [] ∧
    (answers [.word 0#256]).draws = [.word 0#256] := by
  unfold Draw.rejected
  decide +kernel

/-- "abc" to be signed with the private key 1, the oracle answering n, then 1. -/
def toSign : State := { withMessage (xs [0, 0, 1]) abc with draws := [.word (toVal Config.n), .word 1#256], phase := .busy }

theorem witness_SignResults : toSign.messageIs abc ∧ 1 ≤ (toSign.readX 2).toNat ∧ (toSign.readX 2).toNat < Config.n ∧
    (Draw.word (toVal Config.n)).rejectedBySign (bigEndianValue (hashH abc)) 1 ∧
    toSign.draws = [.word (toVal Config.n)] ++ .word 1#256 :: [] ∧ (1#256).toNat % Config.n ≠ 0 := by
  refine ⟨by unfold State.messageIs; decide, by decide +kernel, by decide +kernel, .inl (by decide +kernel), rfl,
    by decide +kernel⟩
/-- R351's example, as an attempt: its r and s are not 0. -/
theorem witness_SignResults_attempt : Attempt (bigEndianValue (hashH abc)) 1 ((1#256).toNat % Config.n)
    0x79BE667EF9DCBBAC55A06295CE870B07029BFCDB2DCE28D959F2815B16F81798
    0x34367D3E88DE8B9696E1A3742C352D2BF7F08198149D033A4E31223038C1EC04 where
  r_eq := ⟨toVal Config.gx, toVal Config.gy, by rfl, by decide +kernel⟩
  s_lt := by decide +kernel
  s_eq := by decide +kernel
/-- The clauses of FAIL and of no answer left, for the same message and key. -/
theorem witness_SignResults_without :
    ({ toSign with draws := [.word 0#256, .fail] } : State).messageIs abc ∧
    ({ toSign with draws := [.word 0#256, .fail] } : State).draws = [.word 0#256] ++ .fail :: [] ∧
    ({ toSign with draws := [.word 0#256] } : State).messageIs abc ∧
    ({ toSign with draws := [.word 0#256] } : State).draws = [.word 0#256] ∧
    (Draw.word 0#256).rejectedBySign (bigEndianValue (hashH abc)) 1 ∧ (0 : XReg) ≠ 1 := by
  refine ⟨?_, rfl, ?_, rfl, .inl (by decide), by decide⟩
  all_goals
    unfold State.messageIs
    decide
/-- The private key that the nonce 1 fails for on "abc": -e times the inverse of Gx, modulo n (R351, R352), calculated
outside the model. -/
def unlucky : Nat := 0x412D59AF2C0C27D7241388FB0E0F54C5AE01194336721B342B5E286369E6CF04
/-- The nonce 1 is turned away for that key, its s being 0; the nonce after it is 2. -/
theorem witness_SignResults_zero : 1 ≤ unlucky ∧ unlucky < Config.n ∧
    (Draw.word 1#256).rejectedBySign (bigEndianValue (hashH abc)) unlucky ∧
    ({ toSign.writeX 2 (toVal unlucky) with draws := [.word 1#256, .word 2#256] } : State).draws =
      [.word 1#256] ++ .word 2#256 :: [] ∧
    ({ toSign.writeX 2 (toVal unlucky) with draws := [.word 1#256, .word 2#256] } : State).messageIs abc := by
  refine ⟨by decide, by decide +kernel, .inr ⟨0x79BE667EF9DCBBAC55A06295CE870B07029BFCDB2DCE28D959F2815B16F81798, 0,
    ⟨⟨toVal Config.gx, toVal Config.gy, by rfl, by decide +kernel⟩, by decide +kernel, by decide +kernel⟩, .inr rfl⟩, rfl, ?_⟩
  unfold State.messageIs
  decide
/-- So SIGN runs on to the nonce 2: the first answer gives no signature, the second completes. -/
theorem test_sign_turns_away :
    (run (.sign 0 1 2) { toSign.writeX 2 (toVal unlucky) with draws := [.word 1#256] }).phase = .busy ∧
    (run (.sign 0 1 2) { toSign.writeX 2 (toVal unlucky) with draws := [.word 1#256, .word 2#256] }).readX 0 =
      0xC6047F9441ED7D6D3045406E95C07CD85C778E4B8CEF3CA7ABAC09B95C709EE5#256 := by decide +kernel
theorem witness_SignAndVerifyChecks : (0 : XReg) ≠ 1 ∧
    ({ State.reset with msgLen := 4097#32 } : State).msgMax.toNat < (4097#32).toNat ∧
    toSign.msgLen.toNat ≤ toSign.msgMax.toNat ∧ Config.n ≤ ((xs [0, 0, Config.n]).readX 2).toNat ∧
    ((xs [0, 0, 0]).readX 2).toNat = 0 ∧ (xs [1, Config.n - 1]).readP 0 = .inf ∧
    1 ≤ ((xs [1, Config.n - 1]).readX 0).toNat ∧ ((xs [1, Config.n - 1]).readX 1).toNat < Config.n ∧
    (((xs [1, 1]).writeP 0 (pt 1 1)).readP 0).valid = false := by decide +kernel
theorem witness_VerifyVerdict : selfSigned.messageIs [] ∧ 1 ≤ (selfSigned.readX 0).toNat ∧
    (selfSigned.readX 0).toNat < Config.n ∧ 1 ≤ (selfSigned.readX 1).toNat ∧ (selfSigned.readX 1).toNat < Config.n ∧
    (selfSigned.readPReg 3).inf = false ∧ (selfSigned.readP 3).valid = true := by
  unfold State.messageIs
  decide +kernel
theorem witness_SignThenVerify : toSign.phase = .busy ∧ toSign.errcode = 0#8 ∧
    kFoldSum generator ((toSign.writeP 0 generator).readX 2).toNat = .ok ((toSign.writeP 0 generator).readP 0) ∧
    (run (.sign 0 1 2) (toSign.writeP 0 generator)).phase = .idle ∧
    (run (.sign 0 1 2) (toSign.writeP 0 generator)).errcode = 0#8 :=
  ⟨rfl, rfl, by rfl, by decide +kernel, by decide +kernel⟩
theorem witness_Malleability : (0 : XReg) ≠ 1 ∧ (run (.verify 0 1 3) selfSigned).errcode = 0#8 ∧
    (run (.verify 0 1 3) selfSigned).flag = true := by decide +kernel
theorem witness_SignAndVerifyWriteNoMore : (∃ t, exec (.sign 0 1 2) toSign = .next t) ∧
    ∃ t, exec (.verify 0 1 3) selfSigned = .next t := 
  ⟨exists_next (by decide +kernel), exists_next (by decide +kernel)⟩

end Sys2Proof.Tests
end

section
/-! SUPPORT. The invariant of the whole machine (00_scope.md R10, 10_state.md R37, R43, R44): one lemma per operation of
the state that a turn performs, then one per agent, then the step. -/

namespace Sys2Proof.Proofs

open Sys2Proof.Machine Sys2Proof.Laws

section Invariant

variable {s t : State}

/-! ### The invariant over the state's operations -/

/-- The invariant from a state with the same buffers: only the engine's control fields are to be looked at. -/
theorem inv_of_control (h : s.Inv) (hmem : t.mem = s.mem) (hmax : t.msgMax = s.msgMax)
    (hbusy : t.phase = .busy → t.done = false ∧ t.errcode = 0#8) (hcode : t.errcode ∈ errorCodes) : t.Inv where
  canonical := hmem ▸ h.canonical
  inBuffers := by rw [hmem, bufferOffset_congr hmax]; exact h.inBuffers
  build := hmax ▸ h.build
  busyClear := hbusy
  code := hcode

/-- A memory in canonical form that lists only the buffers' bytes may replace the state's. -/
theorem inv_withMem (h : s.Inv) {m : Memory} (hwf : m.wf) (hin : AddrsIn s.bufferOffset m) :
    ({ s with mem := m } : State).Inv := { h with canonical := hwf, inBuffers := hin }

/-- Neither the turns to come nor the bus's answer are part of the invariant. -/
theorem inv_withPending (h : s.Inv) (rest : List Event) : ({ s with pending := rest } : State).Inv := { h with }

theorem inv_withResponse (h : s.Inv) (r : Option BusAnswer) : ({ s with response := r } : State).Inv := { h with }

theorem inv_withDraws (h : s.Inv) (ds : List Draw) : ({ s with draws := ds } : State).Inv := { h with }

theorem inv_completeWith (h : s.Inv) {c : BitVec 8} (hc : c ∈ errorCodes) : (s.completeWith c).Inv :=
  inv_of_control h rfl rfl (fun hb => by cases hb) hc

theorem inv_accept (h : s.Inv) (w : Word32) : (s.accept w).Inv :=
  inv_of_control h rfl rfl (fun _ => ⟨rfl, rfl⟩) (by simp [okCode, errorCodes])

/-- Reset empties the buffers and keeps the build. -/
theorem inv_hardReset (h : s.Inv) : s.hardReset.Inv where
  canonical := reset_mem_wf
  inBuffers := fun c hc => by cases hc
  build := h.build
  busyClear := fun hb => by cases hb
  code := by simp [errorCodes]

/-- A STATUS write only clears bits: DONE stays 0 while BUSY. -/
theorem inv_writeStatus (h : s.Inv) (d : Word32) : (s.writeStatus d).Inv :=
  inv_of_control h rfl rfl (fun hb => ⟨by simp [(h.busyClear hb).1], (h.busyClear hb).2⟩) h.code

theorem inv_writeCtrl (h : s.Inv) (d : Word32) : (s.writeCtrl d).Inv := by
  unfold State.writeCtrl
  split
  · exact inv_hardReset h
  · exact { h with }

theorem inv_writeBufferWord (h : s.Inv) (off : Nat) (d : Word32) : (s.writeBufferWord off d).Inv := by
  rw [writeBufferWord_eq]
  exact inv_withMem h (writeBufferWord_wf h.canonical off d) (writeBufferWord_addrs h.inBuffers off d)

/-! ### The agents' turns -/

/-- An accepted host write, at every place of the window. -/
theorem inv_storeAt (h : s.Inv) (d : Word32) (l : Location) : (s.storeAt d l).Inv := by
  cases l with
  | ctrl => exact inv_writeCtrl h d
  | status => exact inv_writeStatus h d
  | cmd => exact inv_accept h d
  | txt off | msg off => exact inv_writeBufferWord h off d
  | msgLen | txtLen | xWord i w | pxWord i w | pyWord i w | tag i => exact { h with }
  | id | version | errcode | msgMax | txtMax | reserved => exact h

/-- The host's turn: refused, answered with a word, or stored. -/
theorem inv_access (h : s.Inv) {a : Access} {rest : List Event} (hp : s.pending = .access a :: rest)
    (ht : step s = .next t) : t.Inv := by
  obtain ⟨-, ⟨-, rfl⟩ | ⟨-, -, rfl⟩ | ⟨d, -, -, rfl⟩⟩ := access_cases hp ht
  · exact { h with }
  · exact { h with }
  · exact inv_withResponse (inv_storeAt (inv_withPending h rest) d _) _

/-- What a command writes before its completion keeps the buffers' form, and no control field. -/
theorem inv_wrote {i : Instr} (h : s.Inv) (hw : Wrote i s t) : (t.completeWith okCode).Inv where
  canonical := hw.wf h.canonical
  inBuffers := by
    rw [bufferOffset_congr (s := s) (by simp [hw.msgMax])]
    exact hw.addrs s.bufferOffset (fun a h1 h2 => .inl ⟨h1, h2⟩) h.inBuffers
  build := by simpa [hw.msgMax] using h.build
  busyClear := fun hb => by cases hb
  code := by simp [okCode, errorCodes]

/-- Every command, by its three ends: committed, raised, or waiting for the oracle. -/
theorem inv_exec {i : Instr} (h : s.Inv) (ht : exec i s = .next t) : t.Inv := by
  obtain ⟨s', hw, rfl⟩ | ⟨e, rest, -, -, rfl⟩ | ⟨-, -, rfl⟩ := exec_cases ht
  · exact inv_wrote h hw
  · exact inv_completeWith (inv_withDraws h rest) (code_mem e)
  · exact inv_withDraws h []

/-- The engine's turn: idle, a command, or an illegal word. -/
theorem inv_engineStep (h : s.Inv) (ht : engineStepBy exec s = .next t) : t.Inv := by
  obtain ⟨-, rfl⟩ | ⟨-, i, -, hi⟩ | ⟨-, e, -, rfl⟩ := engine_cases ht
  · exact h
  · exact inv_exec h hi
  · exact inv_completeWith h (code_mem .illegal)

end Invariant

/-- Settles O10: by the agent whose turn it is, each of whose operations keeps the invariant. -/
theorem stepKeepsInvariant : Obligations.StepKeepsInvariant := by
  intro s t h ht
  obtain ⟨-, he⟩ | ⟨rest, -, he⟩ | ⟨a, rest, hp⟩ | ⟨rest, -, rfl⟩ | ⟨d, rest, -, rfl⟩ := step_cases ht
  · exact inv_engineStep h he
  · exact inv_engineStep (inv_withPending h rest) he
  · exact inv_access h hp ht
  · exact inv_hardReset (inv_withPending h rest)
  · exact inv_withDraws (inv_withPending h rest) _

/-! ### The frame of a command (R15, R116) -/

/-- A completion writes ERRCODE, DONE and the phase, which no frame speaks of. -/
theorem commandFrame_completeWith {i : Instr} {s t : State} (h : CommandFrame i s t) (c : BitVec 8) :
    CommandFrame i s (t.completeWith c) := { h with }

/-- A command that draws may consume answers; one that does not has left them. -/
theorem commandFrame_withDraws {i : Instr} {s : State} {ds : List Draw}
    (h : consumesDraws i = false → ds = s.draws) : CommandFrame i s { s with draws := ds } where
  x _ _ := rfl
  p _ _ := rfl
  mem _ _ := rfl
  txtLen _ := rfl
  flag _ := rfl
  draws := h
  msgLen := rfl
  ie := rfl
  busErr := rfl
  cmd := rfl
  msgMax := rfl
  pending := rfl
  response := rfl

/-- Settles O13: by the three ends of a command, the first of which carries the frame of its writes. -/
theorem commandsLeaveTheRest : Obligations.CommandsLeaveTheRest := by
  intro i s t ht
  obtain ⟨s', hw, rfl⟩ | ⟨e, rest, -, hrest, rfl⟩ | ⟨hdraws, -, rfl⟩ := exec_cases ht
  · exact commandFrame_completeWith hw.toCommandFrame okCode
  · exact commandFrame_completeWith (commandFrame_withDraws hrest) e.code
  · exact commandFrame_withDraws fun hnot => absurd (hdraws.symm.trans hnot) (by decide)

end Sys2Proof.Proofs
end

section
/-! SUPPORT. Multiples modulo the order of the group (00_scope.md R4, 43_scalar_mult.md R231): each law is one of the
curve's group, read back through the values that stand for its points. -/

namespace Sys2Proof.Proofs

open Sys2Proof.Machine Sys2Proof.Laws

/-- The multiple is the value of the group's multiple, whichever value that is. -/
theorem scalarMult_eq_of_reps {q w : Point} {Q : curve.Point} (hq : Reps q Q) {k : Nat} (hk : k < 2 ^ 256)
    (hw : haveI := fact_p; Reps w (k • Q)) : scalarMult k q = .ok w := by
  obtain ⟨v, hv, hr⟩ := scalarMult_reps hq hk
  rw [hv, hr.value_unique hw]

/-- The sum is the value of the group's sum, whichever value that is. -/
theorem pointAdd_eq_of_reps {u v w : Point} {P Q : curve.Point} (hu : Reps u P) (hv : Reps v Q)
    (hw : haveI := fact_p; Reps w (P + Q)) : pointAdd u v = .ok w := by
  obtain ⟨w', h, hr⟩ := pointAdd_reps hu hv
  rw [h, hr.value_unique hw]

theorem mod_n_lt (k : Nat) : k % Config.n < 2 ^ 256 := lt_trans (Nat.mod_lt k n_prime.pos) n_lt

/-- n·G = O (R4). -/
theorem scalarMult_n_generator : scalarMult Config.n generator = .ok .inf := by
  obtain ⟨G, hG⟩ := exists_generator
  exact scalarMult_eq_of_reps hG n_lt (n_smul_generator hG)

/-- k·Q = (k mod n)·Q (R231). -/
theorem scalarMult_mod_n {k : Nat} {q : Point} (hk : k < 2 ^ 256) (hq : q.valid = true) :
    scalarMult k q = scalarMult (k % Config.n) q := by
  obtain ⟨Q, hQ⟩ := (valid_iff_reps q).1 hq
  obtain ⟨w, hw, hr⟩ := scalarMult_reps hQ (mod_n_lt k)
  rw [hw]
  exact scalarMult_eq_of_reps hQ hk (smul_mod k Q ▸ hr)

/-- k1·Q + k2·Q = ((k1 + k2) mod n)·Q, none of them raising (R231). -/
theorem pointAdd_scalarMult {k1 k2 : Nat} {q : Point} (hk1 : k1 < 2 ^ 256) (hk2 : k2 < 2 ^ 256) (hq : q.valid = true) :
    ∃ u v w, scalarMult k1 q = .ok u ∧ scalarMult k2 q = .ok v ∧
      scalarMult ((k1 + k2) % Config.n) q = .ok w ∧ pointAdd u v = .ok w := by
  have := fact_p
  obtain ⟨Q, hQ⟩ := (valid_iff_reps q).1 hq
  obtain ⟨u, hu, ru⟩ := scalarMult_reps hQ hk1
  obtain ⟨v, hv, rv⟩ := scalarMult_reps hQ hk2
  obtain ⟨w, hw, rw'⟩ := scalarMult_reps hQ (mod_n_lt (k1 + k2))
  rw [smul_mod, add_smul] at rw'
  exact ⟨u, v, w, hu, hv, hw, pointAdd_eq_of_reps ru rv rw'⟩

/-- Settles O45: the three laws above. -/
theorem multiplesModuloTheOrder : Obligations.MultiplesModuloTheOrder :=
  ⟨scalarMult_n_generator, fun _ _ => scalarMult_mod_n, fun _ _ _ => pointAdd_scalarMult⟩

end Sys2Proof.Proofs
end

section
/-! SUPPORT. The control registers and the data registers as the host reads and writes them (10_state.md R33 to R40, R50):
which places are open, then one lemma per turn, then the statements. -/

namespace Sys2Proof.Proofs

open Sys2Proof.Machine Sys2Proof.Laws

variable {s : State} {rest : List Event}

/-! ### Which places are open (20_memory.md R85, R86) -/

/-- An idle engine locks no place. -/
theorem readable_of_idle (h : s.phase = .idle) {l : Location} (hl : l ≠ .reserved) : s.readable l = true := by
  simp [State.readable, State.busy, h, hl]

theorem writable_of_idle (h : s.phase = .idle) {l : Location} (hl : l ≠ .reserved) (hro : l.isReadOnly = false) :
    s.writable l = true := by
  simp [State.writable, State.busy, h, hl, hro]

/-- A control register answers a word read in every phase. -/
theorem step_read_control {off : Nat} (h : s.pending = .access ⟨.read, off, 4⟩ :: rest) (hoff : off < 0x28)
    (h4 : off % 4 = 0) (hres : locateControl off ≠ .reserved) (hdata : (locateControl off).isData = false) :
    step s = .next (s.answered (s.wordAt (locateControl off)) rest) :=
  step_read h (by omega) h4 (if_pos hoff) (by simp [State.readable, hres, hdata])

/-- A reserved place refuses every access. -/
theorem step_reserved {a : Access} (h : s.pending = .access a :: rest) (hoff : a.offset < 0x2000)
    (hr : isReservedOffset s.msgMax.toNat a.offset) : step s = .next (s.busErrorOnly a.kind rest) := by
  have htarget : s.target a = .reserved := locate_reserved hr
  exact step_refused h hoff (accepted_of_closed (by rw [htarget]; rfl) (by rw [htarget]; rfl))

/-! ### The words of STATUS, CTRL and TAG (R35, R36, R50) -/

/-- STATUS, bit by bit from BUSERR down. -/
theorem statusWord_bits (s : State) : s.statusWord =
    (((((0#27).concat s.busErr).concat s.flag).concat s.err).concat s.done).concat s.busy := rfl

theorem toNat_statusWord (s : State) :
    s.statusWord.toNat = s.busy.toNat + 2 * s.done.toNat + 4 * s.err.toNat + 8 * s.flag.toNat + 16 * s.busErr.toNat := by
  simp only [statusWord_bits, BitVec.toNat_concat, BitVec.toNat_ofNat, Nat.zero_mod]
  ring

theorem getLsbD_statusWord_flag (s : State) : s.statusWord.getLsbD 3 = s.flag := by
  simp [statusWord_bits]

theorem toNat_ctrlWord (s : State) : s.ctrlWord.toNat = s.ie.toNat := by
  have bits : s.ctrlWord = (0#31).concat s.ie := rfl
  simp [bits, BitVec.toNat_concat]

theorem toNat_tagWord (s : State) (i : PReg) : (s.wordAt (.tag i)).toNat = (s.readPReg i).inf.toNat := by
  rw [State.wordAt, BitVec.toNat_setWidth_of_le (by omega), BitVec.toNat_ofBool]

/-! ### The host's writes of the control registers -/

/-- A CTRL write in every phase, by what `writeCtrl` does (R35, R422). -/
theorem step_write_ctrl {d : Word32} (h : s.pending = .access ⟨.write d, 0x0008, 4⟩ :: rest) :
    step s = .next { { s with pending := rest }.writeCtrl d with response := some (.write false) } :=
  step_write h (by omega) rfl (l := .ctrl) rfl rfl

/-- A STATUS write in every phase (R36). -/
theorem step_write_status {d : Word32} (h : s.pending = .access ⟨.write d, 0x000C, 4⟩ :: rest) :
    step s = .next { { s with pending := rest }.writeStatus d with response := some (.write false) } :=
  step_write h (by omega) rfl (l := .status) rfl rfl

/-- A CMD write while idle is the acceptance of the word (R37). -/
theorem step_write_cmd {d : Word32} (hi : s.phase = .idle) (h : s.pending = .access ⟨.write d, 0x0010, 4⟩ :: rest) :
    step s = .next { { s with pending := rest }.accept d with response := some (.write false) } :=
  step_write h (by omega) rfl (l := .cmd) rfl (writable_of_idle hi (by decide) rfl)

/-- A CMD write while busy is a bus error (R37). -/
theorem step_write_cmd_busy {d : Word32} (hb : s.phase = .busy)
    (h : s.pending = .access ⟨.write d, 0x0010, 4⟩ :: rest) : step s = .next (s.busErrorOnly (.write d) rest) := by
  have closed : s.writable .cmd = false := by simp [State.writable, State.busy, hb]
  exact step_refused h (by show 0x0010 < 0x2000; omega) (by rw [accepted, wellSized_of rfl]; exact closed)

theorem writeCtrl_of_srst {d : Word32} (h : d.getLsbD 1 = true) : s.writeCtrl d = s.hardReset := if_pos h

theorem writeCtrl_of_not_srst {d : Word32} (h : d.getLsbD 1 = false) : s.writeCtrl d = { s with ie := d.getLsbD 0 } :=
  if_neg (by rw [h]; decide)

/-! ### The engine's turn, where it is laid down -/

/-- A busy engine whose turn it is runs the word of CMD (60_exceptions.md R382). -/
theorem step_engine_exec {i : Instr} (h : s.pending = .engine :: rest) (hb : s.phase = .busy)
    (hi : decode s.cmd = .ok i) : step s = exec i { s with pending := rest } := by
  simp only [step, stepBy, h, engineStepBy, hb, engineTurnBy, State.fetch, hi]

/-- An illegal word completes with its code (R119). -/
theorem step_engine_illegal {e : Illegal} (h : s.pending = .engine :: rest) (hb : s.phase = .busy)
    (he : decode s.cmd = .error e) : step s = .next ({ s with pending := rest }.completedOnly 0x01#8) := by
  simp only [step, stepBy, h, engineStepBy, hb, engineTurnBy, State.fetch, he]
  rfl

/-! ### The statements -/

/-- Settles O8: acceptance and then the engine's turn; the refusal while busy; the read. -/
theorem cmdRegister : Obligations.CmdRegister := by
  intro s d rest
  refine ⟨fun hi h => ⟨_, step_write_cmd hi h, rfl, fun i hd => ?_, fun e hd => ?_⟩, step_write_cmd_busy,
    fun h => step_read_control h (by omega) rfl (by decide) rfl, rfl⟩
  · exact step_engine_exec rfl rfl hd
  · exact step_engine_illegal rfl rfl hd

/-- Settles O24: each register is open in every phase, so what it reads as is the word at its place. -/
theorem controlRegisterReads : Obligations.ControlRegisterReads := by
  intro s rest
  refine ⟨fun h => ?_, fun h => ?_, fun h => ⟨s.ctrlWord, ?_, toNat_ctrlWord s⟩,
    fun h => ⟨s.statusWord, ?_, toNat_statusWord s⟩,
    fun h => ⟨s.errcode.setWidth 32, ?_, BitVec.toNat_setWidth_of_le (by omega)⟩, fun h => ?_, fun h => ?_⟩
  all_goals exact step_read_control h (by omega) rfl (by decide) rfl

/-- Settles O26: the TAG place while idle, the reserved words behind it, and the register at reset. -/
theorem tagWord : Obligations.TagWord := by
  refine ⟨fun s i d rest => ⟨fun hi h => ?_, fun hi h => ?_, fun a h hlo hhi => ?_⟩, fun i => ?_⟩
  · exact ⟨_, step_read h (by omega) (by omega) (locate_tag _ i) (readable_of_idle hi (by simp)), toNat_tagWord s i⟩
  · exact step_write h (by omega) (by omega) (locate_tag _ i) (writable_of_idle hi (by simp) rfl)
  · exact step_reserved h (by omega) (by unfold isReservedOffset; omega)
  · simp [State.readPReg, State.reset]

/-- Settles O28: both places are open while idle, and hold the whole word. -/
theorem lengthRegisters : Obligations.LengthRegisters := by
  refine ⟨fun s d rest hi => ⟨fun h => ?_, fun h => ?_, fun h => ?_, fun h => ?_⟩, rfl, rfl⟩
  · exact step_write h (by omega) rfl (l := .msgLen) rfl (writable_of_idle hi (by decide) rfl)
  · exact step_read h (by omega) rfl (l := .msgLen) rfl (readable_of_idle hi (by decide))
  · exact step_write h (by omega) rfl (l := .txtLen) rfl (writable_of_idle hi (by decide) rfl)
  · exact step_read h (by omega) rfl (l := .txtLen) rfl (readable_of_idle hi (by decide))

/-- Settles O29: what `writeStatus` does to each of the two bits. -/
theorem statusWriteClears : Obligations.StatusWriteClears := by
  intro s d rest h
  have clear (old bit : Bool) : (old && !bit) = if bit then false else old := by cases old <;> cases bit <;> rfl
  rw [step_write_status h, State.writeStatus, clear, clear]

/-- Settles O30: the two cases of SRST. -/
theorem ctrlWriteAndSoftReset : Obligations.CtrlWriteAndSoftReset := by
  intro s d rest h
  rw [step_write_ctrl h]
  exact ⟨fun hd => by rw [writeCtrl_of_not_srst hd], fun hd => by rw [writeCtrl_of_srst hd]; rfl⟩

/-! ### STATUS.FLAG (R48) -/

/-- A command that changes FLAG is PCHK or VERIFY, and has completed without error. -/
theorem writesFlag_of_exec {i : Instr} {t : State} (ht : exec i s = .next t) (hne : t.flag ≠ s.flag) :
    writesFlag i = true ∧ t.errcode = 0#8 ∧ t.done = true := by
  obtain ⟨s', hw, rfl⟩ | ⟨e, rest, -, -, rfl⟩ | ⟨-, -, rfl⟩ := exec_cases ht
  · refine ⟨?_, rfl, rfl⟩
    by_contra hf
    exact hne (hw.flag (by simpa using hf))
  · exact absurd rfl hne
  · exact absurd rfl hne

/-- The engine changes FLAG only by such a command: idle it holds its state, and an illegal word writes ERRCODE alone. -/
theorem writesFlag_of_engineStep {t : State} (ht : engineStepBy exec s = .next t) (hne : t.flag ≠ s.flag) :
    ∃ i, s.phase = .busy ∧ decode s.cmd = .ok i ∧ writesFlag i = true ∧ t.errcode = 0#8 ∧ t.done = true := by
  obtain ⟨-, rfl⟩ | ⟨hb, i, hi, hex⟩ | ⟨-, e, -, rfl⟩ := engine_cases ht
  · exact absurd rfl hne
  · exact ⟨i, hb, hi, writesFlag_of_exec hex hne⟩
  · exact absurd rfl hne

/-- The host changes FLAG only by the soft reset. -/
theorem softReset_of_access {a : Access} {t : State} (h : s.pending = .access a :: rest) (ht : step s = .next t)
    (hne : t.flag ≠ s.flag) : ∃ d, a = ⟨.write d, 0x0008, 4⟩ ∧ d.getLsbD 1 = true ∧ t.flag = false := by
  obtain ⟨hoff, ⟨-, rfl⟩ | ⟨-, -, rfl⟩ | ⟨d, hacc, hkind, rfl⟩⟩ := access_cases h ht
  · exact absurd rfl hne
  · exact absurd rfl hne
  obtain ⟨h4, halign⟩ := wellSized_of_accepted hacc
  have hctrl : s.target a = .ctrl := by
    by_contra hno
    exact hne ((storeAt_frame { s with pending := rest } d (s.target a)).1 hno)
  have hoffset : a.offset = 0x0008 := (target_iff halign hoff).1.1 hctrl
  refine ⟨d, by cases a; simp_all, ?_⟩
  rw [hctrl] at hne ⊢
  cases hd : d.getLsbD 1 with
  | false => exact absurd (by rw [State.storeAt, writeCtrl_of_not_srst hd]) hne
  | true => exact ⟨rfl, by rw [State.storeAt, writeCtrl_of_srst hd]; rfl⟩

theorem step_hardReset (h : s.pending = .hardReset :: rest) : step s = .next { s with pending := rest }.hardReset := by
  rw [step, stepBy, h]

/-- Settles O16: by the agent whose turn it is; the resets' own flag; the bit of STATUS. -/
theorem flagHasTwoWriters : Obligations.FlagHasTwoWriters := by
  refine ⟨fun s t ht hne => ?_, fun s t hreset ht => ?_, getLsbD_statusWord_flag⟩
  · obtain ⟨-, he⟩ | ⟨rest, -, he⟩ | ⟨a, rest, hp⟩ | ⟨rest, hp, rfl⟩ | ⟨d, rest, -, rfl⟩ := step_cases ht
    · exact .inl (writesFlag_of_engineStep he hne)
    · exact .inl (writesFlag_of_engineStep (s := { s with pending := rest }) he hne)
    · obtain ⟨d, rfl, hd, hflag⟩ := softReset_of_access hp ht hne
      exact .inr ⟨hflag, .inr ⟨d, rest, hp, hd⟩⟩
    · exact .inr ⟨rfl, .inl ⟨rest, hp⟩⟩
    · exact absurd rfl hne
  · obtain ⟨rest, hp⟩ | ⟨d, rest, hp, hd⟩ := hreset
    · rw [step_hardReset hp] at ht
      injection ht with ht
      rw [← ht]; rfl
    · rw [step_write_ctrl hp, writeCtrl_of_srst hd] at ht
      injection ht with ht
      rw [← ht]; rfl

end Sys2Proof.Proofs
end

section
/-! SUPPORT. The transfer commands (41_transfer.md R170 to R176) and the constants of the ROM (10_state.md R45). -/

namespace Sys2Proof.Proofs

open Sys2Proof.Machine Sys2Proof.Laws

/-- LDC at every index (R172). -/
theorem exec_ldc (s : State) (a : XReg) (k : RomIndex) :
    exec (.ldc a k) s = .next ((s.writeX a (romValue k)).completedOnly 0x00#8) := finish_ok s _

/-- Settles O38: each of these is `finish` of a result that cannot be an error; the constants' numbers are those of the
ROM by computation. -/
theorem transferResults : Obligations.TransferResults := by
  intro s a b c q r
  exact ⟨finish_ok s _, finish_ok s _, exec_ldc s a .zero, exec_ldc s a .one, exec_ldc s a .p, exec_ldc s a .n,
    exec_ldc s a .gx, exec_ldc s a .gy, exec_ldc s a .coeffB, finish_ok s _, finish_ok s _, finish_ok s _, finish_ok s _⟩

end Sys2Proof.Proofs
end

section
/-! SUPPORT. What a command's result does not depend on (10_state.md R41, 20_memory.md R91, 60_exceptions.md R382): a
command run in two states that look alike to it ends alike. One lemma per operation of the state, one per way a command
ends, then the commands. -/

namespace Sys2Proof.Proofs

open Sys2Proof.Machine Sys2Proof.Laws

/-- The two states agree on all that a command reads: the point registers by value, not by what a set tag hides. -/
structure LooksAlike (s s' : State) : Prop where
  x      : s'.x = s.x
  p      : ∀ q, s'.readP q = s.readP q
  mem    : s'.mem = s.mem
  msgLen : s'.msgLen = s.msgLen
  txtLen : s'.txtLen = s.txtLen
  msgMax : s'.msgMax = s.msgMax
  draws  : s'.draws = s.draws

/-- From s and s' the states t and t' are reached, which look alike again; the fields that only completion and FLAG's two
writers touch agree where they agreed before. -/
structure ReachAlike (s s' t t' : State) : Prop extends LooksAlike t t' where
  phase   : s'.phase = s.phase → t'.phase = t.phase
  errcode : s'.errcode = s.errcode → t'.errcode = t.errcode
  flag    : s'.flag = s.flag → t'.flag = t.flag

/-- Neither outcome is a stop, and the next states are alike. -/
def EndAlike (s s' : State) (o o' : Host.Outcome State Fault Refusal) : Prop :=
  ∃ t t', o = .next t ∧ o' = .next t' ∧ ReachAlike s s' t t'

variable {s s' t t' : State}

/-! ### What a command reads -/

namespace LooksAlike

variable (h : LooksAlike s s')
include h

theorem readX (i : XReg) : s'.readX i = s.readX i := readX_congr h.x i

theorem message : s'.message = s.message := by simp [State.message, h.mem, h.msgLen, h.msgMax]

theorem text : s'.text = s.text := by simp [State.text, h.mem, h.txtLen]

theorem hashInput (m : HashSource) : s'.hashInput m = s.hashInput m := by
  cases m with
  | msg => exact h.message
  | txt => exact h.text

theorem signInput (hash : HashFunction) (d : Nat) : s'.signInput hash d = s.signInput hash d := by
  simp [State.signInput, h.message]

theorem verdict (hash : HashFunction) (r sg : Nat) (q : Point) : s'.verdict hash r sg q = s.verdict hash r sg q := by
  simp [State.verdict, h.message]

theorem refl : ReachAlike s s' s s' := { h with phase := id, errcode := id, flag := id }

end LooksAlike

/-! ### What a command writes -/

/-- What a point register stands for after a write: the value of the contents stored (R41). -/
theorem readP_writePReg (s : State) (i j : PReg) (r : PointReg) :
    (s.writePReg i r).readP j = if i = j then r.value else s.readP j := by
  by_cases hij : i = j
  · subst hij; simp [State.readP]
  · simp [State.readP, hij, readPReg_writePReg_of_ne s r hij]

namespace ReachAlike

variable (h : ReachAlike s s' t t')
include h

theorem writeX (i : XReg) (v : Val) : ReachAlike s s' (t.writeX i v) (t'.writeX i v) :=
  { h with x := by simp [h.x] }

theorem writePReg (i : PReg) {r r' : PointReg} (hr : r'.value = r.value) :
    ReachAlike s s' (t.writePReg i r) (t'.writePReg i r') :=
  { h with p := fun q => by simp only [readP_writePReg, hr, h.p] }

theorem writeP (i : PReg) (pt : Point) : ReachAlike s s' (t.writeP i pt) (t'.writeP i pt) := h.writePReg i rfl

theorem writeFlag (b : Bool) : ReachAlike s s' (t.writeFlag b) (t'.writeFlag b) := { h with flag := fun _ => rfl }

theorem commitText (text : List Byte) : ReachAlike s s' (t.commitText text) (t'.commitText text) :=
  { h with mem := by simp [h.mem], txtLen := rfl }

theorem withDraws (ds : List Draw) : ReachAlike s s' { t with draws := ds } { t' with draws := ds } :=
  { h with draws := rfl }

theorem completeWith (c : BitVec 8) : ReachAlike s s' (t.completeWith c) (t'.completeWith c) :=
  { h with phase := fun _ => rfl, errcode := fun _ => rfl }

end ReachAlike

/-! ### How a command ends -/

namespace EndAlike

theorem finish_ok (h : ReachAlike s s' t t') : EndAlike s s' (finish s (.ok t)) (finish s' (.ok t')) :=
  ⟨_, _, rfl, rfl, h.completeWith okCode⟩

theorem finish_error (h : LooksAlike s s') (e : Err) : EndAlike s s' (finish s (.error e)) (finish s' (.error e)) :=
  ⟨_, _, rfl, rfl, h.refl.completeWith e.code⟩

/-- A result computed alike in both states, and then written. -/
theorem finish_map {α : Type} (h : LooksAlike s s') (r : Except Err α) {write write' : α → State}
    (hw : ∀ a, ReachAlike s s' (write a) (write' a)) :
    EndAlike s s' (finish s (r.map write)) (finish s' (r.map write')) := by
  cases r with
  | ok a => exact finish_ok (hw a)
  | error e => exact finish_error h e

/-- A loop that draws the same answers, and then writes. -/
theorem drawn {α : Type} (h : LooksAlike s s') (d : Drawn α) {commit : State → α → State}
    (hc : ∀ t t' a, ReachAlike s s' t t' → ReachAlike s s' (commit t a) (commit t' a)) :
    EndAlike s s' (finishDrawn s d commit) (finishDrawn s' d commit) := by
  cases d with
  | got a rest => exact ⟨_, _, rfl, rfl, (hc _ _ a (h.refl.withDraws rest)).completeWith okCode⟩
  | raised e rest => exact ⟨_, _, rfl, rfl, (h.refl.withDraws rest).completeWith e.code⟩
  | waiting => exact ⟨_, _, rfl, rfl, h.refl.withDraws []⟩

end EndAlike

/-! ### The commands -/

theorem execSignWith_alike (h : LooksAlike s s') (hash : HashFunction) (a b c : XReg) :
    EndAlike s s' (execSignWith hash a b c s) (execSignWith hash a b c s') := by
  unfold execSignWith
  simp only [h.readX, h.signInput, h.draws]
  split
  · exact .finish_error h .illegal
  · split
    · exact .finish_error h _
    · exact .drawn h _ fun t t' v ht => (ht.writeX a _).writeX b _

/-- Every command: its inputs are read alike, and what it writes is written alike. -/
theorem exec_alike (h : LooksAlike s s') (i : Instr) : EndAlike s s' (exec i s) (exec i s') := by
  cases i with
  | nop => exact .finish_ok h.refl
  | madd a b c m | msub a b c m | mmul a b c m | mred a b m | mov a b | ldc a k =>
    simp only [exec, execMadd, execMsub, execMmul, execMred, execMov, execLdc, h.readX]
    exact .finish_ok (h.refl.writeX a _)
  | minv a b m =>
    simp only [exec, execMinv, h.readX]
    split
    · exact .finish_error h .noInverse
    · exact .finish_ok (h.refl.writeX a _)
  | pmov a b => exact .finish_ok (h.refl.writePReg a (h.p b))
  | pset a b c | pinf a | pgen a =>
    simp only [exec, execPset, execPinf, execPgen, h.readX]
    exact .finish_ok (h.refl.writeP a _)
  | pgetx a b | pgety a b =>
    simp only [exec, execPgetx, execPgety, h.p]
    split
    · exact .finish_error h .infinity
    · exact .finish_ok (h.refl.writeX a _)
  | padd a b c | pdbl a b =>
    simp only [exec, execPadd, execPdbl, h.p]
    exact .finish_map h _ fun r => h.refl.writeP a r
  | pchk b =>
    simp only [exec, execPchk, h.p]
    exact .finish_ok (h.refl.writeFlag _)
  | pmul a b c =>
    simp only [exec, execPmul, h.readX, h.p]
    split
    · exact .finish_ok (h.refl.writeP a .inf)
    · split
      · exact .finish_error h .badPoint
      · exact .finish_map h _ fun r => h.refl.writeP a r
  | hash a m =>
    simp only [exec, execHash, execHashWith, h.hashInput]
    exact .finish_map h _ fun bytes => h.refl.writeX a _
  | rand a =>
    simp only [exec, execRand, h.draws]
    exact .drawn h _ fun t t' v ht => ht.writeX a _
  | encd b | encsig b c =>
    simp only [exec, execEncd, execEncsig, h.readX]
    exact .finish_ok (h.refl.commitText _)
  | encq b | enckp b c =>
    simp only [exec, execEncq, execEnckp, h.readX, h.p]
    split
    · exact .finish_error h .infinity
    · exact .finish_ok (h.refl.commitText _)
  | decd a =>
    simp only [exec, execDecd, h.text]
    exact .finish_map h _ fun d => h.refl.writeX a d
  | decq a =>
    simp only [exec, execDecq, h.text]
    exact .finish_map h _ fun v => h.refl.writeP a _
  | deckp a b =>
    simp only [exec, execDeckp, h.text]
    exact .finish_map h _ fun v => (h.refl.writeX a _).writeP b _
  | decsig a b =>
    simp only [exec, execDecsig, h.text]
    split
    · exact .finish_error h .illegal
    · exact .finish_map h _ fun v => (h.refl.writeX a _).writeX b _
  | keygen a b =>
    simp only [exec, execKeygen, h.draws]
    exact .drawn h _ fun t t' dq ht => (ht.writeX a _).writeP b _
  | sign a b c => exact execSignWith_alike h hashH a b c
  | verify a b c =>
    simp only [exec, execVerify, execVerifyWith, h.readX, h.p, h.verdict]
    exact .finish_map h _ fun ok => h.refl.writeFlag ok

/-- Settles O18: the two states look alike to the command, so it ends alike in both. -/
theorem commandsSeeValuesOnly : Obligations.CommandsSeeValuesOnly := by
  intro i s s' t t' hx hp hmem hmsgLen htxtLen hmsgMax hdraws ht ht'
  obtain ⟨u, u', hu, hu', alike⟩ := exec_alike ⟨hx, hp, hmem, hmsgLen, htxtLen, hmsgMax, hdraws⟩ i
  obtain rfl : u = t := by rw [ht] at hu; injection hu with hu; exact hu.symm
  obtain rfl : u' = t' := by rw [ht'] at hu'; injection hu' with hu'; exact hu'.symm
  exact ⟨alike.x, alike.p, alike.mem, alike.txtLen, alike.draws, fun hb hb' => alike.phase (hb'.trans hb.symm),
    alike.errcode, alike.flag⟩

end Sys2Proof.Proofs
end

section
/-! SUPPORT. The window's access rules (20_memory.md R80 to R88): which accesses are refused and what a refusal does, what a
read and a write may change, and the words of the 256-bit registers and of the buffers (R81, R82). -/

namespace Sys2Proof.Proofs

open Sys2Proof.Machine Sys2Proof.Laws

variable {s : State} {rest : List Event}

/-! ### Which places are closed (R84 to R86) -/

/-- An access of another width or alignment is refused (R84). -/
theorem accepted_of_width_or_alignment {a : Access} (h : a.bytes ≠ 4 ∨ a.offset % 4 ≠ 0) : accepted s a = false := by
  refine accepted_of_illSized (Bool.eq_false_iff.2 fun hsized => ?_)
  obtain ⟨hbytes, halign⟩ := (wellSized_iff a).1 hsized
  exact h.elim (· hbytes) (· halign)

/-- A busy engine locks every data place, and the reserved places are never open (R85, R86). -/
theorem accepted_of_busy {a : Access} (hb : s.phase = .busy)
    (ht : (s.target a).isData = true ∨ s.target a = .reserved) : accepted s a = false := by
  have closed : s.readable (s.target a) = false ∧ s.writable (s.target a) = false := by
    obtain hdata | hres := ht
    · simp [State.readable, State.writable, State.busy, hb, hdata]
    · rw [hres]; exact ⟨rfl, rfl⟩
  exact accepted_of_closed closed.1 closed.2

/-- A write of a read-only register is refused in every phase (R86). -/
theorem accepted_of_readOnly {d : Word32} {off bytes : Nat} (h : (s.target ⟨.write d, off, bytes⟩).isReadOnly = true) :
    accepted s ⟨.write d, off, bytes⟩ = false := by
  simp [accepted, State.writable, h]

/-- An aligned offset of the window that is not reserved names a place (R49). -/
theorem locate_ne_reserved {mm off : Nat} (hoff : off < 0x2000) (h4 : off % 4 = 0) (hres : ¬isReservedOffset mm off) :
    locate mm off ≠ .reserved := by
  intro h
  have := locate_cases mm off hoff h4
  simp_all

/-- No data window holds a read-only register. -/
theorem not_isReadOnly_of_isData {l : Location} (h : l.isData = true) : l.isReadOnly = false := by
  cases l with
  | id | version | errcode | msgMax | txtMax => cases h
  | _ => rfl

/-- The offsets of the control registers, by what stands there (R49, R85). -/
theorem control_open : ∀ off ∈ [0x0000, 0x0004, 0x0008, 0x000C, 0x0010, 0x0014, 0x0020, 0x0024],
    off < 0x28 ∧ off % 4 = 0 ∧ locateControl off ≠ .reserved ∧ (locateControl off).isData = false := by decide

/-- The offsets of the read-only registers (R49, R86). -/
theorem control_readOnly : ∀ off ∈ [0x0000, 0x0004, 0x0014, 0x0020, 0x0024],
    off < 0x28 ∧ (locateControl off).isReadOnly = true := by decide

/-! ### Refused accesses -/

/-- Settles O19: such an access is refused. -/
theorem illSizedAccess : Obligations.IllSizedAccess :=
  fun _ _ _ h hoff hill => step_refused h hoff (accepted_of_width_or_alignment hill)

/-- While busy a data window refuses every access, of any width and alignment (R85). -/
theorem step_dataWindow_busy {a : Access} (hb : s.phase = .busy) (h : s.pending = .access a :: rest)
    (hin : inDataWindow a.offset) : step s = .next (s.busErrorOnly a.kind rest) := by
  refine step_refused h (by unfold inDataWindow at hin; omega) ?_
  by_cases h4 : a.offset % 4 = 0
  · exact accepted_of_busy hb (locate_data hin h4)
  · exact accepted_of_width_or_alignment (.inr h4)

/-- Settles O20: the lock; the control registers, open in every phase; and the idle engine, which locks nothing. -/
theorem dataWindowsLockedWhileBusy : Obligations.DataWindowsLockedWhileBusy := by
  intro s rest
  refine ⟨fun a hb h hin => step_dataWindow_busy hb h hin, fun d hb h => step_write_cmd_busy hb h,
    fun off hmem h => ?_, fun off d hmem h => ?_, fun off hi hoff h4 hres h => ?_, fun off d hi hin h4 hres h => ?_⟩
  · obtain ⟨hoff, h4, hres, hdata⟩ := control_open off hmem
    exact ⟨_, step_read_control h hoff h4 hres hdata⟩
  · obtain rfl | rfl : off = 0x0008 ∨ off = 0x000C := by simpa using hmem
    · exact ⟨_, step_write_ctrl h, rfl⟩
    · exact ⟨_, step_write_status h, rfl⟩
  · exact ⟨_, step_read h hoff h4 rfl (readable_of_idle hi (locate_ne_reserved hoff h4 hres))⟩
  · obtain rfl | hin := hin
    · exact ⟨_, step_write_cmd hi h, rfl⟩
    · have hoff : off < 0x2000 := by unfold inDataWindow at hin; omega
      have hne := locate_ne_reserved hoff h4 hres
      have hro := not_isReadOnly_of_isData ((locate_data hin h4).resolve_right hne)
      exact ⟨_, step_write h hoff h4 rfl (writable_of_idle hi hne hro), rfl⟩

/-- Settles O21: both kinds of offset refuse; STATUS takes its write. -/
theorem reservedAndReadOnly : Obligations.ReservedAndReadOnly := by
  intro s rest
  refine ⟨fun a h hres => ?_, fun off d hmem h => ?_, fun d h => ⟨_, step_write_status h, rfl⟩⟩
  · exact step_reserved h (by unfold isReservedOffset at hres; omega) hres
  · obtain ⟨hoff, hro⟩ := control_readOnly off hmem
    have htarget : s.target ⟨.write d, off, 4⟩ = locateControl off := if_pos hoff
    exact step_refused h (Nat.lt_trans hoff (by decide)) (accepted_of_readOnly (htarget ▸ hro))

/-- Settles O22: of the three ends of an access only the refusal answers an error. -/
theorem busErrorOnlySetsBusErr : Obligations.BusErrorOnlySetsBusErr := by
  intro s t a rest ans h ht hans herr
  obtain ⟨-, ⟨-, rfl⟩ | ⟨-, -, rfl⟩ | ⟨d, -, -, rfl⟩⟩ := access_cases h ht
  · rfl
  · cases hans; cases herr
  · cases hans; cases herr

/-! ### What a read changes (R88) -/

/-- The answer of a read to the host: the word of the place, or the bus error (R84, R87). -/
def readAnswer (s : State) (a : Access) : Word32 × Bool :=
  if accepted s a then (s.wordAt (s.target a), false) else (0#32, true)

/-- The state after a read: its answer, and BUSERR where it was refused. -/
def afterRead (s : State) (a : Access) (rest : List Event) : State :=
  { s with
    busErr := s.busErr || (readAnswer s a).2
    pending := rest
    response := some (.read (readAnswer s a).1 (readAnswer s a).2) }

theorem readAnswer_of_error {a : Access} (h : (readAnswer s a).2 = true) : (readAnswer s a).1 = 0#32 := by
  unfold readAnswer at h ⊢
  split at h
  · cases h
  · rw [if_neg ‹_›]

/-- Every read inside the window ends so. -/
theorem step_read_any {off bytes : Nat} (h : s.pending = .access ⟨.read, off, bytes⟩ :: rest) (hoff : off < 0x2000) :
    step s = .next (afterRead s ⟨.read, off, bytes⟩ rest) := by
  rw [step_access h hoff]
  cases hacc : accepted s ⟨.read, off, bytes⟩ with
  | false => rw [performAccess_error rest hacc]; simp [afterRead, readAnswer, hacc, State.busErrorOnly, errorAnswer]
  | true => rw [performAccess_read rest hacc]; simp [afterRead, readAnswer, hacc, State.answered]

/-- A read leaves its own answer as it was: the first bus error is all it can write (R88). -/
theorem readAnswer_afterRead (s : State) (a : Access) (rest : List Event) :
    readAnswer (afterRead s a rest) a = readAnswer s a := by
  have hacc : accepted (afterRead s a rest) a = accepted s a := rfl
  cases h : accepted s a with
  | false => simp [readAnswer, hacc, h]
  | true =>
    have hbus : afterRead s a rest = s.answered (s.wordAt (s.target a)) rest := by
      simp [afterRead, readAnswer, h, State.answered]
    have hword : (afterRead s a rest).wordAt (s.target a) = s.wordAt (s.target a) := by
      rw [hbus]; cases s.target a <;> rfl
    have htarget : (afterRead s a rest).target a = s.target a := rfl
    simp [readAnswer, hacc, h, htarget, hword]

/-- The same read again: the same answer, and nothing else. -/
theorem afterRead_afterRead (s : State) (a : Access) (rest rest' : List Event) :
    afterRead (afterRead s a rest) a rest' = { afterRead s a rest with pending := rest' } := by
  rw [afterRead, readAnswer_afterRead]
  simp [afterRead]

/-! ### What a write changes (R88) -/

/-- t is s after a write at an offset that is none of CMD's, STATUS's and the soft reset: only IE, the lengths, the
registers and the buffers can differ, each where it stands at the offset. -/
structure WrittenAt (off : Nat) (s t : State) : Prop where
  only   : t = { s with ie := t.ie, msgLen := t.msgLen, txtLen := t.txtLen, x := t.x, p := t.p, mem := t.mem }
  ie     : off ≠ 0x0008 → t.ie = s.ie
  msgLen : off ≠ 0x0018 → t.msgLen = s.msgLen
  txtLen : off ≠ 0x001C → t.txtLen = s.txtLen
  x      : ∀ i : XReg, ¬(0x0100 + 0x20 * i.val ≤ off ∧ off < 0x0100 + 0x20 * i.val + 0x20) → t.readX i = s.readX i
  p      : ∀ i : PReg, ¬(0x0400 + 0x60 * i.val ≤ off ∧ off < 0x0400 + 0x60 * i.val + 0x60) →
    t.readPReg i = s.readPReg i
  mem    : ∀ j, ¬(off ≤ j ∧ j < off + 4) → t.mem.read j = s.mem.read j

namespace WrittenAt

variable {off : Nat}

theorem refl (off : Nat) (s : State) : WrittenAt off s s :=
  ⟨rfl, fun _ => rfl, fun _ => rfl, fun _ => rfl, fun _ _ => rfl, fun _ _ => rfl, fun _ _ => rfl⟩

theorem withIe (s : State) (b : Bool) : WrittenAt 0x0008 s { s with ie := b } :=
  { refl 0x0008 s with only := rfl, ie := fun h => absurd rfl h }

theorem withMsgLen (s : State) (d : Word32) : WrittenAt 0x0018 s { s with msgLen := d } :=
  { refl 0x0018 s with only := rfl, msgLen := fun h => absurd rfl h }

theorem withTxtLen (s : State) (d : Word32) : WrittenAt 0x001C s { s with txtLen := d } :=
  { refl 0x001C s with only := rfl, txtLen := fun h => absurd rfl h }

theorem writeX {i : XReg} (h : 0x0100 + 0x20 * i.val ≤ off ∧ off < 0x0100 + 0x20 * i.val + 0x20) (v : Val) :
    WrittenAt off s (s.writeX i v) :=
  { refl off s with only := rfl, x := fun _ hj => readX_writeX_of_ne s v fun hij => hj (hij ▸ h) }

theorem writePReg {i : PReg} (h : 0x0400 + 0x60 * i.val ≤ off ∧ off < 0x0400 + 0x60 * i.val + 0x60) (r : PointReg) :
    WrittenAt off s (s.writePReg i r) :=
  { refl off s with only := rfl, p := fun _ hj => readPReg_writePReg_of_ne s r fun hij => hj (hij ▸ h) }

theorem withMem {m : Memory} (h : ∀ j, ¬(off ≤ j ∧ j < off + 4) → m.read j = s.mem.read j) :
    WrittenAt off s { s with mem := m } := { refl off s with only := rfl, mem := h }

end WrittenAt

/-- A byte written by the bus is no other byte. -/
theorem read_writeBufferByte_ne (s : State) {off j : Nat} (h : j ≠ off) (v : Byte) :
    (s.writeBufferByte off v).mem.read j = s.mem.read j := by
  unfold State.writeBufferByte
  split
  · exact read_write_ne s.mem h v
  · rfl

/-- A word written by the bus is its four bytes at most (R82). -/
theorem read_writeBufferWord_outside (s : State) {off j : Nat} (h : ¬(off ≤ j ∧ j < off + 4)) (d : Word32) :
    (s.writeBufferWord off d).mem.read j = s.mem.read j := by
  rw [State.writeBufferWord, read_writeBufferByte_ne _ (by omega), read_writeBufferByte_ne _ (by omega),
    read_writeBufferByte_ne _ (by omega), read_writeBufferByte_ne _ (by omega)]

theorem writtenAt_writeBufferWord (s : State) (off : Nat) (d : Word32) :
    WrittenAt off s (s.writeBufferWord off d) := by
  rw [writeBufferWord_eq]
  exact .withMem fun j hj => read_writeBufferWord_outside s hj d

/-- Every place but CMD and STATUS, and CTRL without SRST, takes a write at its own offset alone: by the place that
stands at the offset. -/
theorem writtenAt_storeAt {mm off : Nat} {d : Word32} (s : State) (hoff : off < 0x2000) (h4 : off % 4 = 0)
    (hcmd : off ≠ 0x0010) (hsrst : ¬(off = 0x0008 ∧ d.getLsbD 1 = true)) (hstatus : off ≠ 0x000C) :
    WrittenAt off s (s.storeAt d (locate mm off)) := by
  obtain ⟨-, l⟩ | ⟨-, l⟩ | ⟨rfl, l⟩ | ⟨e, -⟩ | ⟨e, -⟩ | ⟨-, l⟩ | ⟨rfl, l⟩ | ⟨rfl, l⟩ | ⟨-, l⟩ | ⟨-, l⟩ | ⟨i, w, e, l⟩ |
    ⟨i, w, e, l⟩ | ⟨i, w, e, l⟩ | ⟨i, e, l⟩ | ⟨-, l⟩ | ⟨-, l⟩ | ⟨-, l⟩ := locate_cases mm off hoff h4
  · rw [l]; exact .refl off s
  · rw [l]; exact .refl off s
  · have hsrst : d.getLsbD 1 = false := Bool.eq_false_iff.2 fun h => hsrst ⟨rfl, h⟩
    rw [l, State.storeAt, writeCtrl_of_not_srst hsrst]
    exact .withIe s _
  · exact absurd e hstatus
  · exact absurd e hcmd
  · rw [l]; exact .refl off s
  · rw [l]; exact .withMsgLen s d
  · rw [l]; exact .withTxtLen s d
  · rw [l]; exact .refl off s
  · rw [l]; exact .refl off s
  · rw [l]; exact .writeX (by omega) _
  · rw [l]; exact .writePReg (by omega) _
  · rw [l]; exact .writePReg (by omega) _
  · rw [l]; exact .writePReg (by omega) _
  · rw [l]; exact writtenAt_writeBufferWord s off d
  · rw [l]; exact writtenAt_writeBufferWord s off d
  · rw [l]; exact .refl off s

/-- A write that is answered without an error has been stored. -/
theorem stored_of_answered {t : State} {a : Access} {d : Word32} (hkind : a.kind = .write d)
    (h : s.pending = .access a :: rest) (ht : step s = .next t) (hok : t.response = some (.write false)) :
    a.offset < 0x2000 ∧ a.offset % 4 = 0 ∧
      t = { { s with pending := rest }.storeAt d (s.target a) with response := some (.write false) } := by
  obtain ⟨hoff, ⟨-, rfl⟩ | ⟨-, hread, -⟩ | ⟨d', hacc, hkind', rfl⟩⟩ := access_cases h ht
  · rw [State.busErrorOnly, hkind] at hok; cases hok
  · rw [hkind] at hread; cases hread
  · obtain rfl : d = d' := by rw [hkind] at hkind'; injection hkind'
    exact ⟨hoff, (wellSized_of_accepted hacc).2, rfl⟩

/-- Settles O23: a read by its answer, which it does not change; a write by what stands at its offset. -/
theorem readsHaveNoSideEffect : Obligations.ReadsHaveNoSideEffect := by
  refine ⟨fun s off bytes rest h hoff => ?_, fun s t a d rest hkind h ht hok hcmd hsrst hstatus => ?_⟩
  · refine ⟨_, _, step_read_any h hoff, readAnswer_of_error, fun rest' hrest => ?_⟩
    exact (step_read_any (s := afterRead s ⟨.read, off, bytes⟩ rest) hrest hoff).trans
      (congrArg _ (afterRead_afterRead s _ rest rest'))
  · obtain ⟨hoff, h4, rfl⟩ := stored_of_answered hkind h ht hok
    have hw : WrittenAt a.offset { s with pending := rest } ({ s with pending := rest }.storeAt d (s.target a)) :=
      writtenAt_storeAt _ hoff h4 hcmd hsrst hstatus
    exact ⟨congrArg (fun u : State => { u with response := some (.write false) }) hw.only,
      hw.ie, hw.msgLen, hw.txtLen, hw.x, hw.p, hw.mem⟩

/-! ### The words of the 256-bit registers (R81) -/

/-- Word w as read is its 32 bits of the value. -/
theorem getLsbD_wordOfVal_of_lt (v : Val) (w : Fin 8) {j : Nat} (hj : j < 32) :
    (wordOfVal v w).getLsbD j = v.getLsbD (32 * w.val + j) := by
  rw [getLsbD_wordOfVal, decide_eq_true hj, Bool.true_and]

/-- Settles O25: each word's place is open while idle, holds the word's bits, and takes a write of them alone. -/
theorem wideValueWords : Obligations.WideValueWords := by
  intro s w d rest hi
  refine ⟨fun i => ⟨fun h => ?_, fun h => ?_⟩, fun i => ⟨fun h => ?_, fun h => ?_, fun h => ?_, fun h => ?_⟩⟩
  · exact ⟨_, step_read h (by omega) (by omega) (locate_xWord _ i w) (readable_of_idle hi (by simp)),
      fun _ => getLsbD_wordOfVal_of_lt _ w⟩
  · exact ⟨_, step_write h (by omega) (by omega) (locate_xWord _ i w) (writable_of_idle hi (by simp) rfl),
      fun _ => getLsbD_setWordOfVal _ w d⟩
  · exact ⟨_, step_read h (by omega) (by omega) (locate_pxWord _ i w) (readable_of_idle hi (by simp)),
      fun _ => getLsbD_wordOfVal_of_lt _ w⟩
  · exact ⟨_, step_write h (by omega) (by omega) (locate_pxWord _ i w) (writable_of_idle hi (by simp) rfl),
      fun _ => getLsbD_setWordOfVal _ w d⟩
  · exact ⟨_, step_read h (by omega) (by omega) (locate_pyWord _ i w) (readable_of_idle hi (by simp)),
      fun _ => getLsbD_wordOfVal_of_lt _ w⟩
  · exact ⟨_, step_write h (by omega) (by omega) (locate_pyWord _ i w) (writable_of_idle hi (by simp) rfl),
      fun _ => getLsbD_setWordOfVal _ w d⟩

/-! ### The words of the buffers (R82, R84) -/

/-- The four bytes of a word, the least significant first (R82). -/
def bytesOfBusWord (d : Word32) : List Byte :=
  [d.extractLsb' 0 8, d.extractLsb' 8 8, d.extractLsb' 16 8, d.extractLsb' 24 8]

theorem toNat_bytesOfBusWord (d : Word32) {k : Nat} (hk : k < 4) :
    ((bytesOfBusWord d).getD k 0#8).toNat = d.toNat / 2 ^ (8 * k) % 2 ^ 8 := by
  have hbyte : (bytesOfBusWord d).getD k 0#8 = d.extractLsb' (8 * k) 8 := by
    interval_cases k <;> rfl
  rw [hbyte, BitVec.extractLsb'_toNat, Nat.shiftRight_eq_div_pow]

theorem bufferByte_of_bufferOffset {off : Nat} (h : s.bufferOffset off) : s.bufferByte off = s.mem.read off :=
  if_pos ((inBuffers_iff s off).2 h)

theorem writeBufferByte_of_bufferOffset {off : Nat} (h : s.bufferOffset off) (m : Memory) (v : Byte) :
    { s with mem := m }.writeBufferByte off v = { s with mem := m.write off v } := if_pos ((inBuffers_iff s off).2 h)

/-- A word whose four bytes the build has is written as a run of four bytes. -/
theorem writeBufferWord_of_bufferOffset {off : Nat} (h : ∀ a, off ≤ a → a < off + 4 → s.bufferOffset a) (d : Word32) :
    s.writeBufferWord off d = { s with mem := s.mem.writeBytes off (bytesOfBusWord d) } := by
  have byte (k : Nat) (hk : k < 4) := writeBufferByte_of_bufferOffset (h (off + k) (by omega) (by omega))
  have byte0 (v : Byte) : s.writeBufferByte off v = { s with mem := s.mem.write off v } := byte 0 (by omega) s.mem v
  rw [State.writeBufferWord, byte0, byte 1 (by omega), byte 2 (by omega), byte 3 (by omega)]
  rfl

/-- A word of TXT or MSG as read, by its bytes. -/
theorem toNat_bufferWord_of_bufferOffset {off : Nat} (h : ∀ a, off ≤ a → a < off + 4 → s.bufferOffset a) :
    (s.bufferWord off).toNat = (s.mem.read off).toNat + 2 ^ 8 * (s.mem.read (off + 1)).toNat
      + 2 ^ 16 * (s.mem.read (off + 2)).toNat + 2 ^ 24 * (s.mem.read (off + 3)).toNat := by
  have byte (a : Nat) (hlo : off ≤ a) (hhi : a < off + 4) := bufferByte_of_bufferOffset (h a hlo hhi)
  rw [toNat_bufferWord, byte off (by omega) (by omega), byte (off + 1) (by omega) (by omega),
    byte (off + 2) (by omega) (by omega), byte (off + 3) (by omega) (by omega)]

/-- TXT and MSG answer alike: what stands at a buffer's offset reads, stores and opens as a buffer word. -/
theorem locate_buffer {off : Nat} (h : s.bufferOffset off) :
    ∃ l, locate s.msgMax.toNat off = l ∧ l ≠ .reserved ∧ l.isReadOnly = false ∧
      (∀ u : State, u.wordAt l = u.bufferWord off) ∧ ∀ (u : State) d, u.storeAt d l = u.writeBufferWord off d := by
  obtain htxt | hmsg := h
  · exact ⟨_, locate_txt _ htxt, by simp, rfl, fun _ => rfl, fun _ _ => rfl⟩
  · exact ⟨_, locate_msg hmsg, by simp, rfl, fun _ => rfl, fun _ _ => rfl⟩

/-- Settles O27: the word's four bytes are the buffer's, read as a number and written as a run. -/
theorem bufferWords : Obligations.BufferWords := by
  intro s off d rest hi h4 hin
  have hoff : off < 0x2000 := by omega
  have hbytes : ∀ a, off ≤ a → a < off + 4 → s.bufferOffset a := fun a hlo hhi => by unfold State.bufferOffset; omega
  obtain ⟨l, hl, hres, hro, hword, hstore⟩ := locate_buffer (hbytes off (by omega) (by omega))
  refine ⟨fun h => ?_, fun hwf h => ⟨s.mem.writeBytes off (bytesOfBusWord d), ?_, writeBytes_wf hwf off _,
    fun k hk => ?_, fun a ha => read_writeBytes_outside s.mem off _ ha⟩⟩
  · refine ⟨s.bufferWord off, ?_, toNat_bufferWord_of_bufferOffset hbytes⟩
    rw [step_read h hoff h4 hl (readable_of_idle hi hres), hword]
  · rw [step_write h hoff h4 hl (writable_of_idle hi hres hro), hstore,
      writeBufferWord_of_bufferOffset (s := { s with pending := rest }) hbytes]
  · have inside : off ≤ off + k ∧ off + k < off + (bytesOfBusWord d).length :=
      ⟨Nat.le_add_right off k, Nat.add_lt_add_left hk off⟩
    rw [read_writeBytes hwf, if_pos inside, Nat.add_sub_cancel_left, toNat_bytesOfBusWord d hk]

end Sys2Proof.Proofs
end

section
/-! SUPPORT. The command word (30_encoding.md R111 to R119): what each check of the decoder lets through, so that the
decoder inverts the encoder; what a row's match and mask ask of the word's fields; when a word is legal. -/

namespace Sys2Proof.Proofs

open Sys2Proof.Machine Sys2Proof.Laws

/-! ### What each check of the decoder lets through -/

theorem distinctDestinations_iff {a b : BitVec 4} {u : Unit} : distinctDestinations a b = .ok u ↔ a ≠ b :=
  ⟨ne_of_distinctDestinations, distinctDestinations_ok⟩

theorem pure_ok {ε α : Type} {a b : α} : (pure a : Except ε α) = .ok b ↔ a = b :=
  ⟨Except.ok.inj, congrArg Except.ok⟩

theorem exists_bind_ok {ε α β : Type} {x : Except ε α} {f : α → Except ε β} :
    (∃ b, (x >>= f) = .ok b) ↔ ∃ a, x = .ok a ∧ ∃ b, f a = .ok b := by
  simp only [bind_ok]
  exact ⟨fun ⟨b, a, hx, hf⟩ => ⟨a, hx, b, hf⟩, fun ⟨a, hx, b, hf⟩ => ⟨b, a, hx, hf⟩⟩

/-- A field names a point register when its bit 3 is 0 (R112). -/
theorem exists_eq_pField {v : BitVec 4} : (∃ r, v = pField r) ↔ v.toNat < 8 := by
  revert v
  decide

/-- A field names a constant below index 7 (R45). -/
theorem exists_eq_kField {v : BitVec 4} : (∃ k, v = kField k) ↔ v.toNat < 7 := by
  constructor
  · rintro ⟨k, rfl⟩
    cases k <;> decide
  · intro h
    exact ⟨[RomIndex.zero, .one, .p, .n, .gx, .gy, .coeffB][v.toNat], by revert v; decide⟩

/-! ### The decoder inverts the encoder -/

theorem fieldX_inj {a b : BitVec 4} : fieldX a = fieldX b ↔ a = b := BitVec.toFin_inj

theorem wellFormed_sign {a b c : XReg} : (Instr.sign a b c).WellFormed ↔ a ≠ b := bne_iff_ne

theorem wellFormed_decsig {a b : XReg} : (Instr.decsig a b).WellFormed ↔ a ≠ b := bne_iff_ne

/-- SIGN and DECSIG pass the check on destinations because they are well-formed; the others need no premise. -/
theorem decodeFields_fieldsOfInstr {i : Instr} (h : i.WellFormed) : decodeFields (fieldsOfInstr i) = .ok i := by
  cases i
  case sign a b c =>
    simpa [fieldsOfInstr, decodeFields, bind_ok, pure_ok, distinctDestinations_iff, -bind_pure_comp]
      using wellFormed_sign.1 h
  case decsig a b =>
    simpa [fieldsOfInstr, decodeFields, bind_ok, pure_ok, distinctDestinations_iff, -bind_pure_comp]
      using wellFormed_decsig.1 h
  all_goals simp [fieldsOfInstr, decodeFields, bind_ok, pure_ok]

/-- Every arm of the decoder pins each field: an operand's is read back from the command, an unused one is 0. The last
arm, of a reserved OP, reads none. -/
theorem fieldsOfInstr_of_decodeFields {f : Fields} {i : Instr} (hrsv : f.rsv = 0#11) (h : decodeFields f = .ok i) :
    fieldsOfInstr i = f ∧ i.WellFormed := by
  obtain ⟨op, a, b, c, m, rsv⟩ := f
  obtain rfl : rsv = 0#11 := hrsv
  revert h
  fun_cases decodeFields
  case case32 => exact nofun
  all_goals
    simp only [bind_ok, pure_ok, unusedField_iff, unusedM_iff, fieldP_iff, fieldK_iff, distinctDestinations_iff,
      exists_const, forall_exists_index, and_imp]
    intros
    subst_vars
    simp [fieldsOfInstr, Instr.WellFormed, Instr.wellFormed, fieldX_inj, *]

theorem decode_of_rsv {w : Word32} (h : w.extractLsb' 21 11 = 0#11) : decode w = decodeFields (fieldsOfWord w) :=
  if_pos h

theorem decode_of_rsv_ne {w : Word32} (h : w.extractLsb' 21 11 ≠ 0#11) : decode w = .error .reservedBits := if_neg h

theorem fieldsOfInstr_rsv (i : Instr) : (fieldsOfInstr i).rsv = 0#11 := by cases i <;> rfl

/-- Settles O1: unpacking the packed word gives the command's fields, which the decoder reads back. -/
theorem decodeOfEncode : Obligations.DecodeOfEncode := by
  intro i hi
  have hfields : fieldsOfWord (encode i) = fieldsOfInstr i := fieldsOfWord_wordOfFields _
  have hrsv : (encode i).extractLsb' 21 11 = 0#11 := by rw [extract_rsv, hfields, fieldsOfInstr_rsv]
  rw [decode_of_rsv hrsv, hfields, decodeFields_fieldsOfInstr hi]

/-- Settles O2: the command read from a word's fields has those fields, and packing them gives the word. -/
theorem encodeOfDecode : Obligations.EncodeOfDecode := by
  intro w i h
  by_cases hrsv : w.extractLsb' 21 11 = 0#11
  · rw [decode_of_rsv hrsv] at h
    obtain ⟨hfields, hwf⟩ := fieldsOfInstr_of_decodeFields hrsv h
    exact ⟨by rw [encode, hfields, wordOfFields_fieldsOfWord], hwf⟩
  · rw [decode_of_rsv_ne hrsv] at h
    cases h

/-! ### The word as a number (R111) -/

theorem toNat_append_eq_add {m n : Nat} (x : BitVec m) (y : BitVec n) :
    (x ++ y).toNat = x.toNat * 2 ^ n + y.toNat := by
  rw [BitVec.toNat_append, ← Nat.shiftLeft_add_eq_or_of_lt y.isLt, Nat.shiftLeft_eq]

theorem toNat_wordOfFields (f : Fields) :
    (wordOfFields f).toNat = f.op.toNat + f.a.toNat * 2 ^ 8 + f.b.toNat * 2 ^ 12 + f.c.toNat * 2 ^ 16
      + f.m.toNat * 2 ^ 20 + f.rsv.toNat * 2 ^ 21 := by
  simp only [wordOfFields, toNat_append_eq_add]
  ring

theorem toNat_xField (r : XReg) : (xField r).toNat = r := rfl

theorem toNat_pField (r : PReg) : (pField r).toNat = r := by
  simp only [pField, BitVec.toNat_ofNat]
  omega

theorem toNat_kField (k : RomIndex) :
    (kField k).toNat = [RomIndex.zero, .one, .p, .n, .gx, .gy, .coeffB].idxOf k := by
  cases k <;> rfl

theorem toNat_modulusBit (m : Modulus) : (modulusBit m).toNat = if m = .n then 1 else 0 := by
  cases m <;> rfl

theorem toNat_sourceBit (h : HashSource) : (sourceBit h).toNat = if h = .txt then 1 else 0 := by
  cases h <;> rfl

/-- Settles O3: the packed word is the weighted sum of its fields, and each operand's field is its number. -/
theorem encodingFormula : Obligations.EncodingFormula := by
  intro a b c q r t m h k
  simp only [encode, toNat_wordOfFields, fieldsOfInstr, toNat_xField, toNat_pField, toNat_kField, toNat_modulusBit,
    toNat_sourceBit, BitVec.reduceToNat, ite_mul, one_mul, zero_mul, add_zero, and_self]

/-! ### Match and mask (R117) -/

/-- What a row's match and mask ask of the operand fields: unused ones and an unused M are 0, point fields below 8. -/
def RowPattern (r : OpRow) (f : Fields) : Prop :=
  (r.a = .unused → f.a = 0#4) ∧ (r.b = .unused → f.b = 0#4) ∧ (r.c = .unused → f.c = 0#4) ∧
    (r.usesM = false → f.m = 0#1) ∧
    (r.a = .p → f.a.toNat < 8) ∧ (r.b = .p → f.b.toNat < 8) ∧ (r.c = .p → f.c.toNat < 8)

theorem and_classMask_eq_zero_iff {cls : OperandClass} {v : BitVec 4} :
    v &&& classMask cls = 0#4 ↔ (cls = .unused → v = 0#4) ∧ (cls = .p → v.toNat < 8) := by
  cases cls with
  | x | k => simp [classMask]
  | p => revert v; decide
  | unused => revert v; decide

theorem and_mBitMask_eq_zero_iff {usesM : Bool} {m : BitVec 1} :
    (m &&& if usesM then 0#1 else 1#1) = 0#1 ↔ (usesM = false → m = 0#1) := by
  revert usesM m
  decide

theorem and_mask_eq_matchValue_iff (w : Word32) (r : OpRow) :
    w &&& r.mask = r.matchValue ↔
      w.extractLsb' 0 8 = r.op ∧ w.extractLsb' 21 11 = 0#11 ∧ RowPattern r (fieldsOfWord w) := by
  have hop : w.extractLsb' 0 8 &&& 0xFF#8 = w.extractLsb' 0 8 := BitVec.and_allOnes
  have hrsv : w.extractLsb' 21 11 &&& 0x7FF#11 = w.extractLsb' 21 11 := BitVec.and_allOnes
  have hfields : w &&& r.mask = r.matchValue ↔
      (⟨w.extractLsb' 0 8 &&& 0xFF#8, w.extractLsb' 8 4 &&& classMask r.a, w.extractLsb' 12 4 &&& classMask r.b,
        w.extractLsb' 16 4 &&& classMask r.c, w.extractLsb' 20 1 &&& if r.usesM then 0#1 else 1#1,
        w.extractLsb' 21 11 &&& 0x7FF#11⟩ : Fields) = ⟨r.op, 0#4, 0#4, 0#4, 0#1, 0#11⟩ := by
    conv_lhs => rw [← wordOfFields_fieldsOfWord w, OpRow.mask, wordOfFields_and]
    exact ⟨wordOfFields_injective, congrArg wordOfFields⟩
  rw [hfields, hop, hrsv]
  simp only [Fields.mk.injEq, and_classMask_eq_zero_iff, and_mBitMask_eq_zero_iff, RowPattern, fieldsOfWord]
  exact ⟨fun ⟨hop, ⟨ha, ha'⟩, ⟨hb, hb'⟩, ⟨hc, hc'⟩, hm, hrsv⟩ => ⟨hop, hrsv, ha, hb, hc, hm, ha', hb', hc'⟩,
    fun ⟨hop, hrsv, ha, hb, hc, hm, ha', hb', hc'⟩ => ⟨hop, ⟨ha, ha'⟩, ⟨hb, hb'⟩, ⟨hc, hc'⟩, hm, hrsv⟩⟩

/-! ### The rows of the table (R116) -/

theorem opRow?_op {r : OpRow} (h : r ∈ opcodeTable) : opRow? r.op = some r := by
  revert r
  decide

theorem mem_opcodeTable {op : BitVec 8} {r : OpRow} (h : opRow? op = some r) : r ∈ opcodeTable ∧ r.op = op := by
  unfold opRow? at h
  exact ⟨List.mem_of_find?_eq_some h, by simpa using List.find?_some h⟩

/-- Settles O5: the mask splits field by field, and OP names the row. -/
theorem rowsByMatchAndMask : Obligations.RowsByMatchAndMask := by
  refine ⟨fun w r _ => and_mask_eq_matchValue_iff w r, fun w r hr r' hr' h h' => ?_⟩
  obtain ⟨hop, -, -⟩ := (and_mask_eq_matchValue_iff w r).1 h
  obtain ⟨hop', -, -⟩ := (and_mask_eq_matchValue_iff w r').1 h'
  have hrow : some r = some r' := by rw [← opRow?_op hr, ← opRow?_op hr', ← hop, ← hop']
  exact Option.some.inj hrow

/-- The ten ranges of OP that R118 reserves. -/
def ReservedOp (op : Nat) : Prop :=
  (0x01 ≤ op ∧ op ≤ 0x0F) ∨ (0x15 ≤ op ∧ op ≤ 0x1F) ∨ (0x28 ≤ op ∧ op ≤ 0x2F) ∨ (0x33 ≤ op ∧ op ≤ 0x37) ∨
    (0x39 ≤ op ∧ op ≤ 0x3F) ∨ (0x41 ≤ op ∧ op ≤ 0x4F) ∨ (0x51 ≤ op ∧ op ≤ 0x5F) ∨ (0x64 ≤ op ∧ op ≤ 0x67) ∨
    (0x6C ≤ op ∧ op ≤ 0x6F) ∨ (0x73 ≤ op ∧ op ≤ 0xFF)

/-- OP has 256 values: each is looked up. -/
theorem opRow?_eq_none_iff : ∀ op : BitVec 8, opRow? op = none ↔ ReservedOp op.toNat := by
  unfold ReservedOp
  decide

/-! ### When a word decodes (R119) -/

/-- The values a field of a class takes (R112). -/
def Admits : OperandClass → BitVec 4 → Prop
  | .x, _ => True
  | .p, v => v.toNat < 8
  | .k, v => v.toNat < 7
  | .unused, v => v = 0#4

/-- The row of a command with two destinations in one register file (R114). -/
def TwoDestinations (r : OpRow) : Prop := r.mnemonic = "SIGN" ∨ r.mnemonic = "DECSIG"

/-- The fields are those of a command of the row, in the order in which the decoder looks at them. -/
def RowFits (r : OpRow) (f : Fields) : Prop :=
  Admits r.a f.a ∧ Admits r.b f.b ∧ Admits r.c f.c ∧ (r.usesM = false → f.m = 0#1) ∧ (TwoDestinations r → f.a ≠ f.b)

theorem exists_row_iff {op : BitVec 8} {r : OpRow} (h : opRow? op = some r) {P : OpRow → Prop} :
    (∃ r', opRow? op = some r' ∧ P r') ↔ P r := by
  simp [h]

/-- Arm by arm: the decoder's checks are the conditions of the arm's row; the last arm's OP has no row. -/
theorem exists_decodeFields_iff {f : Fields} :
    (∃ i, decodeFields f = .ok i) ↔ ∃ r, opRow? f.op = some r ∧ RowFits r f := by
  fun_cases decodeFields f
  case case32 =>
    have hnone : opRow? f.op = none := by
      refine List.find?_eq_none.2 ?_
      simp only [opcodeTable, List.cons_append, List.nil_append, List.forall_mem_cons, List.not_mem_nil,
        false_implies, implies_true, and_true, beq_iff_eq, eq_comm (b := f.op)]
      and_intros <;> assumption
    simp [hnone]
  all_goals
    rename f.op = _ => hop
    rw [hop]
    simp [opRow?, opcodeTable, exists_bind_ok, pure_ok, unusedField_iff, unusedM_iff, fieldP_iff, fieldK_iff,
      distinctDestinations_iff, exists_eq_pField, exists_eq_kField, RowFits, Admits, TwoDestinations, -bind_pure_comp]

/-- The word has RSV 0 and a row which its fields fit. -/
def WordFits (w : Word32) : Prop :=
  w.extractLsb' 21 11 = 0#11 ∧ ∃ r, opRow? (w.extractLsb' 0 8) = some r ∧ RowFits r (fieldsOfWord w)

theorem exists_decode_iff {w : Word32} : (∃ i, decode w = .ok i) ↔ WordFits w := by
  unfold WordFits
  by_cases hrsv : w.extractLsb' 21 11 = 0#11
  · rw [decode_of_rsv hrsv, exists_decodeFields_iff, and_iff_right hrsv]
    rfl
  · simp [decode_of_rsv_ne hrsv, hrsv]

theorem admits_iff {cls : OperandClass} {v : BitVec 4} :
    Admits cls v ↔ (cls = .unused → v = 0#4) ∧ (cls = .p → v.toNat < 8) ∧ (cls = .k → v.toNat < 7) := by
  cases cls <;> simp [Admits]

/-- Only B of LDC is a constant's index (R116). -/
theorem romField_iff {r : OpRow} (h : r ∈ opcodeTable) :
    r.a ≠ .k ∧ r.c ≠ .k ∧ (r.b = .k ↔ r.mnemonic = "LDC") := by
  revert r
  decide

/-- The rows that R119 names by OP are those it names by mnemonic. -/
theorem op_iff_mnemonic {r : OpRow} (h : r ∈ opcodeTable) :
    (r.op = 0x21#8 ↔ r.mnemonic = "LDC") ∧ (r.op = 0x71#8 ∨ r.op = 0x6B#8 ↔ TwoDestinations r) := by
  unfold TwoDestinations
  revert r
  decide

/-- Beyond match and mask a command asks for LDC's index and for two destinations (R119). -/
theorem rowFits_iff {r : OpRow} (h : r ∈ opcodeTable) {f : Fields} :
    RowFits r f ↔
      RowPattern r f ∧ (r.mnemonic = "LDC" → f.b.toNat < 7) ∧ (TwoDestinations r → f.a ≠ f.b) := by
  obtain ⟨ha, hc, hb⟩ := romField_iff h
  simp only [RowFits, RowPattern, admits_iff, ← hb, ha, hc, false_implies, and_true]
  exact ⟨fun ⟨⟨ha, ha'⟩, ⟨hb, hb', hk⟩, ⟨hc, hc'⟩, hm, hd⟩ => ⟨⟨ha, hb, hc, hm, ha', hb', hc'⟩, hk, hd⟩,
    fun ⟨⟨ha, hb, hc, hm, ha', hb', hc'⟩, hk, hd⟩ => ⟨⟨ha, ha'⟩, ⟨hb, hb', hk⟩, ⟨hc, hc'⟩, hm, hd⟩⟩

/-- R119's legal(w): match and mask ask for the row's pattern, the two checks after them for the rest. -/
theorem legalByTable_iff {w : Word32} : legalByTable w = true ↔ WordFits w := by
  unfold legalByTable WordFits
  split
  next hnone => simp [hnone]
  next r hrow =>
    obtain ⟨hmem, hop⟩ := mem_opcodeTable hrow
    obtain ⟨hldc, hdest⟩ := op_iff_mnemonic hmem
    have hule : (w.extractLsb' 12 4).ule 6#4 = true ↔ (w.extractLsb' 12 4).toNat < 7 := by
      simp [BitVec.ule, Nat.lt_succ_iff]
    rw [exists_row_iff hrow, rowFits_iff hmem, ← hldc, ← hdest]
    simp only [Bool.and_eq_true, Bool.or_eq_true, beq_iff_eq, bne_iff_ne, and_mask_eq_matchValue_iff, hop, hule,
      fieldsOfWord, ne_eq, imp_iff_not_or, not_or, true_and, and_assoc, and_self_left]

/-! ### Illegal words -/

theorem exists_error_iff {ε α : Type} {x : Except ε α} : (∃ e, x = .error e) ↔ ¬∃ a, x = .ok a := by
  cases x <;> simp

/-- An illegal word completes with its code where the engine's turn comes with none laid down (R119). -/
theorem step_unscheduled_illegal {s : State} {e : Illegal} (h : s.pending = []) (hb : s.phase = .busy)
    (he : decode s.cmd = .error e) : step s = .next (s.completedOnly 0x01#8) := by
  simp only [step, stepBy, h, engineStepBy, hb, engineTurnBy, State.fetch, he]
  rfl

/-- Settles O4: the reserved ranges; the decoder and legal(w) by the row the fields fit; the engine's turn. -/
theorem illegalWords : Obligations.IllegalWords := by
  intro w
  have hlegal : legalByTable w = true ↔ ∃ i, decode w = .ok i := legalByTable_iff.trans exists_decode_iff.symm
  refine ⟨opRow?_eq_none_iff _, ?_, hlegal, fun hfalse s hbusy hcmd => ?_⟩
  · rw [exists_error_iff, exists_decode_iff, WordFits, not_iff_comm]
    cases hrow : opRow? (w.extractLsb' 0 8) with
    | none => simp
    | some r =>
      simp only [Option.some.injEq, exists_eq_left', rowFits_iff (mem_opcodeTable hrow).1, RowPattern, TwoDestinations,
        fieldsOfWord, not_or, not_and, ne_eq, not_not, not_le, reduceCtorEq, not_false_eq_true, true_and, and_assoc]
  · obtain ⟨e, he⟩ : ∃ e, decode s.cmd = .error e := by
      rw [hcmd, exists_error_iff, ← hlegal, hfalse]
      exact Bool.false_ne_true
    exact ⟨fun h => step_unscheduled_illegal h hbusy he, fun rest h => step_engine_illegal h hbusy he⟩

/-- Settles O6: each word is decoded. -/
theorem specWords : Obligations.SpecWords :=
  ⟨rfl, rfl, rfl, rfl, rfl, rfl, rfl, rfl, rfl, rfl, rfl, rfl, rfl, rfl, rfl, rfl⟩

end Sys2Proof.Proofs
end

section
/-! SUPPORT. The field commands (40_field.md R140 to R145): each result is the residue its rule names, or the inverse. -/

namespace Sys2Proof.Proofs

open Sys2Proof.Machine Sys2Proof.Laws

/-- A residue fits the register it is written to. -/
theorem toNat_toVal_residue (z : Int) (m : Modulus) :
    (toVal (residue z (modulusValue m))).toNat = residue z (modulusValue m) :=
  toNat_toVal ((residue_lt z (modulus_pos m)).trans (modulus_lt m))

/-- The residue of a difference over the integers is the number that, with y added, is congruent to x (R142). -/
theorem residue_sub_add_mod (x y : Nat) {m : Nat} (h : 0 < m) : (residue ((x : Int) - y) m + y) % m = x % m := by
  rw [← Nat.ModEq, ← ZMod.natCast_eq_natCast_iff, Nat.cast_add, residue_zmod _ h]
  push_cast
  exact sub_add_cancel _ _

/-- Settles O33: each command is `finish` of the residue of its rule's integer, written to X[A]. -/
theorem fieldResults : Obligations.FieldResults := by
  intro s a b c m
  refine ⟨⟨_, ?_, finish_ok s _⟩, ⟨_, ?_, ?_, finish_ok s _⟩, ⟨_, ?_, finish_ok s _⟩, ⟨_, ?_, finish_ok s _⟩⟩
  · rw [toNat_toVal_residue, ← Nat.cast_add, residue_natCast]
  · rw [toNat_toVal_residue]
    exact residue_lt _ (modulus_pos m)
  · rw [toNat_toVal_residue]
    exact residue_sub_add_mod _ _ (modulus_pos m)
  · rw [toNat_toVal_residue, ← Nat.cast_mul, residue_natCast]
  · rw [toNat_toVal_residue, residue_natCast]

/-- MINV of a multiple of the modulus (R145). -/
theorem exec_minv_of_mod_eq_zero {s : State} {b : XReg} {m : Modulus} (h : (s.readX b).toNat % modulusValue m = 0)
    (a : XReg) : exec (.minv a b m) s = .next (s.completedOnly 0x20#8) :=
  congrArg (finish s) (if_pos h)

/-- MINV of any other value (R145). -/
theorem exec_minv_of_mod_ne_zero {s : State} {b : XReg} {m : Modulus} (h : (s.readX b).toNat % modulusValue m ≠ 0)
    (a : XReg) : exec (.minv a b m) s =
      .next ((s.writeX a (toVal (invMod (modulusValue m) (s.readX b).toNat))).completedOnly 0x00#8) :=
  congrArg (finish s) (if_neg h)

/-- Settles O34: the inverse of `invMod_modulus` where there is one, NO_INVERSE where there is none. -/
theorem inverseResult : Obligations.InverseResult := by
  refine fun s a b m => ⟨fun h => ?_, fun h => exec_minv_of_mod_eq_zero h a⟩
  obtain ⟨hone, hpos, hlt⟩ := invMod_modulus m h
  refine ⟨_, ?_, ?_, ?_, exec_minv_of_mod_ne_zero h a⟩ <;> rw [toNat_toVal (hlt.trans (modulus_lt m))]
  exacts [hpos, hlt, hone]

end Sys2Proof.Proofs
end

section
/-! SUPPORT. The reference reductions (40_field.md R147 to R149) are exact: the constants of R149, then Barrett reduction
and Montgomery reduction by the sizes and the congruences of their quotients. -/

namespace Sys2Proof.Proofs

open Sys2Proof.Machine Sys2Proof.Laws

/-! ### The constants (R149) -/

theorem montRSquared_eq (m : Modulus) : montRSquared m = montR ^ 2 % modulusValue m := by
  cases m <;> decide +kernel

theorem montNegInv_lt (m : Modulus) : montNegInv m < montR := by
  cases m <;> decide +kernel

theorem montNegInv_mul_add_one (m : Modulus) : (montNegInv m * modulusValue m + 1) % montR = 0 := by
  cases m <;> decide +kernel

theorem barrettMu_eq (m : Modulus) : barrettMu m = 2 ^ 512 / modulusValue m := by
  cases m <;> decide +kernel

/-- The folding congruence of R149 for any r congruent to 2^256. -/
theorem fold_mod {m r : Nat} (hr : 2 ^ 256 % m = r % m) (h l : Nat) : (h * 2 ^ 256 + l) % m = (h * r + l) % m :=
  Nat.ModEq.add_right l (Nat.ModEq.mul_left h hr)

/-- Settles O37: the constants by computation, the folding congruence from the first of them. -/
theorem reductionConstants : Obligations.ReductionConstants :=
  ⟨by decide +kernel, by decide +kernel,
    fun m => ⟨montRSquared_eq m, montNegInv_lt m, montNegInv_mul_add_one m, barrettMu_eq m⟩,
    by decide +kernel, by decide +kernel, fold_mod (by decide +kernel)⟩

/-! ### The conditional subtraction of both reductions -/

/-- Subtract the modulus once where it fits. -/
def subOnce (m r : Nat) : Nat := if r ≥ m then r - m else r

theorem subOnce_lt {m r k : Nat} (h : r < (k + 1) * m) (hk : 0 < k) : subOnce m r < k * m := by
  have hle : m ≤ k * m := Nat.le_mul_of_pos_left m hk
  rw [Nat.succ_mul] at h
  unfold subOnce
  split <;> omega

theorem subOnce_mod (m r : Nat) : subOnce m r % m = r % m := by
  unfold subOnce
  split
  case isTrue h => exact (Nat.mod_eq_sub_mod h).symm
  case isFalse => rfl

/-! ### Barrett reduction (R148) -/

/-- Barrett's quotient is at most two below the exact one: with C·h + l the number, e the error of mu = (C·A - e) / m and g
what the last shift drops, A times what it leaves is A·l + h·e + m·g, and each of the three is below A·m. -/
theorem barrett_rest_lt {A C m mu h l e q g : Nat} (hmu : C * A = m * mu + e) (hq : h * mu = A * q + g) (hh : h < A)
    (hl : l < C) (hC : C < m) (he : e < m) (hg : g < A) : ∃ r, C * h + l = q * m + r ∧ r < 3 * m := by
  have hA : 0 < A := Nat.zero_lt_of_lt hh
  have hsum : A * (C * h + l) = A * (q * m) + (A * l + h * e + m * g) := by
    calc A * (C * h + l) = h * (C * A) + A * l := by ring
      _ = m * (h * mu) + h * e + A * l := by rw [hmu]; ring
      _ = A * (q * m) + (A * l + h * e + m * g) := by rw [hq]; ring
  obtain ⟨r, hr⟩ := Nat.exists_eq_add_of_le
    (Nat.le_of_mul_le_mul_left (hsum ▸ Nat.le_add_right (A * (q * m)) _) hA : q * m ≤ C * h + l)
  refine ⟨r, hr, Nat.lt_of_mul_lt_mul_left (a := A) ?_⟩
  rw [hr, Nat.mul_add] at hsum
  calc A * r = A * l + h * e + m * g := Nat.add_left_cancel hsum
    _ < A * m + A * m + m * A := Nat.add_lt_add (Nat.add_lt_add (Nat.mul_lt_mul_of_pos_left (hl.trans hC) hA)
      (Nat.mul_lt_mul'' hh he)) (Nat.mul_lt_mul_of_pos_left hg (Nat.zero_lt_of_lt he))
    _ = A * (3 * m) := by ring

/-- Barrett's estimate of the quotient (R148). -/
def barrettQuotient (m : Modulus) (x : Nat) : Nat := ((x >>> 255) * barrettMu m) >>> 257

theorem barrettQuotient_eq_div (m : Modulus) (x : Nat) :
    barrettQuotient m x = x / 2 ^ 255 * barrettMu m / 2 ^ 257 := by
  -- for every k, so that the power of the library's lemma is matched without evaluating 2 ^ 257
  have shift (y k : Nat) : y >>> k = y / 2 ^ k := Nat.shiftRight_eq_div_pow y k
  rw [barrettQuotient, shift, shift]

theorem barrett_eq (m : Modulus) (x : Nat) : barrett m x =
    subOnce (modulusValue m) (subOnce (modulusValue m)
      (residue ((x : Int) - barrettQuotient m x * modulusValue m) (2 ^ 258))) := rfl

theorem barrettQuotient_rest {x : Nat} (m : Modulus) (hx : x < 2 ^ 512) :
    ∃ r, x = barrettQuotient m x * modulusValue m + r ∧ r < 3 * modulusValue m := by
  have hsplit : 2 ^ 255 * 2 ^ 257 = 2 ^ 512 := by rw [← pow_add]
  have hmu : 2 ^ 255 * 2 ^ 257 = modulusValue m * barrettMu m + 2 ^ 512 % modulusValue m := by
    rw [barrettMu_eq, Nat.div_add_mod, hsplit]
  have hh : x / 2 ^ 255 < 2 ^ 257 := Nat.div_lt_of_lt_mul (hx.trans_eq hsplit.symm)
  have hrest := barrett_rest_lt hmu (Nat.div_add_mod _ _).symm hh (Nat.mod_lt x (by positivity)) (modulus_gt m)
    (Nat.mod_lt _ (modulus_pos m)) (Nat.mod_lt _ (by positivity))
  rwa [Nat.div_add_mod, ← barrettQuotient_eq_div] at hrest

/-- Settles O35: what the quotient leaves is below 3·m, so it fits the 258 bits and two subtractions bring it below m. -/
theorem barrettIsExact : Obligations.BarrettIsExact := by
  intro m x hx
  obtain ⟨r, hr, hlt⟩ := barrettQuotient_rest m hx
  have hfit : r < 2 ^ 258 := by have := modulus_lt m; omega
  have hres : residue ((x : Int) - barrettQuotient m x * modulusValue m) (2 ^ 258) = r := by
    rw [← Nat.mod_eq_of_lt hfit, ← residue_natCast]
    congr 1
    omega
  have hfin := subOnce_lt (k := 1) (subOnce_lt hlt two_pos) one_pos
  rw [one_mul] at hfin
  rw [barrett_eq, hres, ← Nat.mod_eq_of_lt hfin, subOnce_mod, subOnce_mod, ← Nat.mul_add_mod', ← hr]

/-! ### Montgomery reduction (R148) -/

/-- Adding u·m for R148's u makes t a multiple of R, where m' is the negative inverse of m modulo R. -/
theorem dvd_add_montU {R m m' : Nat} (h : (m' * m + 1) % R = 0) (t : Nat) : R ∣ t + t % R * m' % R * m := by
  apply Nat.dvd_of_mod_eq_zero
  calc (t + t % R * m' % R * m) % R = (t + t * m' * m) % R :=
        Nat.ModEq.add_left t (((Nat.mod_modEq _ _).trans ((Nat.mod_modEq t R).mul_right m')).mul_right m)
    _ = t * (m' * m + 1) % R := by ring_nf
    _ = 0 := by rw [Nat.mul_mod, h, Nat.mul_zero, Nat.zero_mod]

/-- REDC's quotient before its conditional subtraction (R148). -/
def redcQuotient (m : Modulus) (t : Nat) : Nat := (t + t % montR * montNegInv m % montR * modulusValue m) / montR

theorem redc_eq (m : Modulus) (t : Nat) : redc m t = subOnce (modulusValue m) (redcQuotient m t) := rfl

theorem redcQuotient_mul (m : Modulus) (t : Nat) :
    redcQuotient m t * montR = t + t % montR * montNegInv m % montR * modulusValue m :=
  Nat.div_mul_cancel (dvd_add_montU (montNegInv_mul_add_one m) t)

theorem montR_pos : 0 < montR := Nat.two_pow_pos 256

theorem redc_lt {t : Nat} (m : Modulus) (ht : t < modulusValue m * montR) : redc m t < modulusValue m := by
  have hq : redcQuotient m t < 2 * modulusValue m := by
    refine Nat.lt_of_mul_lt_mul_right (a := montR) ?_
    calc redcQuotient m t * montR = t + t % montR * montNegInv m % montR * modulusValue m := redcQuotient_mul m t
      _ < modulusValue m * montR + montR * modulusValue m :=
        Nat.add_lt_add ht (Nat.mul_lt_mul_of_pos_right (Nat.mod_lt _ montR_pos) (modulus_pos m))
      _ = 2 * modulusValue m * montR := by ring
  have h := subOnce_lt (k := 1) hq one_pos
  rwa [one_mul] at h

theorem redc_mul_modEq (m : Modulus) (t : Nat) : redc m t * montR ≡ t [MOD modulusValue m] :=
  calc redc m t * montR ≡ redcQuotient m t * montR [MOD modulusValue m] := Nat.ModEq.mul_right _ (subOnce_mod _ _)
    _ = t + t % montR * montNegInv m % montR * modulusValue m := redcQuotient_mul m t
    _ ≡ t [MOD modulusValue m] := by simp [Nat.ModEq]

/-! ### Montgomery multiplication (R148) -/

theorem coprime_montR (m : Modulus) : (modulusValue m).Coprime montR :=
  Nat.Coprime.pow_right 256 (by cases m <;> decide +kernel)

/-- The Montgomery form of a. -/
theorem redc_toMont_modEq (m : Modulus) (a : Nat) :
    redc m (a % modulusValue m * montRSquared m) ≡ a * montR [MOD modulusValue m] := by
  refine Nat.ModEq.cancel_right_of_coprime (coprime_montR m) ?_
  calc redc m (a % modulusValue m * montRSquared m) * montR
      ≡ a % modulusValue m * montRSquared m [MOD modulusValue m] := redc_mul_modEq m _
    _ ≡ a * montR ^ 2 [MOD modulusValue m] := by
      rw [montRSquared_eq]
      exact (Nat.mod_modEq _ _).mul (Nat.mod_modEq _ _)
    _ = a * montR * montR := by ring

/-- REDC of the product of two Montgomery forms is the Montgomery form of the product. -/
theorem redc_mul_forms_modEq {m : Modulus} {a b a' b' : Nat} (ha : a' ≡ a * montR [MOD modulusValue m])
    (hb : b' ≡ b * montR [MOD modulusValue m]) : redc m (a' * b') ≡ a * b * montR [MOD modulusValue m] := by
  refine Nat.ModEq.cancel_right_of_coprime (coprime_montR m) ?_
  calc redc m (a' * b') * montR ≡ a' * b' [MOD modulusValue m] := redc_mul_modEq m _
    _ ≡ a * montR * (b * montR) [MOD modulusValue m] := ha.mul hb
    _ = a * b * montR * montR := by ring

theorem montgomeryMul_modEq (m : Modulus) (a b : Nat) : montgomeryMul m a b ≡ a * b [MOD modulusValue m] :=
  Nat.ModEq.cancel_right_of_coprime (coprime_montR m)
    ((redc_mul_modEq m _).trans (redc_mul_forms_modEq (redc_toMont_modEq m a) (redc_toMont_modEq m b)))

/-- A product of two residues is in REDC's domain. -/
theorem mul_lt_redc_domain {m : Modulus} {a b : Nat} (ha : a < modulusValue m) (hb : b < modulusValue m) :
    a * b < modulusValue m * montR := Nat.mul_lt_mul'' ha (hb.trans (modulus_lt m))

theorem montRSquared_lt (m : Modulus) : montRSquared m < modulusValue m := by
  rw [montRSquared_eq]
  exact Nat.mod_lt _ (modulus_pos m)

theorem montgomeryMul_lt (m : Modulus) (a b : Nat) : montgomeryMul m a b < modulusValue m := by
  have form_lt (c : Nat) : redc m (c % modulusValue m * montRSquared m) < modulusValue m :=
    redc_lt m (mul_lt_redc_domain (Nat.mod_lt c (modulus_pos m)) (montRSquared_lt m))
  have product_lt := redc_lt m (mul_lt_redc_domain (form_lt a) (form_lt b))
  exact redc_lt m (product_lt.trans_le (Nat.le_mul_of_pos_right _ montR_pos))

/-- Settles O36: REDC by its range and its congruence, the product by both for each of its four uses of REDC. -/
theorem montgomeryIsExact : Obligations.MontgomeryIsExact :=
  ⟨fun m t ht => ⟨redc_lt m ht, redc_mul_modEq m t⟩,
    fun m a b => (Nat.mod_eq_of_lt (montgomeryMul_lt m a b)).symm.trans (montgomeryMul_modEq m a b)⟩

end Sys2Proof.Proofs
end

section
/-! SUPPORT. The commands that read a coordinate (41_transfer.md R177, R178), by the tag of the register they read (R41). -/

namespace Sys2Proof.Proofs

open Sys2Proof.Machine Sys2Proof.Laws

theorem readP_of_inf_true {s : State} {i : PReg} (h : (s.readPReg i).inf = true) : s.readP i = .inf := if_pos h

theorem readP_of_inf_false {s : State} {i : PReg} (h : (s.readPReg i).inf = false) :
    s.readP i = .aff (s.readPReg i).x (s.readPReg i).y := if_neg (ne_true_of_eq_false h)

/-- PGETX of an affine point (R177). -/
theorem exec_pgetx_of_aff {s : State} {b : PReg} {x y : Val} (h : s.readP b = .aff x y) (a : XReg) :
    exec (.pgetx a b) s = .next ((s.writeX a x).completedOnly 0x00#8) := by
  rw [exec, execPgetx, h]; exact finish_ok s _

/-- PGETY of an affine point (R178). -/
theorem exec_pgety_of_aff {s : State} {b : PReg} {x y : Val} (h : s.readP b = .aff x y) (a : XReg) :
    exec (.pgety a b) s = .next ((s.writeX a y).completedOnly 0x00#8) := by
  rw [exec, execPgety, h]; exact finish_ok s _

/-- PGETX of the point at infinity (R177). -/
theorem exec_pgetx_of_inf {s : State} {b : PReg} (h : s.readP b = .inf) (a : XReg) :
    exec (.pgetx a b) s = .next (s.completedOnly 0x23#8) := by
  rw [exec, execPgetx, h]; exact finish_error s .infinity

/-- PGETY of the point at infinity (R178). -/
theorem exec_pgety_of_inf {s : State} {b : PReg} (h : s.readP b = .inf) (a : XReg) :
    exec (.pgety a b) s = .next (s.completedOnly 0x23#8) := by
  rw [exec, execPgety, h]; exact finish_error s .infinity

/-- Settles O39: the tag says which value the register stands for, and each command matches on that value. -/
theorem coordinateReads : Obligations.CoordinateReads := by
  refine fun s a q => ⟨fun htag => ?_, fun htag => ?_⟩
  · have haff := readP_of_inf_false htag
    exact ⟨exec_pgetx_of_aff haff a, exec_pgety_of_aff haff a⟩
  · have hinf := readP_of_inf_true htag
    exact ⟨exec_pgetx_of_inf hinf a, exec_pgety_of_inf hinf a⟩

end Sys2Proof.Proofs
end

section
/-! SUPPORT. The point addition (42_point.md R201 to R207): the equation of `add` in each of its cases, the slope of each
line by its congruence, and the group law on valid points. -/

namespace Sys2Proof.Proofs

open Sys2Proof.Machine Sys2Proof.Laws

/-! ### `add`, case by case (R201, R202) -/

@[simp] theorem outOfField_inf : Point.inf.outOfField = false := rfl

theorem outOfField_aff {x y : Val} (hx : x.toNat < Config.p) (hy : y.toNat < Config.p) :
    (Point.aff x y).outOfField = false := by
  simp [Point.outOfField, hx, hy]

theorem pointAdd_of_outOfField {u v : Point} (h : u.outOfField = true ∨ v.outOfField = true) :
    pointAdd u v = .error .badPoint := if_pos (Bool.or_eq_true_iff.2 h)

theorem pointAdd_inf_left {v : Point} (h : v.outOfField = false) : pointAdd .inf v = .ok v := by
  simp [pointAdd, h]

theorem pointAdd_inf_right {u : Point} (h : u.outOfField = false) : pointAdd u .inf = .ok u := by
  cases u <;> simp [pointAdd, h]

/-- The slope of the tangent at (x, y) (R201). -/
def tangentSlope (x y : Nat) : Nat := residue (3 * (x : Int) ^ 2 * invMod Config.p (2 * y)) Config.p

/-- The slope of the line through two points of different abscissas (R201). -/
def secantSlope (x1 y1 x2 y2 : Nat) : Nat :=
  residue (((y2 : Int) - y1) * invMod Config.p (residue ((x2 : Int) - x1) Config.p)) Config.p

section Affine

variable {x1 y1 x2 y2 : Val}

theorem pointAdd_self_of_zero (hx : x1.toNat < Config.p) (hy : y1.toNat = 0) :
    pointAdd (.aff x1 y1) (.aff x1 y1) = .error .noInverse := by
  have inField : (Point.aff x1 y1).outOfField = false := outOfField_aff hx (hy ▸ p_prime.pos)
  simp [pointAdd, inField, hy]

theorem pointAdd_self (hx : x1.toNat < Config.p) (hy : y1.toNat < Config.p) (hy0 : y1.toNat ≠ 0) :
    pointAdd (.aff x1 y1) (.aff x1 y1) =
      .ok (chordResult (tangentSlope x1.toNat y1.toNat) x1.toNat y1.toNat x1.toNat) := by
  simp [pointAdd, outOfField_aff hx hy, hy0, tangentSlope]

variable (hx1 : x1.toNat < Config.p) (hy1 : y1.toNat < Config.p) (hx2 : x2.toNat < Config.p) (hy2 : y2.toNat < Config.p)

include hx1 hy1 hy2

theorem pointAdd_opposite (hne : y1 ≠ y2) (hsum : (y1.toNat + y2.toNat) % Config.p = 0) :
    pointAdd (.aff x1 y1) (.aff x1 y2) = .ok .inf := by
  simp [pointAdd, outOfField_aff hx1 hy1, outOfField_aff hx1 hy2, hne, hsum]

theorem pointAdd_sameX (hne : y1 ≠ y2) (hsum : (y1.toNat + y2.toNat) % Config.p ≠ 0) :
    pointAdd (.aff x1 y1) (.aff x1 y2) = .error .noInverse := by
  simp [pointAdd, outOfField_aff hx1 hy1, outOfField_aff hx1 hy2, hne, hsum]

include hx2

theorem pointAdd_secant (hne : x1 ≠ x2) :
    pointAdd (.aff x1 y1) (.aff x2 y2) =
      .ok (chordResult (secantSlope x1.toNat y1.toNat x2.toNat y2.toNat) x1.toNat y1.toNat x2.toNat) := by
  simp [pointAdd, outOfField_aff hx1 hy1, outOfField_aff hx2 hy2, hne, secantSlope]

end Affine

/-! ### The slopes (R201) -/

/-- A quotient modulo p, by its congruence: b stands for the divisor d in the field. -/
theorem residue_mul_invMod_mul {a d : Int} {b : Nat} (hd : (b : Fp) = d) (hd0 : (d : Fp) ≠ 0) :
    (residue (a * invMod Config.p b) Config.p : Int) * d % Config.p = a % Config.p := by
  have := fact_p
  rw [← ZMod.intCast_eq_intCast_iff', Int.cast_mul, Int.cast_natCast, residue_p_zmod, Int.cast_mul, Int.cast_natCast,
    invMod_p (hd ▸ hd0), hd, inv_mul_cancel_right₀ hd0]

theorem tangentSlope_mul {x y : Nat} (hy : y < Config.p) (hy0 : y ≠ 0) :
    (tangentSlope x y : Int) * (2 * y) % Config.p = 3 * (x : Int) ^ 2 % Config.p := by
  have := fact_p
  have h2 : ((2 : Nat) : Fp) ≠ 0 := mt (cast_eq_zero (by decide)).1 (by decide)
  have hyF : (y : Fp) ≠ 0 := mt (cast_eq_zero hy).1 hy0
  refine residue_mul_invMod_mul (by push_cast; rfl) ?_
  push_cast
  exact mul_ne_zero (mod_cast h2) hyF

theorem secantSlope_mul {x1 x2 : Nat} (y1 y2 : Nat) (hx1 : x1 < Config.p) (hx2 : x2 < Config.p) (hne : x1 ≠ x2) :
    (secantSlope x1 y1 x2 y2 : Int) * (x2 - x1) % Config.p = ((y2 : Int) - y1) % Config.p := by
  have hxF : (x1 : Fp) ≠ x2 := mt (cast_inj hx1 hx2).1 hne
  refine residue_mul_invMod_mul (residue_p_zmod _) ?_
  push_cast
  exact sub_ne_zero.2 hxF.symm

/-- Settles O40: each case by its equation above; the two lines by their slopes' congruences and `chordResult_spec`. -/
theorem additionCases : Obligations.AdditionCases := by
  refine ⟨fun _ _ => pointAdd_of_outOfField, fun _ h => ⟨pointAdd_inf_left h, pointAdd_inf_right h⟩,
    fun x1 y1 x2 y2 hx1 hy1 hx2 hy2 => ⟨?opposite, ?twoTorsion, ?tangent, ?sameX, ?secant⟩⟩
  case opposite =>
    rintro hne rfl hsum
    exact pointAdd_opposite hx1 hy1 hy2 (by simpa using hne) hsum
  case twoTorsion =>
    rintro ⟨⟩ hy0
    exact pointAdd_self_of_zero hx1 hy0
  case tangent =>
    rintro ⟨⟩ hy0
    obtain ⟨x3, y3, hres, hx3, hy3, hx, hy⟩ :=
      chordResult_spec (tangentSlope x1.toNat y1.toNat) x1.toNat y1.toNat x1.toNat
    exact ⟨_, x3, y3, tangentSlope_mul hy1 hy0, hx3, hy3, hx, hy, hres ▸ pointAdd_self hx1 hy1 hy0⟩
  case sameX =>
    rintro hne rfl hsum
    exact pointAdd_sameX hx1 hy1 hy2 (by simpa using hne) hsum
  case secant =>
    intro hne
    obtain ⟨x3, y3, hres, hx3, hy3, hx, hy⟩ :=
      chordResult_spec (secantSlope x1.toNat y1.toNat x2.toNat y2.toNat) x1.toNat y1.toNat x2.toNat
    exact ⟨_, x3, y3, secantSlope_mul _ _ hx1 hx2 (mt BitVec.eq_of_toNat_eq hne), hx3, hy3, hx, hy,
      hres ▸ pointAdd_secant hx1 hy1 hx2 hy2 hne⟩

/-! ### The group law on valid points (R204) -/

theorem pointAdd_valid {u v : Point} (hu : u.valid = true) (hv : v.valid = true) :
    ∃ w, pointAdd u v = .ok w ∧ w.valid = true := by
  obtain ⟨U, hU⟩ := (valid_iff_reps u).1 hu
  obtain ⟨V, hV⟩ := (valid_iff_reps v).1 hv
  obtain ⟨w, hw, hW⟩ := pointAdd_reps hU hV
  exact ⟨w, hw, hW.valid⟩

theorem pointAdd_comm {u v : Point} (hu : u.valid = true) (hv : v.valid = true) : pointAdd v u = pointAdd u v := by
  have := fact_p
  obtain ⟨U, hU⟩ := (valid_iff_reps u).1 hu
  obtain ⟨V, hV⟩ := (valid_iff_reps v).1 hv
  obtain ⟨w, hw, hW⟩ := pointAdd_reps hU hV
  rw [hw]
  exact pointAdd_eq_of_reps hV hU (add_comm U V ▸ hW)

theorem pointAdd_assoc {u v w : Point} (hu : u.valid = true) (hv : v.valid = true) (hw : w.valid = true) :
    ∃ uv vw z, pointAdd u v = .ok uv ∧ pointAdd v w = .ok vw ∧ pointAdd uv w = .ok z ∧ pointAdd u vw = .ok z := by
  have := fact_p
  obtain ⟨U, hU⟩ := (valid_iff_reps u).1 hu
  obtain ⟨V, hV⟩ := (valid_iff_reps v).1 hv
  obtain ⟨W, hW⟩ := (valid_iff_reps w).1 hw
  obtain ⟨uv, huv, hUV⟩ := pointAdd_reps hU hV
  obtain ⟨vw, hvw, hVW⟩ := pointAdd_reps hV hW
  obtain ⟨z, hz, hZ⟩ := pointAdd_reps hUV hW
  exact ⟨uv, vw, z, huv, hvw, hz, pointAdd_eq_of_reps hU hVW (add_assoc U V W ▸ hZ)⟩

theorem neg_valid {u : Point} (hu : u.valid = true) : u.neg.valid = true := by
  obtain ⟨U, hU⟩ := (valid_iff_reps u).1 hu
  exact (neg_reps hU).valid

theorem inField_of_valid {u : Point} (hu : u.valid = true) : u.outOfField = false := by
  obtain ⟨U, hU⟩ := (valid_iff_reps u).1 hu
  exact hU.inField

theorem pointAdd_neg {u : Point} (hu : u.valid = true) : pointAdd u u.neg = .ok .inf := by
  have := fact_p
  obtain ⟨U, hU⟩ := (valid_iff_reps u).1 hu
  exact pointAdd_eq_of_reps hU (neg_reps hU) (add_neg_cancel U)

theorem exists_kFoldSum_generator {u : Point} (hu : u.valid = true) :
    ∃ k, k < Config.n ∧ kFoldSum generator k = .ok u := by
  obtain ⟨U, hU⟩ := (valid_iff_reps u).1 hu
  obtain ⟨G, hG⟩ := exists_generator
  obtain ⟨k, hk, rfl⟩ := exists_smul_generator hG U
  obtain ⟨w, hw, hW⟩ := kFoldSum_reps hG k
  exact ⟨k, hk, hW.value_unique hU ▸ hw⟩

theorem kFoldSum_generator_injective {j k : Nat} (hj : j < Config.n) (hk : k < Config.n)
    (h : kFoldSum generator j = kFoldSum generator k) : j = k := by
  have := fact_p
  obtain ⟨G, hG⟩ := exists_generator
  obtain ⟨v, hv, hV⟩ := kFoldSum_reps hG j
  obtain ⟨w, hw, hW⟩ := kFoldSum_reps hG k
  obtain rfl : v = w := Except.ok.inj (hv.symm.trans (h.trans hw))
  have order := addOrderOf_generator hG
  exact nsmul_injOn_Iio_addOrderOf (order.symm ▸ hj) (order.symm ▸ hk) (hV.point_unique hW)

/-- Settles O41: each law is one of the curve's group, and that group is cyclic of order n. -/
theorem additionIsAGroupLaw : Obligations.AdditionIsAGroupLaw := by
  refine ⟨fun u v hu hv => ?_, fun _ _ _ => pointAdd_assoc,
    fun u hu => ⟨pointAdd_inf_right (inField_of_valid hu), neg_valid hu, pointAdd_neg hu⟩,
    fun _ => exists_kFoldSum_generator, fun _ _ => kFoldSum_generator_injective⟩
  obtain ⟨w, hw, hval⟩ := pointAdd_valid hu hv
  exact ⟨w, hw, hval, (pointAdd_comm hu hv).trans hw⟩

end Sys2Proof.Proofs
end

section
/-! SUPPORT. The point commands (42_point.md R200, R205, R206): PADD and PDBL by the result of `add`, PCHK by the curve's
equation. -/

namespace Sys2Proof.Proofs

open Sys2Proof.Machine Sys2Proof.Laws

theorem exec_padd_of_ok {s : State} {b c : PReg} {r : Point} (h : pointAdd (s.readP b) (s.readP c) = .ok r) (a : PReg) :
    exec (.padd a b c) s = .next ((s.writePReg a r.stored).completedOnly 0x00#8) := by
  rw [exec, execPadd, h]; exact finish_ok s _

theorem exec_padd_of_error {s : State} {b c : PReg} {e : Err} (h : pointAdd (s.readP b) (s.readP c) = .error e)
    (a : PReg) : exec (.padd a b c) s = .next (s.completedOnly e.code) := by
  rw [exec, execPadd, h]; exact finish_error s e

theorem exec_pdbl (s : State) (a b : PReg) : exec (.pdbl a b) s = exec (.padd a b b) s := rfl

theorem exec_padd_of_valid {s : State} {b c : PReg} (hb : (s.readP b).valid = true) (hc : (s.readP c).valid = true)
    (a : PReg) :
    ∃ r : Point, r.valid = true ∧ exec (.padd a b c) s = .next ((s.writePReg a r.stored).completedOnly 0x00#8) := by
  obtain ⟨r, hr, hval⟩ := pointAdd_valid hb hc
  exact ⟨r, hval, exec_padd_of_ok hr a⟩

/-- Settles O42: PADD by the result of `add`, PDBL as PADD, and both on valid operands by the closure of `add`. -/
theorem pointAdditionCommands : Obligations.PointAdditionCommands :=
  fun s a b _ => ⟨fun _ h => exec_padd_of_ok h a, fun _ h => exec_padd_of_error h a, exec_pdbl s a b,
    fun hb hc => ⟨exec_padd_of_valid hb hc a, exec_pdbl s a b ▸ exec_padd_of_valid hb hb a⟩⟩

/-- The curve's equation over the numbers (00_scope.md R16). -/
theorem onCurve_iff_mod (x y : Nat) :
    onCurve x y = true ↔ x < Config.p ∧ y < Config.p ∧ y ^ 2 % Config.p = (x ^ 3 + 7) % Config.p := by
  rw [onCurve_iff, ← ZMod.natCast_eq_natCast_iff']
  push_cast
  rfl

/-- Settles O43: PCHK cannot raise, and writes the validity of P[B], which a set tag makes true and a clear one leaves to
the equation. -/
theorem pointCheck : Obligations.PointCheck := by
  refine fun s b => ⟨(s.readP b).valid, finish_ok s _, ?_⟩
  cases htag : (s.readPReg b).inf with
  | true => simp [readP_of_inf_true htag, Point.valid]
  | false => simp [readP_of_inf_false htag, Point.valid, onCurve_iff_mod]

end Sys2Proof.Proofs
end

section
/-! SUPPORT. The scalar multiplication (43_scalar_mult.md R230, R231, R233): PMUL in each of the three cases that k and Q
make. -/

namespace Sys2Proof.Proofs

open Sys2Proof.Machine Sys2Proof.Laws

section Pmul

variable {s : State} {b : XReg} {c : PReg}

/-- k = 0: O, before Q is looked at (R230). -/
theorem exec_pmul_of_zero (hk : s.readX b = 0#256) (a : PReg) (c : PReg) :
    exec (.pmul a b c) s = .next ((s.writePReg a ⟨true, 0#256, 0#256⟩).completedOnly 0x00#8) := by
  rw [exec, execPmul, if_pos hk]; exact finish_ok s _

/-- k ≠ 0 and Q not valid: BAD_POINT (R233). -/
theorem exec_pmul_of_invalid (hk : s.readX b ≠ 0#256) (hq : (s.readP c).valid = false) (a : PReg) :
    exec (.pmul a b c) s = .next (s.completedOnly 0x22#8) := by
  rw [exec, execPmul, if_neg hk, hq]; exact finish_error s .badPoint

/-- k ≠ 0 and Q valid: the multiple (R230). -/
theorem exec_pmul_of_valid (hk : s.readX b ≠ 0#256) (hq : (s.readP c).valid = true) {r : Point}
    (hr : scalarMult (s.readX b).toNat (s.readP c) = .ok r) (a : PReg) :
    exec (.pmul a b c) s = .next ((s.writePReg a r.stored).completedOnly 0x00#8) := by
  rw [exec, execPmul, if_neg hk, hq, hr]; exact finish_ok s _

end Pmul

/-- Settles O44: PMUL's three cases, the last with the multiple that is the k-fold sum for a k of 256 bits. -/
theorem scalarMultipleIsTheSum : Obligations.ScalarMultipleIsTheSum := by
  refine fun s a c b => ⟨fun hk => exec_pmul_of_zero (BitVec.eq_of_toNat_eq hk) a c, fun hk hq => ?_, fun hk hq => ?_⟩
  · exact exec_pmul_of_invalid (mt (congrArg BitVec.toNat) hk) hq a
  · obtain ⟨r, hmul, hsum, hval⟩ := scalarMult_eq_kFoldSum hq (s.readX b).isLt
    exact ⟨r, hsum, hval, exec_pmul_of_valid (mt (congrArg BitVec.toNat) hk) hq hmul a⟩

end Sys2Proof.Proofs
end

section
/-! SUPPORT. The digest command and SHA-256's padding (44_digest.md R250 to R260): HASH of either buffer, within its length
and above it; the zeros of the padding; the known digests. -/

namespace Sys2Proof.Proofs

open Sys2Proof.Machine Sys2Proof.Laws

/-! ### HASH -/

section Hash

variable {s : State} {m : HashSource}

/-- A buffer within its length: the digest's number, at the conforming H (R250, R252, R254). -/
theorem exec_hash_of_ok {bytes : List Byte} (hb : s.hashInput m = .ok bytes) (a : XReg) :
    ∃ v : Val, v.toNat = bigEndianValue (hashH bytes) ∧
      exec (.hash a m) s = .next ((s.writeX a v).completedOnly 0x00#8) := by
  rw [← execWith_hashH]
  exact execWith_hash isDigest_hashH hb

/-- A buffer above its length: LENGTH, and nothing is written (R250). -/
theorem exec_hash_of_length (hb : s.hashInput m = .error .length) (a : XReg) :
    exec (.hash a m) s = .next (s.completedOnly 0x02#8) := by
  rw [exec, execHash, execHashWith, hb]
  exact finish_error s .length

end Hash

/-- Settles O46: 32 bytes for every input, and HASH by what its buffer reads as. -/
theorem hashResults : Obligations.HashResults :=
  ⟨length_hashH, fun _ a _ =>
    ⟨fun h => exec_hash_of_ok (m := .msg) (message_ok h) a, fun h => exec_hash_of_ok (m := .txt) (text_ok h) a,
      fun h => exec_hash_of_length (m := .msg) (message_error h) a,
      fun h => exec_hash_of_length (m := .txt) (text_error h) a⟩⟩

/-! ### Padding -/

theorem add_shaZeros_mod (len : Nat) : (len + 1 + shaZeros len) % 64 = 56 := by
  unfold shaZeros; omega

theorem shaZeros_le {len j : Nat} (h : (len + 1 + j) % 64 = 56) : shaZeros len ≤ j := by
  unfold shaZeros; omega

theorem length_shaPad (msg : List Byte) : (shaPad msg).length = msg.length + 1 + shaZeros msg.length + 8 := by
  simp only [shaPad, List.length_append, List.length_cons, List.length_replicate, length_bytesBE]; omega

/-- The padded message is whole blocks of 64 bytes (R257). -/
theorem length_shaPad_mod (msg : List Byte) : (shaPad msg).length % 64 = 0 := by
  have := add_shaZeros_mod msg.length
  rw [length_shaPad]; omega

/-- Settles O47: the zeros are `shaZeros` and the length's bytes `bytesBE 8`, which lose nothing of 8·L below 2^64. -/
theorem shaPadding : Obligations.ShaPadding := by
  refine fun msg hlen => ⟨shaZeros msg.length, bytesBE 8 (8 * msg.length), ?_, add_shaZeros_mod _, fun _ => shaZeros_le,
    length_bytesBE _ _, ?_, length_shaPad_mod msg⟩
  · simp [shaPad]
  · rw [bigEndianValue_bytesBE, Nat.mod_eq_of_lt (lt_of_lt_of_eq hlen (by norm_num))]

/-! ### Known digests -/

/-- Settles O48: each digest evaluated, a message of one block. -/
theorem shaKnownAnswers : Obligations.ShaKnownAnswers := ⟨by decide +kernel, by decide +kernel⟩

end Sys2Proof.Proofs
end

section
/-! SUPPORT. The oracle's answers (45_rng.md R290 to R295): a command that draws, by what its answers begin with; RAND; the
order in which every command consumes them. -/

namespace Sys2Proof.Proofs

open Sys2Proof.Machine Sys2Proof.Laws

/-! ### A command that draws, by its answers

Its answers begin with ones its attempt turns away; what follows them decides how it ends. -/

section Drawing

variable {α : Type} {attempt : Nat → Except Err (Option α)} {s : State} {turned : List Draw}

/-- A word whose attempt succeeds: the command commits its result, with the answers up to this word consumed (R292). -/
theorem finishDrawn_drawUntil_got (h : ∀ d ∈ turned, TurnedAway attempt d) {b : Val} {rest : List Draw} {a : α}
    (hs : s.draws = turned ++ .word b :: rest) (hb : b.toNat % Config.n ≠ 0)
    (ha : attempt (b.toNat % Config.n) = .ok (some a)) (commit : State → α → State) :
    finishDrawn s (drawUntil attempt s.draws) commit =
      .next ((commit { s with draws := rest } a).completedOnly 0x00#8) := by
  rw [hs, drawUntil_got h rest hb ha]
  exact finishDrawn_got s a rest commit

/-- FAIL: ENTROPY, and nothing is written (R292). -/
theorem finishDrawn_drawUntil_fail (h : ∀ d ∈ turned, TurnedAway attempt d) {rest : List Draw}
    (hs : s.draws = turned ++ .fail :: rest) (commit : State → α → State) :
    finishDrawn s (drawUntil attempt s.draws) commit = .next ({ s with draws := rest }.completedOnly 0x30#8) := by
  rw [hs, drawUntil_fail h rest]
  exact finishDrawn_raised s .entropy rest commit

/-- Nothing: the command waits, with every answer consumed (R433, log 2). -/
theorem finishDrawn_drawUntil_waiting (h : ∀ d ∈ turned, TurnedAway attempt d) (hs : s.draws = turned)
    (commit : State → α → State) :
    finishDrawn s (drawUntil attempt s.draws) commit = .next { s with draws := [] } := by
  rw [hs, drawUntil_waiting h]
  exact finishDrawn_waiting s commit

end Drawing

/-- A word drawn and not turned away leaves a scalar in [1, n - 1], which a register holds whole (R292). -/
theorem toVal_mod_n {k : Nat} (hk : k % Config.n ≠ 0) :
    (toVal (k % Config.n)).toNat = k % Config.n ∧ 1 ≤ (toVal (k % Config.n)).toNat ∧
      (toVal (k % Config.n)).toNat < Config.n := by
  rw [toNat_toVal (mod_n_lt k)]
  exact ⟨rfl, Nat.one_le_iff_ne_zero.2 hk, Nat.mod_lt k n_prime.pos⟩

/-- RAND draws with an attempt that accepts every scalar, and writes the one it gets to X[A] (R291). -/
theorem exec_rand (a : XReg) (s : State) :
    exec (.rand a) s =
      finishDrawn s (drawUntil (fun v => .ok (some v)) s.draws) fun s' v => s'.writeX a (toVal v) := rfl

/-- Settles O49: RAND is a command that draws, and a rejected word is one its attempt turns away. -/
theorem randResults : Obligations.RandResults := by
  intro s a turned hturned
  have hskip (d : Draw) (hd : d ∈ turned) : TurnedAway (fun v : Nat => .ok (some v)) d :=
    turnedAway_of_rejected (hturned d hd)
  rw [exec_rand]
  refine ⟨fun b rest hs hb => ?_, fun rest hs => finishDrawn_drawUntil_fail hskip hs _,
    fun hs => finishDrawn_drawUntil_waiting hskip hs _⟩
  obtain ⟨hv, hpos, hlt⟩ := toVal_mod_n hb
  exact ⟨_, hv, hpos, hlt, finishDrawn_drawUntil_got hskip hs hb rfl _⟩

/-! ### The order of the answers -/

/-- Settles O17: by the three ends of a command. One that wrote has consumed a fresh answer if it draws; one that raised has
an error code; one that waits stays BUSY. -/
theorem drawsConsumedInOrder : Obligations.DrawsConsumedInOrder := by
  intro i s t ht
  obtain ⟨s', hw, rfl⟩ | ⟨e, rest, hsuffix, hrest, rfl⟩ | ⟨hdraws, -, rfl⟩ := exec_cases ht
  · exact ⟨hw.suffix, hw.draws, fun hi _ _ _ => hw.fresh hi⟩
  · exact ⟨hsuffix, hrest, fun _ _ _ hcode => absurd hcode (code_ne_ok e)⟩
  · refine ⟨List.nil_suffix, fun hnot => absurd (hdraws.symm.trans hnot) (by decide), fun _ hbusy hidle => ?_⟩
    exact absurd (hbusy.symm.trans hidle) (by decide)

end Sys2Proof.Proofs
end

section
/-! SUPPORT. The text codec (46_codec.md R310 to R328): the three parses of the model as one `parse(count)`, what it
gives on a text of fields, the end of each decoder by that, the text each encoder commits, and the round trip. -/

namespace Sys2Proof.Proofs

open Sys2Proof.Machine Sys2Proof.Laws

/-! ### `parse(count)` (R313) -/

/-- R313's procedure on a text, for every count: the field count first, then the tokens from left to right. -/
def parseFields (count : Nat) (t : List Byte) : Except Err (List Val) :=
  if (splitFields t).length = count then (splitFields t).mapM parseToken else .error .fieldCount

/-- R313's procedure on the text in TXT. -/
def parseText (s : State) (count : Nat) : Except Err (List Val) := s.text.bind (parseFields count)

/-- The model's `parse(1)`: a wrong number of fields is FIELD_COUNT on both sides, and one field is one token. -/
theorem parseFields_one (t : List Byte) : parseFields 1 t = (parse1 t).map fun v => [v] := by
  unfold parseFields parse1
  rcases splitFields t with _ | ⟨f, _ | ⟨g, fs⟩⟩
  · rfl
  · rw [if_pos (show [f].length = 1 from rfl)]
    change _ = (fun v => [v]) <$> parseToken f
    simp only [List.mapM_cons, List.mapM_nil, pure_bind, map_eq_pure_bind]
  · rw [if_neg (by simp)]; rfl

/-- The model's `parse(2)`: on two fields, both sides take the tokens one after the other. -/
theorem parseFields_two (t : List Byte) : parseFields 2 t = (parse2 t).map fun v => [v.1, v.2] := by
  unfold parseFields parse2
  rcases splitFields t with _ | ⟨f, _ | ⟨g, _ | ⟨h, fs⟩⟩⟩
  · rfl
  · rfl
  · rw [if_pos (show [f, g].length = 2 from rfl)]
    change _ = (fun v : Val × Val => [v.1, v.2]) <$> _
    simp only [List.mapM_cons, List.mapM_nil, bind_assoc, pure_bind, map_bind, map_pure]
  · rw [if_neg (by simp)]; rfl

/-- The model's `parse(3)`, likewise. -/
theorem parseFields_three (t : List Byte) : parseFields 3 t = (parse3 t).map fun v => [v.1, v.2.1, v.2.2] := by
  unfold parseFields parse3
  rcases splitFields t with _ | ⟨f, _ | ⟨g, _ | ⟨h, _ | ⟨k, fs⟩⟩⟩⟩
  · rfl
  · rfl
  · rfl
  · rw [if_pos (show [f, g, h].length = 3 from rfl)]
    change _ = (fun v : Val × Val × Val => [v.1, v.2.1, v.2.2]) <$> _
    simp only [List.mapM_cons, List.mapM_nil, bind_assoc, pure_bind, map_bind, map_pure]
  · rw [if_neg (by simp)]; rfl

/-- A parse followed by a listing of its values is `parse(count)`, on the text in TXT as on any text. -/
theorem parseText_eq {α : Type} {count : Nat} {parse : List Byte → Except Err α} {list : α → List Val}
    (h : ∀ t, parseFields count t = (parse t).map list) (s : State) :
    parseText s count = (s.text.bind parse).map list := by
  unfold parseText
  cases s.text with
  | error e => rfl
  | ok t => exact h t

/-! ### What `parse(count)` gives -/

/-- Every token is worth its number: the values, in field order. -/
theorem mapM_parseToken_ok {fs : List (List Byte)} (h : ∀ f ∈ fs, IsToken f ∧ textValue f < 2 ^ 256) :
    fs.mapM parseToken = .ok (fs.map fun f => toVal (textValue f)) := by
  induction fs with
  | nil => rfl
  | cons f fs ih =>
    obtain ⟨htok, hval⟩ := h f List.mem_cons_self
    rw [List.mapM_cons, parseToken_ok htok hval, ih fun g hg => h g (List.mem_cons_of_mem f hg)]
    rfl

/-- The first token at fault is the one reported, whatever stands behind it. -/
theorem mapM_parseToken_error {pre : List (List Byte)} (h : ∀ g ∈ pre, IsToken g ∧ textValue g < 2 ^ 256)
    {f : List Byte} {e : Err} (hf : parseToken f = .error e) (post : List (List Byte)) :
    (pre ++ f :: post).mapM parseToken = .error e := by
  rw [List.mapM_append, mapM_parseToken_ok h, List.mapM_cons, hf]
  rfl

section Parse

variable {s : State} {t : List Byte} {count : Nat}

theorem parseText_of_length (h : 256 < s.txtLen.toNat) (count : Nat) : parseText s count = .error .length := by
  rw [parseText, text_error h]; rfl

theorem parseText_of_textIs (h : s.textIs t) (count : Nat) : parseText s count = parseFields count t := by
  rw [parseText, text_ok h]; rfl

/-- k separators give k + 1 fields, and any other count is wrong. -/
theorem parseText_of_count (h : s.textIs t) (hcount : t.count separator + 1 ≠ count) :
    parseText s count = .error .fieldCount := by
  rw [parseText_of_textIs h, parseFields, length_splitFields, if_neg hcount]

/-- On a text of as many fields as asked for, the fields are the tokens. -/
theorem parseText_of_intercalate {fs : List (List Byte)} (hne : fs ≠ []) (hsep : ∀ f ∈ fs, separator ∉ f)
    (h : s.textIs ([separator].intercalate fs)) : parseText s fs.length = fs.mapM parseToken := by
  rw [parseText_of_textIs h, parseFields, splitFields_intercalate hne hsep, if_pos rfl]

end Parse

/-- The encoders' joining is the one the split undoes. -/
theorem joinFields_eq_intercalate (fs : List (List Byte)) : joinFields fs = [separator].intercalate fs := by
  induction fs with
  | nil => rfl
  | cons f fs ih =>
    cases fs with
    | nil => exact (List.append_nil f).symm
    | cons g gs => rw [intercalate_cons f (List.cons_ne_nil g gs), ← ih]; rfl

theorem parseText_tokens {s : State} {fs : List (List Byte)} (hne : fs ≠ [])
    (htok : ∀ f ∈ fs, IsToken f ∧ textValue f < 2 ^ 256) (h : s.textIs (joinFields fs)) :
    parseText s fs.length = .ok (fs.map fun f => toVal (textValue f)) := by
  rw [joinFields_eq_intercalate] at h
  rw [parseText_of_intercalate hne (fun f hf => separator_notMem (htok f hf).1) h, mapM_parseToken_ok htok]

theorem parseText_fault {s : State} {pre post : List (List Byte)} {f : List Byte} {e : Err}
    (hsep : ∀ g ∈ pre ++ f :: post, separator ∉ g) (hpre : ∀ g ∈ pre, IsToken g ∧ textValue g < 2 ^ 256)
    (hf : parseToken f = .error e) (h : s.textIs ([separator].intercalate (pre ++ f :: post))) :
    parseText s (pre.length + post.length + 1) = .error e := by
  have hlen : (pre ++ f :: post).length = pre.length + post.length + 1 := List.length_append
  rw [← hlen, parseText_of_intercalate (by simp) hsep h, mapM_parseToken_error hpre hf]

/-- The code of a field that is no token, or a token of 2^256 or more (R313, R314). -/
theorem parseToken_fault {f : List Byte} {code : BitVec 8}
    (h : (¬IsToken f ∧ code = 0x11#8) ∨ (IsToken f ∧ 2 ^ 256 ≤ textValue f ∧ code = 0x12#8)) :
    ∃ e, parseToken f = .error e ∧ code = e.code := by
  obtain ⟨hbad, hcode⟩ | ⟨htok, hbig, hcode⟩ := h
  · exact ⟨.badToken, parseToken_bad hbad, hcode⟩
  · exact ⟨.overflow, parseToken_overflow htok hbig, hcode⟩

/-! ### The decoders, by what `parse(count)` gives (R316, R324 to R327) -/

section Finish

variable {α : Type} {r : Except Err α} {list : α → List Val}

theorem finish_map_of_ok {v : α} (hinj : list.Injective) (h : r.map list = .ok (list v)) (s : State)
    (commit : α → State) :
    finish s (r.map commit) = .next ((commit v).completedOnly 0x00#8) := by
  cases r with
  | error e => cases h
  | ok u => rw [← hinj (Except.ok.inj h)]; rfl

theorem finish_map_of_error {e : Err} (h : r.map list = .error e) (s : State) (commit : α → State) :
    finish s (r.map commit) = .next (s.completedOnly e.code) := by
  cases r with
  | error e' => rw [← Except.error.inj h]; rfl
  | ok u => cases h

end Finish

theorem exec_decsig {a b : XReg} (hab : a ≠ b) (s : State) :
    exec (.decsig a b) s =
      finish s ((s.text.bind parse2).map fun v => (s.writeX a v.1).writeX b v.2) := by
  rw [exec, execDecsig, if_neg hab]

section Decoders

variable {s : State} {u v w : Val} {e : Err}

theorem exec_decd_of_ok (h : parseText s 1 = .ok [v]) (a : XReg) :
    exec (.decd a) s = .next ((s.writeX a v).completedOnly 0x00#8) := by
  rw [parseText_eq parseFields_one] at h
  exact finish_map_of_ok (v := v) (fun _ _ => List.head_eq_of_cons_eq) h s _

theorem exec_decd_of_error (h : parseText s 1 = .error e) (a : XReg) :
    exec (.decd a) s = .next (s.completedOnly e.code) := by
  rw [parseText_eq parseFields_one] at h
  exact finish_map_of_error h s _

theorem pairList_injective : (fun v : Val × Val => [v.1, v.2]).Injective := by
  rintro ⟨u, v⟩ ⟨u', v'⟩ h
  simpa using h

theorem exec_decq_of_ok (h : parseText s 2 = .ok [u, v]) (q : PReg) :
    exec (.decq q) s = .next ((s.writePReg q ⟨false, u, v⟩).completedOnly 0x00#8) := by
  rw [parseText_eq parseFields_two] at h
  exact finish_map_of_ok (v := (u, v)) pairList_injective h s _

theorem exec_decq_of_error (h : parseText s 2 = .error e) (q : PReg) :
    exec (.decq q) s = .next (s.completedOnly e.code) := by
  rw [parseText_eq parseFields_two] at h
  exact finish_map_of_error h s _

theorem exec_decsig_of_ok (h : parseText s 2 = .ok [u, v]) {a b : XReg} (hab : a ≠ b) :
    exec (.decsig a b) s = .next (((s.writeX a u).writeX b v).completedOnly 0x00#8) := by
  rw [parseText_eq parseFields_two] at h
  rw [exec_decsig hab]
  exact finish_map_of_ok (v := (u, v)) pairList_injective h s _

theorem exec_decsig_of_error (h : parseText s 2 = .error e) {a b : XReg} (hab : a ≠ b) :
    exec (.decsig a b) s = .next (s.completedOnly e.code) := by
  rw [parseText_eq parseFields_two] at h
  rw [exec_decsig hab]
  exact finish_map_of_error h s _

theorem tripleList_injective : (fun v : Val × Val × Val => [v.1, v.2.1, v.2.2]).Injective := by
  rintro ⟨u, v, w⟩ ⟨u', v', w'⟩ h
  simpa using h

theorem exec_deckp_of_ok (h : parseText s 3 = .ok [u, v, w]) (a : XReg) (q : PReg) :
    exec (.deckp a q) s = .next (((s.writeX a u).writePReg q ⟨false, v, w⟩).completedOnly 0x00#8) := by
  rw [parseText_eq parseFields_three] at h
  exact finish_map_of_ok (v := (u, v, w)) tripleList_injective h s _

theorem exec_deckp_of_error (h : parseText s 3 = .error e) (a : XReg) (q : PReg) :
    exec (.deckp a q) s = .next (s.completedOnly e.code) := by
  rw [parseText_eq parseFields_three] at h
  exact finish_map_of_error h s _

end Decoders

/-- Settles O51: a text of tokens below 2^256 parses to their numbers, and each decoder writes what it parsed. -/
theorem decoderResults : Obligations.DecoderResults := by
  intro s f g h hf hg hh hfv hgv hhv
  have hone : ∀ k ∈ [f], IsToken k ∧ textValue k < 2 ^ 256 := List.forall_mem_singleton.2 ⟨hf, hfv⟩
  have htwo : ∀ k ∈ [f, g], IsToken k ∧ textValue k < 2 ^ 256 :=
    List.forall_mem_cons.2 ⟨⟨hf, hfv⟩, List.forall_mem_singleton.2 ⟨hg, hgv⟩⟩
  have hthree : ∀ k ∈ [f, g, h], IsToken k ∧ textValue k < 2 ^ 256 :=
    List.forall_mem_cons.2 ⟨⟨hf, hfv⟩, List.forall_mem_cons.2 ⟨⟨hg, hgv⟩, List.forall_mem_singleton.2 ⟨hh, hhv⟩⟩⟩
  refine ⟨fun ht a => ?_, fun ht => ?_, fun ht a q => ?_⟩
  · exact exec_decd_of_ok (parseText_tokens (List.cons_ne_nil f _) hone ht) a
  · have hparse := parseText_tokens (List.cons_ne_nil f _) htwo ht
    exact ⟨fun q => exec_decq_of_ok hparse q, fun a b hab => exec_decsig_of_ok hparse hab⟩
  · exact exec_deckp_of_ok (parseText_tokens (List.cons_ne_nil f _) hthree ht) a q

/-- Settles O52: the length, then the field count, then the first field at fault decide what `parse(count)` reports,
and each decoder reports that. -/
theorem decoderErrors : Obligations.DecoderErrors := by
  refine fun s a b q => ⟨fun hlong => ?_, fun t ht => ?_, fun pre post f code hsep hpre hf ht => ?_⟩
  · have hparse := parseText_of_length hlong
    exact ⟨exec_decd_of_error (hparse 1) a, exec_decq_of_error (hparse 2) q, exec_deckp_of_error (hparse 3) a q,
      exec_decsig_of_error (hparse 2)⟩
  · have hparse {k : Nat} (hk : t.count separator ≠ k) : parseText s (k + 1) = .error .fieldCount :=
      parseText_of_count ht fun h => hk (Nat.succ.inj h)
    exact ⟨fun h => exec_decd_of_error (hparse h) a,
      fun h => ⟨exec_decq_of_error (hparse h) q, exec_decsig_of_error (hparse h)⟩,
      fun h => exec_deckp_of_error (hparse h) a q⟩
  · obtain ⟨e, hfault, rfl⟩ := parseToken_fault hf
    have hparse {k : Nat} (hk : pre.length + post.length = k) : parseText s (k + 1) = .error e :=
      hk ▸ parseText_fault hsep hpre hfault ht
    exact ⟨fun h => exec_decd_of_error (hparse h) a,
      fun h => ⟨exec_decq_of_error (hparse h) q, exec_decsig_of_error (hparse h)⟩,
      fun h => exec_deckp_of_error (hparse h) a q⟩

/-! ### The encoders (R312, R320 to R323) -/

section Encoders

variable {s : State} {q : PReg} {x y : Val}

theorem exec_encd (b : XReg) (s : State) :
    exec (.encd b) s = .next ((s.commitText (joinFields [dec (s.readX b)])).completedOnly 0x00#8) := rfl

theorem exec_encsig (b c : XReg) (s : State) :
    exec (.encsig b c) s =
      .next ((s.commitText (joinFields [dec (s.readX b), dec (s.readX c)])).completedOnly 0x00#8) := rfl

theorem exec_encq_of_aff (h : s.readP q = .aff x y) :
    exec (.encq q) s = .next ((s.commitText (joinFields [dec x, dec y])).completedOnly 0x00#8) := by
  rw [exec, execEncq, h]; exact finish_ok s _

theorem exec_enckp_of_aff (h : s.readP q = .aff x y) (b : XReg) :
    exec (.enckp b q) s =
      .next ((s.commitText (joinFields [dec (s.readX b), dec x, dec y])).completedOnly 0x00#8) := by
  rw [exec, execEnckp, h]; exact finish_ok s _

theorem exec_encq_of_inf (h : s.readP q = .inf) : exec (.encq q) s = .next (s.completedOnly 0x23#8) := by
  rw [exec, execEncq, h]; exact finish_error s .infinity

theorem exec_enckp_of_inf (h : s.readP q = .inf) (b : XReg) :
    exec (.enckp b q) s = .next (s.completedOnly 0x23#8) := by
  rw [exec, execEnckp, h]; exact finish_error s .infinity

end Encoders

section Commit

variable {s : State} (hwf : s.mem.wf) (u v w : Val)
include hwf

/-- An encoder's commit of two values, as TXT and TXT_LEN show it (R312). -/
theorem commitText_two_values :
    ∃ f g m, IsDecimalText u.toNat f ∧ IsDecimalText v.toNat g ∧ TextWritten s.mem m (f ++ separator :: g) ∧
      s.commitText (joinFields [dec u, dec v]) =
        { s with mem := m, txtLen := BitVec.ofNat 32 (f.length + 1 + g.length) } := by
  have hlen : (joinFields [dec u, dec v]).length = (dec u).length + 1 + (dec v).length := by
    simp only [joinFields, List.length_append, List.length_cons]; omega
  exact ⟨_, _, _, dec_spec u, dec_spec v, commitText_written hwf (joinFields_length2 u v), hlen ▸ rfl⟩

/-- An encoder's commit of three values (R312). -/
theorem commitText_three_values :
    ∃ f g h m, IsDecimalText u.toNat f ∧ IsDecimalText v.toNat g ∧ IsDecimalText w.toNat h ∧
      TextWritten s.mem m (f ++ separator :: (g ++ separator :: h)) ∧
      s.commitText (joinFields [dec u, dec v, dec w]) =
        { s with mem := m, txtLen := BitVec.ofNat 32 (f.length + 1 + g.length + 1 + h.length) } := by
  have hlen : (joinFields [dec u, dec v, dec w]).length =
      (dec u).length + 1 + (dec v).length + 1 + (dec w).length := by
    simp only [joinFields, List.length_append, List.length_cons]; omega
  exact ⟨_, _, _, _, dec_spec u, dec_spec v, dec_spec w, commitText_written hwf (joinFields_length3 u v w), hlen ▸ rfl⟩

end Commit

/-- Settles O50: each encoder commits the texts `dec` writes, and those are canonical. -/
theorem encoderResults : Obligations.EncoderResults := by
  refine ⟨fun v => ⟨dec v, dec_spec v, dec_length v⟩, fun s b c q hwf => ⟨?_, ?_, fun htag => ⟨?_, ?_⟩, fun htag => ?_⟩⟩
  · exact ⟨_, _, dec_spec (s.readX b), commitText_written hwf (joinFields_length1 _), rfl⟩
  · obtain ⟨f, g, m, hf, hg, hm, hcommit⟩ := commitText_two_values hwf (s.readX b) (s.readX c)
    exact ⟨f, g, m, hf, hg, hm, by rw [exec_encsig, hcommit]⟩
  · obtain ⟨f, g, m, hf, hg, hm, hcommit⟩ := commitText_two_values hwf (s.readPReg q).x (s.readPReg q).y
    exact ⟨f, g, m, hf, hg, hm, by rw [exec_encq_of_aff (readP_of_inf_false htag), hcommit]⟩
  · obtain ⟨f, g, h, m, hf, hg, hh, hm, hcommit⟩ :=
      commitText_three_values hwf (s.readX b) (s.readPReg q).x (s.readPReg q).y
    exact ⟨f, g, h, m, hf, hg, hh, hm, by rw [exec_enckp_of_aff (readP_of_inf_false htag), hcommit]⟩
  · have hinf := readP_of_inf_true htag
    exact ⟨exec_encq_of_inf hinf, exec_enckp_of_inf hinf b⟩

/-! ### The round trip (R328) -/

/-- The values' own texts, committed by a command, parse to the values. -/
theorem parseText_commitText {s : State} (hwf : s.mem.wf) {vs : List Val} (hne : vs ≠ [])
    (hlen : (joinFields (vs.map dec)).length ≤ 256) (code : BitVec 8) :
    parseText ((s.commitText (joinFields (vs.map dec))).completedOnly code) vs.length = .ok vs := by
  have htext : ((s.commitText (joinFields (vs.map dec))).completedOnly code).textIs (joinFields (vs.map dec)) :=
    commitText_textIs hwf hlen
  have htok : ∀ f ∈ vs.map dec, IsToken f ∧ textValue f < 2 ^ 256 := by
    refine List.forall_mem_map.2 fun v _ => ?_
    obtain ⟨htok, hval, -⟩ := dec_spec v
    exact ⟨htok, hval ▸ v.isLt⟩
  have hback (v : Val) : toVal (textValue (dec v)) = v := by
    obtain ⟨-, hval, -⟩ := dec_spec v
    exact BitVec.eq_of_toNat_eq (by rw [hval, toNat_toVal v.isLt])
  have hvals : (vs.map dec).map (fun f => toVal (textValue f)) = vs := by
    rw [List.map_map]
    exact List.map_id'' hback vs
  rw [← List.length_map dec, parseText_tokens (mt List.map_eq_nil_iff.1 hne) htok htext, hvals]

/-- An affine point register is its tag and its coordinates. -/
theorem eq_of_inf_false {r : PointReg} (h : r.inf = false) : (⟨false, r.x, r.y⟩ : PointReg) = r := by rw [← h]

/-- Settles O53: a decoder parses the text the encoder committed to the values it encoded. -/
theorem codecRoundTrip : Obligations.CodecRoundTrip := by
  refine fun s a b c d q r hwf => ⟨?_, fun hne => ?_, fun htag => ?_, fun htag => ?_⟩
  · have hparse := parseText_commitText hwf (vs := [s.readX b]) (by simp) (joinFields_length1 _) 0x00#8
    exact ⟨_, _, exec_encd b s, exec_decd_of_ok hparse a, rfl, readX_writeX_self _ a _⟩
  · have hparse := parseText_commitText hwf (vs := [s.readX b, s.readX c]) (by simp) (joinFields_length2 _ _) 0x00#8
    exact ⟨_, _, exec_encsig b c s, exec_decsig_of_ok hparse hne, rfl,
      (readX_writeX_of_ne _ _ hne.symm).trans (readX_writeX_self _ a _), readX_writeX_self _ d _⟩
  · have hparse := parseText_commitText hwf (vs := [(s.readPReg q).x, (s.readPReg q).y]) (by simp)
      (joinFields_length2 _ _) 0x00#8
    exact ⟨_, _, exec_encq_of_aff (readP_of_inf_false htag), exec_decq_of_ok hparse r, rfl,
      (readPReg_writePReg_self _ r _).trans (eq_of_inf_false htag)⟩
  · have hparse := parseText_commitText hwf (vs := [s.readX b, (s.readPReg q).x, (s.readPReg q).y]) (by simp)
      (joinFields_length3 _ _ _) 0x00#8
    exact ⟨_, _, exec_enckp_of_aff (readP_of_inf_false htag) b, exec_deckp_of_ok hparse a r, rfl,
      readX_writeX_self _ a _, (readPReg_writePReg_self _ r _).trans (eq_of_inf_false htag)⟩

end Sys2Proof.Proofs
end

section
/-! SUPPORT. Key generation, signing and verification (47_protocol.md R350 to R364): SIGN by its checks and its answers,
and its ends; VERIFY by its checks and by the point it computes, in the group; then the two laws of R364. -/

namespace Sys2Proof.Proofs

open Sys2Proof.Machine Sys2Proof.Laws

/-- A command, like a step, has one next state. -/
theorem next_unique {o : Host.Outcome State Fault Refusal} {s t : State} (hs : o = .next s) (ht : o = .next t) :
    s = t :=
  Host.Outcome.next.inj (hs.symm.trans ht)

/-! ### KEYGEN (R350) -/

/-- Every scalar drawn gives a key pair: its multiple of G is affine and valid. -/
theorem keyAttempt_ok {k : Nat} (hk : k % Config.n ≠ 0) (hlt : k < 2 ^ 256) :
    ∃ x y, keyAttempt k = .ok (some (k, .aff x y)) ∧ kFoldSum generator k = .ok (.aff x y) ∧
      (Point.aff x y).valid = true := by
  obtain ⟨x, y, hmul, hsum, hval⟩ := scalarMult_generator_aff hk hlt
  exact ⟨x, y, by rw [keyAttempt, hmul]; rfl, hsum, hval⟩

/-- KEYGEN draws with that attempt, and writes d and Q. -/
theorem exec_keygen (a : XReg) (q : PReg) (s : State) :
    exec (.keygen a q) s = finishDrawn s (drawUntil keyAttempt s.draws) fun s' dq =>
      (s'.writeX a (toVal dq.1)).writeP q dq.2 := rfl

/-- Settles O54: KEYGEN is a command that draws, and its attempt turns no scalar away. -/
theorem keygenResults : Obligations.KeygenResults := by
  intro s a q turned hturned
  have hskip (d : Draw) (hd : d ∈ turned) : TurnedAway keyAttempt d := turnedAway_of_rejected (hturned d hd)
  rw [exec_keygen]
  refine ⟨fun b rest hs hb => ?_, fun rest hs => finishDrawn_drawUntil_fail hskip hs _,
    fun hs => finishDrawn_drawUntil_waiting hskip hs _⟩
  obtain ⟨x, y, hkey, hsum, hval⟩ := keyAttempt_ok (k := b.toNat % Config.n) (by rwa [Nat.mod_mod]) (mod_n_lt _)
  obtain ⟨hv, -, -⟩ := toVal_mod_n hb
  exact ⟨_, x, y, hv, hv.symm ▸ hsum, hval, finishDrawn_drawUntil_got hskip hs hb hkey _⟩

/-! ### SIGN (R351, R352) -/

/-- What an attempt computes decides whether SIGN takes it (R352). -/
theorem signAttempt_of_attempt {e d k r sg : Nat} (h1 : 1 ≤ k) (h2 : k < Config.n) (h : Attempt e d k r sg) :
    signAttempt e d k = if r ≠ 0 ∧ sg ≠ 0 then .ok (some (r, sg)) else .ok none := by
  obtain ⟨r', sg', h', heq⟩ := signAttempt_spec e d h1 h2
  obtain ⟨rfl, rfl⟩ := attempt_unique (mod_n_ne_zero h1 h2) h h'
  exact heq

/-- A word that is not 0 modulo n gives a nonce in [1, n - 1] (R292). -/
theorem nonce_range {w : Nat} (hw : w % Config.n ≠ 0) : 1 ≤ w % Config.n ∧ w % Config.n < Config.n :=
  ⟨Nat.one_le_iff_ne_zero.2 hw, Nat.mod_lt w n_prime.pos⟩

/-- The answers R352 turns away are those SIGN's loop turns away. -/
theorem turnedAway_of_rejectedBySign {e d : Nat} {w : Draw} (h : w.rejectedBySign e d) :
    TurnedAway (signAttempt e d) w := by
  cases w with
  | fail => exact h
  | word b =>
    by_cases hb : b.toNat % Config.n = 0
    · exact .inl hb
    · obtain h0 | ⟨r, sg, hatt, hzero⟩ := h
      · exact .inl h0
      · obtain ⟨h1, h2⟩ := nonce_range hb
        exact .inr ((signAttempt_of_attempt h1 h2 hatt).trans (if_neg fun hne => hzero.elim hne.1 hne.2))

/-- What SIGN commits: its two destinations (R351). -/
def commitSignature (a b : XReg) (s : State) (rs : Nat × Nat) : State :=
  (s.writeX a (toVal rs.1)).writeX b (toVal rs.2)

section Sign

variable {s t : State} {a b c : XReg}

/-- One register for both destinations: ILLEGAL (R119, log 14). -/
theorem exec_sign_same (s : State) (a c : XReg) : exec (.sign a a c) s = .next (s.completedOnly 0x01#8) := by
  rw [exec, execSign, execSignWith, if_pos rfl]; exact finish_error s .illegal

/-- A failing check: its code, and no draw (R351, R391). -/
theorem exec_sign_of_error (hab : a ≠ b) {e : Err} (h : s.signInput hashH (s.readX c).toNat = .error e) :
    exec (.sign a b c) s = .next (s.completedOnly e.code) := by
  rw [exec, execSign, execSignWith, if_neg hab, h]; exact finish_error s e

theorem signInput_of_length (h : s.msgMax.toNat < s.msgLen.toNat) (d : Nat) :
    s.signInput hashH d = .error .length := by
  rw [State.signInput, message_error h]

theorem signInput_of_range (hm : s.msgLen.toNat ≤ s.msgMax.toNat) {d : Nat} (hd : d = 0 ∨ Config.n ≤ d) :
    s.signInput hashH d = .error .scalarRange := by
  rw [State.signInput, message_ok (messageIs_bytes hm)]; exact if_pos hd

theorem signInput_of_ok {bytes : List Byte} (hm : s.messageIs bytes) {d : Nat} (h1 : 1 ≤ d) (h2 : d < Config.n) :
    s.signInput hashH d = .ok (bigEndianValue (hashH bytes)) := by
  rw [State.signInput, message_ok hm, ← intBE_eq]; exact if_neg (by omega)

/-- SIGN past its checks is a command that draws. -/
theorem exec_sign_of_ok (hab : a ≠ b) {e : Nat} (h : s.signInput hashH (s.readX c).toNat = .ok e) :
    exec (.sign a b c) s =
      finishDrawn s (drawUntil (signAttempt e (s.readX c).toNat) s.draws) (commitSignature a b) := by
  rw [exec, execSign, execSignWith, if_neg hab, h]; rfl

end Sign

/-- Settles O55: past its checks SIGN draws, its attempts are those of R351, and a nonce in [1, n - 1] has one. -/
theorem signResults : Obligations.SignResults := by
  rintro s a b c bytes e d turned hab hm rfl rfl hd1 hd2 hturned
  have hskip w (hw : w ∈ turned) := turnedAway_of_rejectedBySign (hturned w hw)
  rw [exec_sign_of_ok hab (signInput_of_ok hm hd1 hd2)]
  refine ⟨fun w rest r sg hs hw hatt hr hsg => ?_, fun rest hs => finishDrawn_drawUntil_fail hskip hs _,
    fun hs => finishDrawn_drawUntil_waiting hskip hs _, fun k h1 h2 => ?_⟩
  · obtain ⟨h1, h2⟩ := nonce_range hw
    exact finishDrawn_drawUntil_got hskip hs hw ((signAttempt_of_attempt h1 h2 hatt).trans (if_pos ⟨hr, hsg⟩)) _
  · obtain ⟨r, sg, hatt, -⟩ := signAttempt_spec _ (s.readX c).toNat h1 h2
    exact ⟨r, sg, hatt⟩

/-! ### VERIFY (R360 to R362) -/

/-- r and s in [1, n - 1] (R361). -/
def SignatureInRange (r sg : Nat) : Prop := 1 ≤ r ∧ r < Config.n ∧ 1 ≤ sg ∧ sg < Config.n

theorem signatureInRange_iff {r sg : Nat} :
    SignatureInRange r sg ↔ (inScalarRange r && inScalarRange sg) = true := by
  simp [SignatureInRange, inScalarRange, and_assoc]

/-- What VERIFY asks of its operands before any arithmetic: the message's length, r and s in range, and an affine valid
public key. -/
structure VerifyChecks (s : State) (a b : XReg) (q : PReg) (bytes : List Byte) : Prop where
  message : s.messageIs bytes
  range   : SignatureInRange (s.readX a).toNat (s.readX b).toNat
  affine  : s.readP q ≠ .inf
  valid   : (s.readP q).valid = true

section Verify

variable {s t : State} {a b : XReg} {q : PReg}

/-- VERIFY ends by its verdict. -/
theorem exec_verify (s : State) (a b : XReg) (q : PReg) :
    exec (.verify a b q) s =
      finish s ((s.verdict hashH (s.readX a).toNat (s.readX b).toNat (s.readP q)).map s.writeFlag) := rfl

/-- MSG_LEN above MSG_MAX: LENGTH (R391). -/
theorem exec_verify_of_length (h : s.msgMax.toNat < s.msgLen.toNat) (a b : XReg) (q : PReg) :
    exec (.verify a b q) s = .next (s.completedOnly 0x02#8) := by
  rw [exec_verify, State.verdict, message_error h]; exact finish_error s .length

/-- r or s out of range: rejected, whatever the public key (R361). -/
theorem exec_verify_of_range (hm : s.msgLen.toNat ≤ s.msgMax.toNat)
    (h : ¬SignatureInRange (s.readX a).toNat (s.readX b).toNat) (q : PReg) :
    exec (.verify a b q) s = .next ({ s with flag := false }.completedOnly 0x00#8) := by
  rw [signatureInRange_iff, Bool.not_eq_true] at h
  rw [exec_verify, State.verdict, message_ok (messageIs_bytes hm)]
  dsimp only
  rw [h]
  exact finish_ok s _

/-- O or an invalid public key: BAD_POINT (R362). -/
theorem exec_verify_of_point (hm : s.msgLen.toNat ≤ s.msgMax.toNat)
    (h : SignatureInRange (s.readX a).toNat (s.readX b).toNat)
    (hq : s.readP q = .inf ∨ (s.readP q).valid = false) :
    exec (.verify a b q) s = .next (s.completedOnly 0x22#8) := by
  rw [signatureInRange_iff] at h
  rw [exec_verify, State.verdict, message_ok (messageIs_bytes hm)]
  dsimp only
  rw [h, if_neg (by decide), if_pos (by simpa using hq)]
  exact finish_error s .badPoint

/-- Past its checks VERIFY writes the verdict of its core (R360). -/
theorem exec_verify_of_checks {bytes : List Byte} (h : VerifyChecks s a b q bytes) {f : Bool}
    (hcore : verifyCore (bigEndianValue (hashH bytes)) (s.readX a).toNat (s.readX b).toNat (s.readP q) = .ok f) :
    exec (.verify a b q) s = .next ({ s with flag := f }.completedOnly 0x00#8) := by
  obtain ⟨hr1, hr2, hs1, hs2⟩ := h.range
  rw [verify_exec h.message hr1 hr2 hs1 hs2 h.affine h.valid, hcore]; exact finish_ok s _

/-- VERIFY accepts only past its checks, by its core. -/
theorem verifyChecks_of_accepts (ht : exec (.verify a b q) s = .next t) (herr : t.errcode = 0#8)
    (hflag : t.flag = true) :
    ∃ bytes, VerifyChecks s a b q bytes ∧
      verifyCore (bigEndianValue (hashH bytes)) (s.readX a).toNat (s.readX b).toNat (s.readP q) = .ok true := by
  by_cases hm : s.msgMax.toNat < s.msgLen.toNat
  · obtain rfl := next_unique (exec_verify_of_length hm a b q) ht
    exact absurd herr (code_ne_ok .length)
  rw [not_lt] at hm
  by_cases hrange : SignatureInRange (s.readX a).toNat (s.readX b).toNat
  swap
  · obtain rfl := next_unique (exec_verify_of_range hm hrange q) ht
    cases hflag
  by_cases hq : s.readP q = .inf ∨ (s.readP q).valid = false
  · obtain rfl := next_unique (exec_verify_of_point hm hrange hq) ht
    exact absurd herr (code_ne_ok .badPoint)
  obtain ⟨haff, hval⟩ := not_or.1 hq
  have hchecks : VerifyChecks s a b q _ := ⟨messageIs_bytes hm, hrange, haff, by simpa using hval⟩
  obtain ⟨t1, t2, T, -, -, -, hcore⟩ := verifyCore_spec (bigEndianValue (hashH (s.mem.readBytes 0x1000 s.msgLen.toNat)))
    (s.readX a).toNat (sg := (s.readX b).toNat) hchecks.valid
  obtain rfl := next_unique (exec_verify_of_checks hchecks hcore) ht
  exact ⟨_, hchecks, hcore.trans (congrArg Except.ok hflag)⟩

end Verify

/-- Settles O56: each check of SIGN and of VERIFY, past those before it. -/
theorem signAndVerifyChecks : Obligations.SignAndVerifyChecks := by
  intro s a b c q
  refine ⟨exec_sign_same s a c, fun hab hlen => exec_sign_of_error hab (signInput_of_length hlen _),
    fun hab hm hd => exec_sign_of_error hab (signInput_of_range hm hd), fun hlen => exec_verify_of_length hlen a b q,
    fun hm hrange => exec_verify_of_range hm (by unfold SignatureInRange; omega) q, fun hm hr1 hr2 hs1 hs2 hq => ?_⟩
  exact exec_verify_of_point hm ⟨hr1, hr2, hs1, hs2⟩ hq

/-- When T accepts (R360). -/
theorem acceptsPoint_iff {r : Nat} {T : Point} :
    acceptsPoint r T = true ↔ ∃ x y, T = .aff x y ∧ x.toNat % Config.n = r := by
  cases T <;> simp [acceptsPoint]

/-- Settles O57: the core of VERIFY is the k-fold sums and `add`, with the inverse modulo n. -/
theorem verifyVerdict : Obligations.VerifyVerdict := by
  rintro s a b q bytes r sg hm rfl rfl hr1 hr2 hs1 hs2 htag hval
  have hchecks : VerifyChecks s a b q bytes :=
    ⟨hm, ⟨hr1, hr2, hs1, hs2⟩, by rw [readP_of_inf_false htag]; exact Point.noConfusion, hval⟩
  obtain ⟨hinv, -, hlt⟩ := invMod_n (mod_n_ne_zero hs1 hs2)
  obtain ⟨t1, t2, T, h1, h2, hadd, hcore⟩ := verifyCore_spec (bigEndianValue (hashH bytes)) (s.readX a).toNat
    (sg := (s.readX b).toNat) hval
  exact ⟨_, t1, t2, T, _, hlt, hinv, h1, h2, hadd, acceptsPoint_iff, exec_verify_of_checks hchecks hcore⟩

/-! ### The core of VERIFY in the group (R364) -/

/-- Multiples by congruent numbers are the same point. -/
theorem smul_of_modEq {j k : Nat} (h : j ≡ k [MOD Config.n]) (Q : curve.Point) :
    haveI := fact_p
    j • Q = k • Q := by
  rw [← smul_mod j, h, smul_mod k]

theorem mul_invMod_modEq {sg : Nat} (h : sg % Config.n ≠ 0) : sg * invMod Config.n sg ≡ 1 [MOD Config.n] :=
  (invMod_n h).1.trans (Nat.mod_eq_of_lt n_prime.one_lt).symm

section Core

variable {e r sg w : Nat} {q T : Point} {G Q : curve.Point}

/-- T stands for w·(e·G + r·Q), with w the inverse of s. -/
theorem exists_verifyPoint (e r sg : Nat) (hG : Reps generator G) (hQ : Reps q Q) :
    haveI := fact_p
    ∃ T, Reps T (invMod Config.n sg • (e • G + r • Q)) ∧ verifyCore e r sg q = .ok (acceptsPoint r T) := by
  have := fact_p
  obtain ⟨T, hT, hcore⟩ := verifyCore_reps e r (sg := sg) hG hQ
  refine ⟨T, ?_, hcore⟩
  rwa [smul_mod, smul_mod, mul_comm e, mul_comm r, mul_smul, mul_smul, ← nsmul_add] at hT

/-- The point may be taken with any w that is an inverse of s modulo n. -/
theorem verifyCore_of_inverse (hG : Reps generator G) (hQ : Reps q Q) (hsg : sg % Config.n ≠ 0)
    (hw : sg * w ≡ 1 [MOD Config.n]) (hT : haveI := fact_p; Reps T (w • (e • G + r • Q))) :
    verifyCore e r sg q = .ok (acceptsPoint r T) := by
  obtain ⟨T', hT', hcore⟩ := exists_verifyPoint e r sg hG hQ
  rw [smul_of_modEq (cancel_n hsg ((mul_invMod_modEq hsg).trans hw.symm))] at hT'
  rw [hcore, hT'.value_unique hT]

/-- A signature's core accepts it under the public key d·G: w·(e + r·d)·G = k·G (R364). -/
theorem verifyCore_of_attempt {d k : Nat} (hq : kFoldSum generator d = .ok q) (hatt : Attempt e d k r sg)
    (hsg : sg ≠ 0) : verifyCore e r sg q = .ok true := by
  have := fact_p
  obtain ⟨G, hG⟩ := exists_generator
  obtain ⟨q', hq', hQ⟩ := kFoldSum_reps hG d
  obtain rfl : q = q' := Except.ok.inj (hq.symm.trans hq')
  obtain ⟨x, y, hR, rfl⟩ := hatt.r_eq
  obtain ⟨R, hR', hK⟩ := kFoldSum_reps hG k
  obtain rfl : Point.aff x y = R := Except.ok.inj (hR.symm.trans hR')
  have hsg0 := mod_n_ne_zero (Nat.one_le_iff_ne_zero.2 hsg) hatt.s_lt
  have hk : invMod Config.n sg * (e + x.toNat % Config.n * d) ≡ k [MOD Config.n] :=
    calc invMod Config.n sg * (e + x.toNat % Config.n * d)
        ≡ invMod Config.n sg * (k * sg) [MOD Config.n] := Nat.ModEq.mul_left _ hatt.s_eq.symm
      _ = k * (sg * invMod Config.n sg) := by ring
      _ ≡ k * 1 [MOD Config.n] := (mul_invMod_modEq hsg0).mul_left k
      _ = k := mul_one k
  rw [← smul_of_modEq hk, mul_smul, add_smul, mul_smul] at hK
  rw [verifyCore_of_inverse hG hQ hsg0 (mul_invMod_modEq hsg0) hK]
  simp [acceptsPoint]

/-- The inverse of a point accepts where it does: its x is the same. -/
theorem acceptsPoint_neg (r : Nat) (T : Point) : acceptsPoint r T.neg = acceptsPoint r T := by cases T <;> rfl

/-- (n - a)·(n - b) is a·b modulo n. -/
theorem sub_mul_sub_modEq {n a b : Nat} (ha : a ≤ n) (hb : b ≤ n) : (n - a) * (n - b) ≡ a * b [MOD n] := by
  have h1 : (n - a) * (n - b) + a * (n - b) ≡ 0 [MOD n] := by
    rw [← add_mul, Nat.sub_add_cancel ha]; simp [Nat.ModEq]
  have h2 : a * b + a * (n - b) ≡ 0 [MOD n] := by
    rw [← mul_add, Nat.add_sub_cancel' hb]; simp [Nat.ModEq]
  exact Nat.ModEq.add_right_cancel' _ (h1.trans h2.symm)

/-- The core of VERIFY gives (r, n - s) the verdict of (r, s): w is negated, and T with it (R364). -/
theorem verifyCore_sub (e r : Nat) (h1 : 1 ≤ sg) (h2 : sg < Config.n) (hq : q.valid = true) :
    verifyCore e r (Config.n - sg) q = verifyCore e r sg q := by
  have := fact_p
  obtain ⟨G, hG⟩ := exists_generator
  obtain ⟨Q, hQ⟩ := (valid_iff_reps q).1 hq
  obtain ⟨T, hT, hcore⟩ := exists_verifyPoint e r sg hG hQ
  have hsg := mod_n_ne_zero h1 h2
  obtain ⟨-, -, hlt⟩ := invMod_n hsg
  have hw : (Config.n - sg) * (Config.n - invMod Config.n sg) ≡ 1 [MOD Config.n] :=
    (sub_mul_sub_modEq h2.le hlt.le).trans (mul_invMod_modEq hsg)
  have hneg : (Config.n - invMod Config.n sg) • (e • G + r • Q) = -(invMod Config.n sg • (e • G + r • Q)) := by
    rw [eq_neg_iff_add_eq_zero, ← add_smul, Nat.sub_add_cancel hlt.le, n_smul]
  rw [hcore, verifyCore_of_inverse hG hQ (mod_n_ne_zero (by omega) (by omega)) hw (hneg ▸ neg_reps hT),
    acceptsPoint_neg]

end Core

/-! ### What SIGN's ends are -/

/-- What SIGN has done where it completes without error: a signature of the message under the key, written to its two
destinations. -/
structure Signed (s t : State) (a b c : XReg) (bytes : List Byte) (k r sg : Nat) (rest : List Draw) : Prop where
  ne      : a ≠ b
  message : s.messageIs bytes
  d_pos   : 1 ≤ (s.readX c).toNat
  d_lt    : (s.readX c).toNat < Config.n
  attempt : Attempt (bigEndianValue (hashH bytes)) (s.readX c).toNat k r sg
  r_ne    : r ≠ 0
  s_ne    : sg ≠ 0
  commit  : t = (commitSignature a b { s with draws := rest } (r, sg)).completeWith okCode

section Ends

variable {s t : State} {a b c : XReg}

/-- An attempt that SIGN takes is a nonce's of R351, its r and s not 0. -/
theorem attempt_of_signAttempt {e d k r sg : Nat} (h1 : 1 ≤ k) (h2 : k < Config.n)
    (h : signAttempt e d k = .ok (some (r, sg))) : Attempt e d k r sg ∧ r ≠ 0 ∧ sg ≠ 0 := by
  obtain ⟨r', sg', hatt, heq⟩ := signAttempt_spec e d h1 h2
  rw [heq] at h
  split at h
  · cases h
    exact ⟨hatt, ‹_›⟩
  · cases h

/-- SIGN's checks: one of them fails, or there is a message and d is in [1, n - 1] (R351). -/
theorem signInput_cases (s : State) (d : Nat) :
    (∃ e, s.signInput hashH d = .error e) ∨ ∃ bytes, s.messageIs bytes ∧ 1 ≤ d ∧ d < Config.n ∧
      s.signInput hashH d = .ok (bigEndianValue (hashH bytes)) := by
  by_cases hlen : s.msgMax.toNat < s.msgLen.toNat
  · exact .inl ⟨_, signInput_of_length hlen d⟩
  rw [not_lt] at hlen
  by_cases hd : d = 0 ∨ Config.n ≤ d
  · exact .inl ⟨_, signInput_of_range hlen hd⟩
  obtain ⟨h1, h2⟩ : 1 ≤ d ∧ d < Config.n := by omega
  exact .inr ⟨_, messageIs_bytes hlen, h1, h2, signInput_of_ok (messageIs_bytes hlen) h1 h2⟩

/-- The ends of SIGN: an error, waiting, or a signature (R351, R383). -/
theorem sign_cases (h : exec (.sign a b c) s = .next t) :
    (∃ (e : Err) (rest : List Draw), t = { s with draws := rest }.completeWith e.code) ∨ t = { s with draws := [] } ∨
      ∃ bytes k r sg rest, Signed s t a b c bytes k r sg rest := by
  by_cases hab : a = b
  · subst hab
    exact .inl ⟨.illegal, s.draws, next_unique h (exec_sign_same s a c)⟩
  obtain ⟨e, he⟩ | ⟨bytes, hm, hd1, hd2, hok⟩ := signInput_cases s (s.readX c).toNat
  · exact .inl ⟨e, s.draws, next_unique h (exec_sign_of_error hab he)⟩
  rw [exec_sign_of_ok hab hok] at h
  obtain ⟨⟨r, sg⟩, w, pre, rest, hd, -, hw, hatt⟩ | ⟨e, pre, d, rest, hd, -⟩ | ⟨hd, -⟩ := drawUntil_cases
    (signAttempt (bigEndianValue (hashH bytes)) (s.readX c).toNat) s.draws
  · obtain ⟨h1, h2⟩ := nonce_range hw
    obtain ⟨hatt, hr, hsg⟩ := attempt_of_signAttempt h1 h2 hatt
    rw [hd] at h
    exact .inr (.inr ⟨bytes, _, r, sg, rest, hab, hm, hd1, hd2, hatt, hr, hsg, next_unique h rfl⟩)
  · rw [hd] at h
    exact .inl ⟨e, rest, next_unique h rfl⟩
  · rw [hd] at h
    exact .inr (.inl (next_unique h rfl))

end Ends

/-- Settles O60: by the ends of SIGN, and by VERIFY's verdict. -/
theorem signAndVerifyWriteNoMore : Obligations.SignAndVerifyWriteNoMore := by
  refine ⟨fun s t a b c h => ?_, fun s t a b q h => ?_⟩
  · obtain ⟨e, rest, rfl⟩ | rfl | ⟨bytes, k, r, sg, rest, hs⟩ := sign_cases h
    · exact ⟨rfl, fun _ _ _ => rfl⟩
    · exact ⟨rfl, fun _ _ _ => rfl⟩
    · obtain rfl := hs.commit
      exact ⟨rfl, fun i ha hb => (readX_writeX_of_ne _ _ hb.symm).trans (readX_writeX_of_ne _ _ ha.symm)⟩
  · rw [exec_verify] at h
    obtain rfl := next_unique h rfl
    cases s.verdict hashH (s.readX a).toNat (s.readX b).toNat (s.readP q) <;> rfl

/-- The destinations hold the signature, and VERIFY's checks pass for it under an affine valid key. -/
theorem Signed.verifyChecks {s t : State} {a b c : XReg} {bytes : List Byte} {k r sg : Nat} {rest : List Draw}
    (h : Signed s t a b c bytes k r sg rest) {q : PReg} (haff : s.readP q ≠ .inf) (hval : (s.readP q).valid = true) :
    (t.readX a).toNat = r ∧ (t.readX b).toNat = sg ∧ VerifyChecks t a b q bytes := by
  have hr_lt : r < Config.n := by
    obtain ⟨x, y, -, rfl⟩ := h.attempt.r_eq
    exact Nat.mod_lt _ n_prime.pos
  obtain rfl := h.commit
  have ha : ((commitSignature a b { s with draws := rest } (r, sg)).readX a).toNat = r := by
    rw [commitSignature, readX_writeX_of_ne _ _ h.ne.symm, readX_writeX_self, toNat_toVal (lt_trans hr_lt n_lt)]
  have hb : ((commitSignature a b { s with draws := rest } (r, sg)).readX b).toNat = sg := by
    rw [commitSignature, readX_writeX_self, toNat_toVal (lt_trans h.attempt.s_lt n_lt)]
  rw [readX_completeWith, readX_completeWith]
  exact ⟨ha, hb, {
    message := h.message
    range := by
      rw [readX_completeWith, readX_completeWith, ha, hb]
      exact ⟨Nat.one_le_iff_ne_zero.2 h.r_ne, hr_lt, Nat.one_le_iff_ne_zero.2 h.s_ne, h.attempt.s_lt⟩
    affine := haff
    valid := hval }⟩

/-- Settles O58: a signature has passed SIGN's checks, its public key is affine and valid, and the core accepts it. -/
theorem signThenVerify : Obligations.SignThenVerify := by
  intro s t a b c q hbusy _ hq h hidle herr
  obtain ⟨e, rest, rfl⟩ | rfl | ⟨bytes, k, r, sg, rest, hs⟩ := sign_cases h
  · exact absurd herr (code_ne_ok e)
  · exact absurd (hbusy.symm.trans hidle) (by decide)
  obtain ⟨x, y, -, hkey, hval⟩ := scalarMult_generator_aff (mod_n_ne_zero hs.d_pos hs.d_lt) (lt_trans hs.d_lt n_lt)
  have hpt : s.readP q = .aff x y := Except.ok.inj (hq.symm.trans hkey)
  obtain ⟨hr, hsg, hchecks⟩ := hs.verifyChecks (q := q) (by rw [hpt]; exact Point.noConfusion) (hpt ▸ hval)
  have hkeep : t.readP q = s.readP q := by rw [hs.commit]; rfl
  refine ⟨_, exec_verify_of_checks hchecks (f := true) ?_, rfl, rfl⟩
  rw [hr, hsg, hkeep]
  exact verifyCore_of_attempt hq hs.attempt hs.s_ne

/-- Settles O59: where VERIFY accepts its checks have passed; n - s passes them too, and the core's verdict is one. -/
theorem malleability : Obligations.Malleability := by
  intro s t a b q hab ht herr hflag
  obtain ⟨bytes, h, hcore⟩ := verifyChecks_of_accepts ht herr hflag
  have hv : (toVal (Config.n - (s.readX b).toNat)).toNat = Config.n - (s.readX b).toNat :=
    toNat_toVal (lt_of_le_of_lt (Nat.sub_le _ _) n_lt)
  have hr : (s.writeX b (toVal (Config.n - (s.readX b).toNat))).readX a = s.readX a := readX_writeX_of_ne s _ hab.symm
  obtain ⟨hr1, hr2, hs1, hs2⟩ := h.range
  have h' : VerifyChecks (s.writeX b (toVal (Config.n - (s.readX b).toNat))) a b q bytes := {
    message := h.message
    range := by
      rw [hr, readX_writeX_self, hv]
      exact ⟨hr1, hr2, Nat.sub_pos_of_lt hs2, Nat.sub_lt n_prime.pos hs1⟩
    affine := h.affine
    valid := h.valid }
  refine ⟨_, exec_verify_of_checks h' (f := true) ?_, rfl, rfl⟩
  rw [readX_writeX_self, hv, hr]
  exact (verifyCore_sub _ _ hs1 hs2 h.valid).trans hcore

end Sys2Proof.Proofs
end

section
/-! SUPPORT. The engine (60_exceptions.md R380 to R386, R400): its turn is `exec` of the word in CMD; how a command
ends, and what an error leaves; its two phases, the interrupt line, and what each agent's turn does to them. -/

namespace Sys2Proof.Proofs

open Sys2Proof.Machine Sys2Proof.Laws

/-! ### Its turn (R382, R400) -/

section Turn

variable {s : State} {rest : List Event}

/-- With no turn laid down it is the engine's (log 3). -/
theorem step_unscheduled (h : s.pending = []) : step s = engineStepBy exec s := by rw [step, stepBy, h]

theorem step_engine (h : s.pending = .engine :: rest) : step s = engineStepBy exec { s with pending := rest } := by
  rw [step, stepBy, h]

theorem step_oracle {w : Draw} (h : s.pending = .oracle w :: rest) :
    step s = .next ({ s with pending := rest }.addDraw w) := by
  rw [step, stepBy, h]

/-- An idle engine holds its state (R400). -/
theorem engineStep_idle (h : s.phase = .idle) : engineStepBy exec s = .next s := by rw [engineStepBy, h]

/-- A busy engine runs the word of CMD (R382). -/
theorem engineStep_exec {i : Instr} (h : s.phase = .busy) (hi : decode s.cmd = .ok i) :
    engineStepBy exec s = exec i s := by
  simp only [engineStepBy, h, engineTurnBy, State.fetch, hi]

/-- The placed word is accepted, and where turns are laid down the engine's is put before them (R37, log 3). -/
theorem withFetchWord_eq (s : State) {w : Nat} (hw : w < 2 ^ 32) : s.withFetchWord 32 w =
    { s.accept (BitVec.ofNat 32 w) with pending := if s.pending = [] then [] else .engine :: s.pending } := by
  rw [State.withFetchWord, Nat.mod_eq_of_lt hw]
  cases s.pending <;> rfl

/-- The very next step runs the placed word (log 3). -/
theorem step_withFetchWord {w : Nat} {i : Instr} (hw : w < 2 ^ 32) (hi : decode (BitVec.ofNat 32 w) = .ok i) :
    step (s.withFetchWord 32 w) = exec i (s.accept (BitVec.ofNat 32 w)) := by
  rw [withFetchWord_eq s hw]
  by_cases hp : s.pending = []
  · rw [if_pos hp, ← hp]
    exact (step_unscheduled (s := s.accept (BitVec.ofNat 32 w)) hp).trans (engineStep_exec rfl hi)
  · rw [if_neg hp]
    exact step_engine_exec (s := { s.accept (BitVec.ofNat 32 w) with pending := .engine :: s.pending }) rfl rfl hi

end Turn

/-- Settles O7: the engine's turn in each phase, laid down or not, and the placed word. -/
theorem stepRunsDecodedInstruction : Obligations.StepRunsDecodedInstruction :=
  ⟨fun _ _ hb hi => ⟨fun h => (step_unscheduled h).trans (engineStep_exec hb hi), fun _ h => step_engine_exec h hb hi⟩,
    fun _ hi => ⟨fun h => (step_unscheduled h).trans (engineStep_idle hi),
      fun _ h => (step_engine h).trans (engineStep_idle hi)⟩,
    fun _ _ _ hw hi => step_withFetchWord hw hi⟩

/-! ### No command stops it (R385, R393) -/

theorem exists_exec_next (i : Instr) (s : State) : ∃ t, exec i s = .next t := by
  obtain ⟨_, -, h⟩ | ⟨_, _, -, -, h⟩ | ⟨-, -, h⟩ := exec_ends i s <;> exact ⟨_, h⟩

theorem exists_engineStep_next (s : State) : ∃ t, engineStepBy exec s = .next t := by
  unfold engineStepBy engineTurnBy
  split
  · exact ⟨s, rfl⟩
  · split
    · exact exists_exec_next _ s
    · exact ⟨_, rfl⟩

/-- Settles O12: every end of a command is a next state, and of the agents' turns only the host's can stop. -/
theorem noCommandStops : Obligations.NoCommandStops := by
  refine ⟨exists_exec_next, fun s hin => ?_, fun s a rest h hoff => step_outside h hoff⟩
  cases hp : s.pending with
  | nil => rw [step_unscheduled hp]; exact exists_engineStep_next s
  | cons turn rest =>
    cases turn with
    | access a => exact ⟨_, step_access hp (hin (.access a) (by simp [hp]))⟩
    | hardReset => exact ⟨_, step_hardReset hp⟩
    | engine => rw [step_engine hp]; exact exists_engineStep_next _
    | oracle d => exact ⟨_, step_oracle hp⟩

/-! ### How a command ends (R383, R384) -/

/-- Settles O14: the first two ends of a command complete it, the third is the waiting. -/
theorem commandEndsOrWaits : Obligations.CommandEndsOrWaits := by
  intro i s t h
  obtain ⟨s', -, rfl⟩ | ⟨e, rest, -, -, rfl⟩ | hwaits := exec_cases h
  · exact .inl ⟨rfl, rfl, by simp [okCode, errorCodes]⟩
  · exact .inl ⟨rfl, rfl, code_mem e⟩
  · exact .inr hwaits

/-- Settles O15: only the second end of a command has an error code, and it has written nothing. -/
theorem errorsWriteNothing : Obligations.ErrorsWriteNothing := by
  intro i s t hzero h herr
  obtain ⟨s', -, rfl⟩ | ⟨e, rest, hsuffix, hrest, rfl⟩ | ⟨-, -, rfl⟩ := exec_cases h
  · exact absurd rfl herr
  · exact ⟨rfl, hsuffix, hrest⟩
  · exact absurd hzero herr

/-! ### Its phases (R380) -/

section Phases

variable {s t : State} {rest : List Event}

theorem getLsbD_statusWord_busy (s : State) : s.statusWord.getLsbD 0 = s.busy := by
  simp [statusWord_bits]

theorem busy_iff : s.busy = true ↔ s.phase = .busy := by simp [State.busy]

/-- The engine's turn holds an idle engine; a busy one completes, or waits. -/
theorem engineStep_ends (h : engineStepBy exec s = .next t) :
    (s.phase = .idle ∧ t = s) ∨
      (s.phase = .busy ∧ ((t.phase = .idle ∧ t.done = true ∧ t.ie = s.ie) ∨ t = { s with draws := [] })) := by
  obtain ⟨hi, rfl⟩ | ⟨hb, i, -, hex⟩ | ⟨hb, e, -, rfl⟩ := engine_cases h
  · exact .inl ⟨hi, rfl⟩
  · obtain ⟨s', hw, rfl⟩ | ⟨e, rest, -, -, rfl⟩ | ⟨-, -, rfl⟩ := exec_cases hex
    · exact .inr ⟨hb, .inl ⟨rfl, rfl, hw.ie⟩⟩
    · exact .inr ⟨hb, .inl ⟨rfl, rfl, rfl⟩⟩
    · exact .inr ⟨hb, .inr rfl⟩
  · exact .inr ⟨hb, .inl ⟨rfl, rfl, rfl⟩⟩

/-- A store keeps the phase, but for CMD and the soft reset. -/
theorem storeAt_phase (s : State) {d : Word32} {l : Location} (hcmd : l ≠ .cmd)
    (hsrst : ¬(l = .ctrl ∧ d.getLsbD 1 = true)) : (s.storeAt d l).phase = s.phase := by
  cases l with
  | cmd => exact absurd rfl hcmd
  | ctrl => rw [State.storeAt, writeCtrl_of_not_srst (by simpa using hsrst)]
  | txt off | msg off => rw [State.storeAt, writeBufferWord_eq]
  | _ => rfl

/-- A word write, by what it writes and where. -/
theorem eq_wordWrite {a : Access} {d : Word32} {off : Nat} (hkind : a.kind = .write d) (hbytes : a.bytes = 4)
    (hoff : a.offset = off) : a = ⟨.write d, off, 4⟩ := by
  rw [← hkind, ← hbytes, ← hoff]

/-- The host changes the phase only by starting an idle engine, and by the soft reset of a busy one. -/
theorem phase_of_access {a : Access} (h : s.pending = .access a :: rest) (ht : step s = .next t)
    (hne : t.phase ≠ s.phase) :
    ∃ d, (s.phase = .idle ∧ a = ⟨.write d, 0x0010, 4⟩) ∨
      (s.phase = .busy ∧ a = ⟨.write d, 0x0008, 4⟩ ∧ d.getLsbD 1 = true) := by
  obtain ⟨hoff, ⟨-, rfl⟩ | ⟨-, -, rfl⟩ | ⟨d, hacc, hkind, rfl⟩⟩ := access_cases h ht
  · exact absurd rfl hne
  · exact absurd rfl hne
  obtain ⟨hbytes, halign⟩ := wellSized_of_accepted hacc
  obtain ⟨hctrl, -, hcmd⟩ := target_iff (s := s) halign hoff
  by_cases htcmd : s.target a = .cmd
  · rw [htcmd] at hne
    refine ⟨d, .inl ⟨?_, eq_wordWrite hkind hbytes (hcmd.1 htcmd)⟩⟩
    cases hp : s.phase with
    | idle => rfl
    | busy => exact absurd hp.symm hne
  by_cases hsrst : s.target a = .ctrl ∧ d.getLsbD 1 = true
  · rw [hsrst.1, State.storeAt, writeCtrl_of_srst hsrst.2] at hne
    refine ⟨d, .inr ⟨?_, eq_wordWrite hkind hbytes (hctrl.1 hsrst.1), hsrst.2⟩⟩
    cases hp : s.phase with
    | idle => exact absurd hp.symm hne
    | busy => rfl
  · exact absurd (storeAt_phase { s with pending := rest } htcmd hsrst) hne

/-- What takes an idle engine to BUSY: by the agent whose turn it is, only the host's CMD write. -/
theorem cmdWrite_of_start (hs : s.phase = .idle) (ht : step s = .next t) (hbusy : t.phase = .busy) :
    ∃ d rest, s.pending = .access ⟨.write d, 0x0010, 4⟩ :: rest := by
  have hne : t.phase ≠ s.phase := by rw [hs, hbusy]; decide
  have holds {u : State} (hu : u.phase = s.phase) : ¬engineStepBy exec u = .next t := by
    intro he
    obtain ⟨-, rfl⟩ | ⟨hb, -⟩ := engineStep_ends he
    · exact hne hu
    · exact absurd (hs.symm.trans (hu.symm.trans hb)) (by decide)
  obtain ⟨-, he⟩ | ⟨rest, -, he⟩ | ⟨a, rest, hp⟩ | ⟨rest, -, rfl⟩ | ⟨d, rest, -, rfl⟩ := step_cases ht
  · exact absurd he (holds rfl)
  · exact absurd he (holds rfl)
  · obtain ⟨d, ⟨-, rfl⟩ | ⟨hb, -⟩⟩ := phase_of_access hp ht hne
    · exact ⟨d, rest, hp⟩
    · exact absurd (hs.symm.trans hb) (by decide)
  · cases hbusy
  · exact absurd rfl hne

/-- What takes a busy engine to IDLE: its completion, the reset input, or the soft reset. -/
theorem end_cases_of_busy (hs : s.phase = .busy) (ht : step s = .next t) (hidle : t.phase = .idle) :
    (t.done = true ∧ (s.pending = [] ∨ ∃ rest, s.pending = .engine :: rest)) ∨
    (∃ rest, s.pending = .hardReset :: rest) ∨
    (∃ d rest, s.pending = .access ⟨.write d, 0x0008, 4⟩ :: rest ∧ d.getLsbD 1 = true) := by
  have hne : t.phase ≠ s.phase := by rw [hs, hidle]; decide
  have completes {u : State} (hu : u.phase = s.phase) (he : engineStepBy exec u = .next t) : t.done = true := by
    obtain ⟨-, rfl⟩ | ⟨-, ⟨-, hdone, -⟩ | rfl⟩ := engineStep_ends he
    · exact absurd hu hne
    · exact hdone
    · exact absurd hu hne
  obtain ⟨hp, he⟩ | ⟨rest, hp, he⟩ | ⟨a, rest, hp⟩ | ⟨rest, hp, -⟩ | ⟨d, rest, -, rfl⟩ := step_cases ht
  · exact .inl ⟨completes rfl he, .inl hp⟩
  · exact .inl ⟨completes (u := { s with pending := rest }) rfl he, .inr ⟨rest, hp⟩⟩
  · obtain ⟨d, ⟨hi, -⟩ | ⟨-, rfl, hd⟩⟩ := phase_of_access hp ht hne
    · exact absurd (hs.symm.trans hi) (by decide)
    · exact .inr (.inr ⟨d, rest, hp, hd⟩)
  · exact .inr (.inl ⟨rest, hp⟩)
  · exact absurd rfl hne

end Phases

/-- Settles O9: the acceptance of a word, what starts the engine and what ends it, and the bit of STATUS. -/
theorem enginePhases : Obligations.EnginePhases :=
  ⟨rfl, fun _ _ _ hi h => ⟨_, step_write_cmd hi h, rfl, rfl, rfl, rfl⟩, fun _ _ => cmdWrite_of_start,
    fun _ _ => end_cases_of_busy, fun s => by rw [getLsbD_statusWord_busy, busy_iff]⟩

/-! ### The interrupt line (R386) -/

section Interrupt

variable {s t : State} {rest : List Event}

theorem irq_iff (s : State) : s.irq = true ↔ s.ie = true ∧ s.done = true := by simp [State.irq]

/-- The engine raises the line by completing while IE is 1, and changes it in no other way. -/
theorem irq_of_engineStep (h : engineStepBy exec s = .next t) :
    (s.phase = .busy → t.phase = .idle → t.irq = s.ie) ∧ (s.phase = .idle ∨ t.phase = .busy → t.irq = s.irq) := by
  obtain ⟨hi, rfl⟩ | ⟨hb, ⟨hi, hdone, hie⟩ | rfl⟩ := engineStep_ends h
  · exact ⟨fun hb => absurd (hi.symm.trans hb) (by decide), fun _ => rfl⟩
  · refine ⟨fun _ _ => by rw [State.irq, hdone, hie, Bool.and_true], fun hne => ?_⟩
    rw [hb, hi] at hne
    exact absurd hne (by decide)
  · exact ⟨fun _ hi => absurd (hb.symm.trans hi) (by decide), fun _ => rfl⟩

theorem irq_writeStatus (s : State) (d : Word32) : (s.writeStatus d).irq = (s.irq && !d.getLsbD 1) :=
  (Bool.and_assoc s.ie s.done _).symm

/-- A CTRL write makes the line its IE AND DONE; SRST takes both away (R422). -/
theorem irq_writeCtrl (s : State) (d : Word32) :
    (s.writeCtrl d).irq = if d.getLsbD 1 then false else d.getLsbD 0 && s.done := by
  cases hd : d.getLsbD 1 with
  | false => rw [writeCtrl_of_not_srst hd]; rfl
  | true => rw [writeCtrl_of_srst hd]; rfl

/-- An access that writes none of CTRL, STATUS and an idle CMD keeps the line. -/
theorem irq_of_access {a : Access} (h : s.pending = .access a :: rest) (ht : step s = .next t)
    (ha : a.kind = .read ∨ a.bytes ≠ 4 ∨
      (a.offset ≠ 0x0008 ∧ a.offset ≠ 0x000C ∧ (a.offset ≠ 0x0010 ∨ s.phase = .busy))) : t.irq = s.irq := by
  obtain ⟨hoff, ⟨-, rfl⟩ | ⟨-, -, rfl⟩ | ⟨d, hacc, hkind, hstored⟩⟩ := access_cases h ht
  · rfl
  · rfl
  obtain ⟨hbytes, halign⟩ := wellSized_of_accepted hacc
  obtain ⟨hctrl, hstatus, hcmd⟩ := target_iff (s := s) halign hoff
  have other (h08 : a.offset ≠ 0x0008) (h0C : a.offset ≠ 0x000C) (h10 : a.offset ≠ 0x0010) : t.irq = s.irq := by
    rw [hstored]
    exact (storeAt_frame { s with pending := rest } d (s.target a)).2 (mt hctrl.1 h08) (mt hstatus.1 h0C)
      (mt hcmd.1 h10)
  obtain hread | hwidth | ⟨hnctrl, hnstatus, hncmd | hb⟩ := ha
  · rw [hkind] at hread; cases hread
  · exact absurd hbytes hwidth
  · exact other hnctrl hnstatus hncmd
  · by_cases hoffset : a.offset = 0x0010
    · obtain rfl := eq_wordWrite hkind hbytes hoffset
      obtain rfl := next_unique (step_write_cmd_busy hb h) ht
      rfl
    · exact other hnctrl hnstatus hoffset

end Interrupt

/-- Settles O32: by the agent whose turn it is, and for the host by what it writes. -/
theorem interruptLine : Obligations.InterruptLine := by
  refine ⟨irq_iff, fun s t hp ht => ?_, fun s t d rest ht => ?_, fun s t a rest h ht ha => irq_of_access h ht ha⟩
  · obtain hp | ⟨rest, hp⟩ := hp
    · rw [step_unscheduled hp] at ht
      exact irq_of_engineStep ht
    · rw [step_engine hp] at ht
      exact irq_of_engineStep (s := { s with pending := rest }) ht
  · refine ⟨fun h => ?_, fun hi h => ?_, fun h hd => ?_, fun h hd => ?_, fun h => ?_, fun w h => ?_⟩
    · obtain rfl := next_unique (step_write_status h) ht
      exact irq_writeStatus { s with pending := rest } d
    · obtain rfl := next_unique (step_write_cmd hi h) ht
      exact Bool.and_false s.ie
    · obtain rfl := next_unique (step_write_ctrl h) ht
      exact (irq_writeCtrl { s with pending := rest } d).trans (by rw [hd]; rfl)
    · obtain rfl := next_unique (step_write_ctrl h) ht
      exact (irq_writeCtrl { s with pending := rest } d).trans (by rw [hd]; rfl)
    · obtain rfl := next_unique (step_hardReset h) ht
      rfl
    · obtain rfl := next_unique (step_oracle h) ht
      rfl

end Sys2Proof.Proofs
end

section
/-! SUPPORT. Reset (70_reset_and_hazards.md R420): the invariant and every field of the table, after reset and
after the reset input. -/

namespace Sys2Proof.Proofs

open Sys2Proof.Machine Sys2Proof.Laws

/-- Settles O11: the buffers are empty, the engine is idle, and the build is the default one. -/
theorem resetMeetsInvariant : Obligations.ResetMeetsInvariant where
  canonical := reset_mem_wf
  inBuffers _ hc := by cases hc
  build := by decide
  busyClear hb := by cases hb
  code := by decide

/-! ### The registers of a core reset -/

@[simp] theorem readX_hardReset (s : State) (i : XReg) : s.hardReset.readX i = 0#256 := by simp [State.readX]

@[simp] theorem readPReg_hardReset (s : State) (i : PReg) : s.hardReset.readPReg i = ⟨true, 0#256, 0#256⟩ := by
  simp [State.readPReg]

theorem ctrlWord_hardReset (s : State) : s.hardReset.ctrlWord = 0#32 := BitVec.eq_of_toNat_eq (toNat_ctrlWord _)

theorem statusWord_hardReset (s : State) : s.hardReset.statusWord = 0#32 :=
  BitVec.eq_of_toNat_eq (toNat_statusWord _)

/-- The state after reset, and after the reset input in any state, is one the reset made (R420). -/
theorem exists_hardReset {s : State}
    (h : s = State.reset ∨ ∃ s₀ rest, s₀.pending = .hardReset :: rest ∧ step s₀ = .next s) :
    ∃ s₁ : State, s = s₁.hardReset := by
  obtain rfl | ⟨s₀, rest, hp, ht⟩ := h
  · exact ⟨State.reset, rfl⟩
  · exact ⟨{ s₀ with pending := rest }, next_unique ht (step_hardReset hp)⟩

/-- Settles O31: the fields of the reset state, which the reset input gives in every state. -/
theorem resetState : Obligations.ResetState := by
  intro s hs
  obtain ⟨s₁, rfl⟩ := exists_hardReset hs
  refine ⟨rfl, readX_hardReset s₁, readPReg_hardReset s₁, fun _ => rfl, ctrlWord_hardReset s₁, statusWord_hardReset s₁,
    rfl, rfl, rfl, rfl, rfl, fun i => ?_, rfl, rfl, rfl, rfl, rfl, fun s₀ rest hp ht => ?_⟩
  · rw [State.wordAt, readPReg_hardReset]; rfl
  · rw [← next_unique (step_hardReset hp) ht]
    exact ⟨rfl, rfl, rfl⟩

end Sys2Proof.Proofs
end
